-- ==== Sys2Proof/Word.lean ====
section
/-! DEFINITION. The widths of the machine (00_scope.md R4, R6): a register is 32 bits, memory is
addressed in bytes of 8 bits, and the `W` forms move 16 bits. -/

namespace Sys2Proof

/-- A 32-bit register value (R4: `XLEN` = 32). -/
abbrev Word := BitVec 32

/-- A byte, the smallest unit of memory and of the instruction stream (R6). -/
abbrev Byte := BitVec 8

/-- A 16-bit quantity: an absolute address, a length, a short literal (R6, R76). -/
abbrev Half := BitVec 16

end Sys2Proof
end

