-- ==== Sys2Proof/Port.lean ====
section
/-! DEFINITION. The vocabulary of the block's ports (60_exceptions.md R310, R345, R347;
47_host_io.md R270): result codes, host-port requests, introspection accessors, host calls and the
replies the host receives. All of it is plain data. -/

namespace Sys2Proof

/-- `ExecResult`, the closed set of outcomes of one run (R310). -/
inductive ExecResult where
  | finished | paused | unknownOpcode | invalidRegister | invalidAddress | programOverrun
  | stackOverflow | stackUnderflow | unhandledInterrupt | unsupportedOpcode | divisionByZero
deriving DecidableEq, Repr

/-- The number of a result code (R310). -/
def ExecResult.code : ExecResult → Nat
  | .finished => 0 | .paused => 1 | .unknownOpcode => 2 | .invalidRegister => 3
  | .invalidAddress => 4 | .programOverrun => 5 | .stackOverflow => 6 | .stackUnderflow => 7
  | .unhandledInterrupt => 8 | .unsupportedOpcode => 9 | .divisionByZero => 10

/-- R310: every code but `Finished` and `Paused` is a fault. -/
def ExecResult.isFault : ExecResult → Bool
  | .finished | .paused => false
  | _ => true

/-- The kinds of host-port request (R270); whether the host supports a kind is fixed for one
instance. -/
inductive RequestKind where
  | outU32 | outI32 | outF32 | outChar | outStr
  | inU32 | inI32 | inF32 | inChar | inLine
  | dRead | dWrite | aRead | aWrite | pinMode
deriving DecidableEq, Repr

/-- A host-port request with what it carries (R270). -/
inductive Request where
  | outU32 (v : Word) (nl : Bool)
  | outI32 (v : Word) (nl : Bool)
  | outF32 (v : Word) (nl : Bool)
  | outChar (c : Byte) (nl : Bool)
  | outStr (s : List Byte) (nl : Bool)
  | inU32
  | inI32
  | inF32
  | inChar
  | inLine (max : Nat)
  | dRead (pin : Word)
  | dWrite (pin val : Word)
  | aRead (pin : Word)
  | aWrite (pin val : Word)
  | pinMode (pin mode : Word)
deriving DecidableEq, Repr

/-- The kind of a request (R270). -/
def Request.kind : Request → RequestKind
  | .outU32 _ _ => .outU32 | .outI32 _ _ => .outI32 | .outF32 _ _ => .outF32
  | .outChar _ _ => .outChar | .outStr _ _ => .outStr
  | .inU32 => .inU32 | .inI32 => .inI32 | .inF32 => .inF32 | .inChar => .inChar
  | .inLine _ => .inLine
  | .dRead _ => .dRead | .dWrite _ _ => .dWrite
  | .aRead _ => .aRead | .aWrite _ _ => .aWrite | .pinMode _ _ => .pinMode

/-- One transaction the datapath starts (R347): a host-port request, or a call of the interrupt
hook that was registered under the handle `hook`. -/
inductive Transaction where
  | request (q : Request)
  | interrupt (hook : Nat) (code : Byte)
deriving DecidableEq, Repr

/-- The introspection accessors (R345). A register index and a memory offset are numbers the host
passes: one out of range is refused. -/
inductive Accessor where
  | getRegister (i : Nat)
  | setRegister (i : Nat) (v : Word)
  | readMemory (offset : Nat)
  | writeMemory (offset : Nat) (b : Byte)
  | push (v : Word)
  | pop
  | count
deriving DecidableEq, Repr

/-- What the host does in one callback, that is inside one host-port request or one call of the
interrupt hook (R270, R331): the accessors it uses, in order, then its answer. A request takes
`value` (or its low byte, or `line`) as the response; the hook takes `continues`. -/
structure Callback where
  acts : List Accessor
  value : Word
  line : List Byte
  continues : Bool
deriving DecidableEq, Repr, Inhabited

/-- A transaction the host starts on the idle unit (R347). A hook is named by a handle: which host
function it stands for is the host's own affair. -/
inductive HostCall where
  | run (budget : Word)
  | reset
  | onInterrupt (hook : Nat)
  | access (a : Accessor)
deriving DecidableEq, Repr

/-- What the host receives for its call (R321, R345): the result of a run, a register, a byte, a
count, a popped word, the fault code of a failed stack accessor, or a refusal. -/
inductive HostReply where
  | result (r : ExecResult)
  | word (v : Word)
  | byte (b : Byte)
  | count (n : Nat)
  | done
  | failed (r : ExecResult)
  | refused
deriving DecidableEq, Repr

/-- The operation named in `NAN_RESULT(op, operand bits)` (45_float.md R212). -/
inductive FloatOp where
  | finc | fdec | fadd | fsub | fmul | fdiv
deriving DecidableEq, Repr

end Sys2Proof
end

