-- ==== Sys2Proof/Config.lean ====
section
/-! DEFINITION. What an implementation fixes (00_scope.md R4, 10_state.md R11) and the free values
the spec leaves open (92_eei_decisions.md, "Parameters left open"; 93_implementation_defined.md U9,
U10, U12, U14, U17, U21). A free value is an opaque constant: nothing can be proved of what it is. -/

namespace Sys2Proof

/-- `NUM_REGS` (R4, decision D1 of the spec). -/
abbrev numRegs : Nat := 16

/-- A register of the file, by index (R11). -/
abbrev Reg := Fin numRegs

/-! The register map of R11. -/

abbrev Reg.r0 : Reg := 0
abbrev Reg.r1 : Reg := 1
abbrev Reg.r2 : Reg := 2
abbrev Reg.r3 : Reg := 3
abbrev Reg.r4 : Reg := 4
abbrev Reg.r5 : Reg := 5
abbrev Reg.r6 : Reg := 6
abbrev Reg.r7 : Reg := 7
abbrev Reg.t0 : Reg := 8
abbrev Reg.t1 : Reg := 9
abbrev Reg.t2 : Reg := 10
abbrev Reg.t3 : Reg := 11
abbrev Reg.ip : Reg := 12
abbrev Reg.bp : Reg := 13
abbrev Reg.sp : Reg := 14
abbrev Reg.ra : Reg := 15

/-- What a memory byte that nothing has listed reads as: R22 and R360 give `0x00` for every byte of
the stack region after construction, and the program region holds the image it was given. -/
def unlistedByte : Byte := 0

/-- `STACK_CAP` of the instance that `State.reset` is. DESIGN CHOICE (log entry 1), unsafe: the
spec takes it as an argument. -/
def Config.resetStackCap : Nat := 65536

/-- The sign and the fraction less one of `NAN_RESULT(op, operand bits)` (R212, U9): every NaN
pattern and nothing else is a sign and a non-zero 23-bit fraction. Free value (log entry 3). -/
opaque Config.nanResult : FloatOp → Word → Word → Bool × Fin 8388607

/-- `F2I_INVALID(operand bits)` (R220, U10). Free value (log entry 4). -/
opaque Config.f2iInvalid : Word → Word

/-- Which function an instance has for one of its replaceable conversions, `I2S_FORMAT` or `S2I_PARSE`
(R4, U21): the spec's default, or another one, named by a handle. -/
inductive Conversion where
  | default
  | replacedBy (handle : Nat)
deriving DecidableEq, Repr

/-- The functions that can replace the default `I2S_FORMAT` (R4, R290), by handle: the string for a
register value. Free value (log entry 13). -/
opaque Config.i2sFormat : Nat → Word → List Byte

/-- The functions that can replace the default `S2I_PARSE` (R4, R291), by handle: of the memory,
`MEM_SIZE` and the address, the value, or none where the scan raises `InvalidAddress` (R283). Free
value (log entry 13). -/
opaque Config.s2iParse : Nat → List Host.Cell → Nat → Word → Option Word

/-- What the host does in a callback where `State.script` does not say (R270, R331, U12, U14): it may
depend on all that has crossed the ports so far, the present transaction first, and on the registers
and the memory the host can see. Free value (log entry 5). -/
opaque Config.hostCallback : List Transaction → Vector Word numRegs → List Host.Cell → Callback

/-- The stack `count` accessor's answer where R345 leaves it unspecified (U17), fresh for each
reply the host receives. Free value (log entry 6). -/
opaque Config.unspecifiedCount : Nat → Nat

end Sys2Proof
end

