-- ==== Sys2Proof/Syntax.lean ====
section
/-! DEFINITION. The instructions (30_encoding.md R80): one constructor per row of the opcode table,
its operands in the byte order of the encoding. -/

namespace Sys2Proof

/-- A register-index operand as the instruction holds it: one byte, of which only the values below
`NUM_REGS` name a register (R78). -/
abbrev RegByte := Byte

/-- The 85 instructions (R80), in opcode order. -/
inductive Instr where
  -- 40_system.md
  | nop
  | halt
  | int (code : Byte)
  -- 41_data_movement.md
  | lcons (rd : RegByte) (imm : Word)
  | lconsw (rd : RegByte) (imm : Half)
  | lconsb (rd : RegByte) (imm : Byte)
  | mov (rd rs : RegByte)
  -- 42_stack_call.md
  | push (rs : RegByte)
  | pop (rd : RegByte)
  | pop2 (rd1 rd2 : RegByte)
  | dup
  | call (addr : Half)
  | ret
  -- 43_load_store.md
  | stor (rs : RegByte) (addr : Half)
  | storw (rs : RegByte) (addr : Half)
  | storb (rs : RegByte) (addr : Half)
  | storP (rs rp : RegByte)
  | storwP (rs rp : RegByte)
  | storbP (rs rp : RegByte)
  | load (rd : RegByte) (addr : Half)
  | loadw (rd : RegByte) (addr : Half)
  | loadb (rd : RegByte) (addr : Half)
  | loadP (rd rp : RegByte)
  | loadwP (rd rp : RegByte)
  | loadbP (rd rp : RegByte)
  | memcpy (dst src len : Half)
  | memcpyP (rdst rsrc rlen : RegByte)
  -- 44_integer_alu.md
  | inc (rd : RegByte)
  | dec (rd : RegByte)
  -- 45_float.md
  | finc (rd : RegByte)
  | fdec (rd : RegByte)
  -- 44_integer_alu.md
  | add (rd ra rb : RegByte)
  | sub (rd rs : RegByte)
  | mul (rd ra rb : RegByte)
  | div (rd rs : RegByte)
  | mod (rd rs : RegByte)
  | shl (rd rs : RegByte)
  | shr (rd rs : RegByte)
  | and (rd ra rb : RegByte)
  | or (rd ra rb : RegByte)
  | xor (rd ra rb : RegByte)
  | not (rd : RegByte)
  | imul (rd ra rb : RegByte)
  | idiv (rd rs : RegByte)
  | imod (rd rs : RegByte)
  | ishr (rd rs : RegByte)
  -- 45_float.md
  | fadd (rd ra rb : RegByte)
  | fsub (rd rs : RegByte)
  | fmul (rd ra rb : RegByte)
  | fdiv (rd rs : RegByte)
  -- 44_integer_alu.md
  | u2i (rd : RegByte)
  | i2u (rd : RegByte)
  -- 45_float.md
  | i2f (rd rs : RegByte)
  | f2i (rd rs : RegByte)
  -- 46_jumps.md
  | jmp (addr : Half)
  | jr (rs : RegByte)
  | jz (addr : Half) (ra : RegByte)
  | jnz (addr : Half) (ra : RegByte)
  | je (addr : Half) (ra rb : RegByte)
  | jne (addr : Half) (ra rb : RegByte)
  | ja (addr : Half) (ra rb : RegByte)
  | jg (addr : Half) (ra rb : RegByte)
  | jae (addr : Half) (ra rb : RegByte)
  | jge (addr : Half) (ra rb : RegByte)
  | jb (addr : Half) (ra rb : RegByte)
  | jl (addr : Half) (ra rb : RegByte)
  | jbe (addr : Half) (ra rb : RegByte)
  | jle (addr : Half) (ra rb : RegByte)
  -- 47_host_io.md
  | print (rs : RegByte) (nl : Byte)
  | printi (rs : RegByte) (nl : Byte)
  | printf (rs : RegByte) (nl : Byte)
  | printc (rs : RegByte) (nl : Byte)
  | prints (addr : Half) (nl : Byte)
  | read (rd : RegByte)
  | readi (rd : RegByte)
  | readf (rd : RegByte)
  | readc (rd : RegByte)
  | reads (addr len : Half)
  | i2s (addr : Half) (rs : RegByte)
  | s2i (addr : Half) (rd : RegByte)
  | dread (rd rpin : RegByte)
  | dwrite (rpin rval : RegByte)
  | aread (rd rpin : RegByte)
  | awrite (rpin rval : RegByte)
  | pinmode (rpin rmode : RegByte)
deriving DecidableEq, Repr

end Sys2Proof
end

