-- ==== Sys2Proof/WellFormed.lean ====
section
/-! DEFINITION. When an instruction is well formed (30_encoding.md R78, R81): every literal is legal,
and every register-index byte names a register. -/

namespace Sys2Proof

/-- R78: the register-index byte names a register of the file. -/
def RegByte.valid (b : RegByte) : Bool := decide (b.toNat < numRegs)

/-- The register-index bytes of an instruction, in increasing byte offset (R78, R80). -/
def Instr.regBytes : Instr → List RegByte
  | .nop => []
  | .halt => []
  | .int _ => []
  | .lcons rd _ => [rd]
  | .lconsw rd _ => [rd]
  | .lconsb rd _ => [rd]
  | .mov rd rs => [rd, rs]
  | .push rs => [rs]
  | .pop rd => [rd]
  | .pop2 rd1 rd2 => [rd1, rd2]
  | .dup => []
  | .call _ => []
  | .ret => []
  | .stor rs _ => [rs]
  | .storw rs _ => [rs]
  | .storb rs _ => [rs]
  | .storP rs rp => [rs, rp]
  | .storwP rs rp => [rs, rp]
  | .storbP rs rp => [rs, rp]
  | .load rd _ => [rd]
  | .loadw rd _ => [rd]
  | .loadb rd _ => [rd]
  | .loadP rd rp => [rd, rp]
  | .loadwP rd rp => [rd, rp]
  | .loadbP rd rp => [rd, rp]
  | .memcpy _ _ _ => []
  | .memcpyP rdst rsrc rlen => [rdst, rsrc, rlen]
  | .inc rd => [rd]
  | .dec rd => [rd]
  | .finc rd => [rd]
  | .fdec rd => [rd]
  | .add rd ra rb => [rd, ra, rb]
  | .sub rd rs => [rd, rs]
  | .mul rd ra rb => [rd, ra, rb]
  | .div rd rs => [rd, rs]
  | .mod rd rs => [rd, rs]
  | .shl rd rs => [rd, rs]
  | .shr rd rs => [rd, rs]
  | .and rd ra rb => [rd, ra, rb]
  | .or rd ra rb => [rd, ra, rb]
  | .xor rd ra rb => [rd, ra, rb]
  | .not rd => [rd]
  | .imul rd ra rb => [rd, ra, rb]
  | .idiv rd rs => [rd, rs]
  | .imod rd rs => [rd, rs]
  | .ishr rd rs => [rd, rs]
  | .fadd rd ra rb => [rd, ra, rb]
  | .fsub rd rs => [rd, rs]
  | .fmul rd ra rb => [rd, ra, rb]
  | .fdiv rd rs => [rd, rs]
  | .u2i rd => [rd]
  | .i2u rd => [rd]
  | .i2f rd rs => [rd, rs]
  | .f2i rd rs => [rd, rs]
  | .jmp _ => []
  | .jr rs => [rs]
  | .jz _ ra => [ra]
  | .jnz _ ra => [ra]
  | .je _ ra rb => [ra, rb]
  | .jne _ ra rb => [ra, rb]
  | .ja _ ra rb => [ra, rb]
  | .jg _ ra rb => [ra, rb]
  | .jae _ ra rb => [ra, rb]
  | .jge _ ra rb => [ra, rb]
  | .jb _ ra rb => [ra, rb]
  | .jl _ ra rb => [ra, rb]
  | .jbe _ ra rb => [ra, rb]
  | .jle _ ra rb => [ra, rb]
  | .print rs _ => [rs]
  | .printi rs _ => [rs]
  | .printf rs _ => [rs]
  | .printc rs _ => [rs]
  | .prints _ _ => []
  | .read rd => [rd]
  | .readi rd => [rd]
  | .readf rd => [rd]
  | .readc rd => [rd]
  | .reads _ _ => []
  | .i2s _ rs => [rs]
  | .s2i _ rd => [rd]
  | .dread rd rpin => [rd, rpin]
  | .dwrite rpin rval => [rpin, rval]
  | .aread rd rpin => [rd, rpin]
  | .awrite rpin rval => [rpin, rval]
  | .pinmode rpin rmode => [rpin, rmode]

/-- R78, R81: an instruction is well formed when each of its register-index bytes is valid; no other
operand can be ill formed. -/
def Instr.wellFormed (i : Instr) : Bool := i.regBytes.all RegByte.valid

end Sys2Proof
end

