-- ==== Sys2Proof/Decode.lean ====
section
/-! DEFINITION. Decoding and encoding (30_encoding.md R70 to R81): formats and lengths, the opcode
map, the decoder over the bytes the program region offers, and the encoder. -/

namespace Sys2Proof

/-! ### Byte order -/

/-- R42, R75: the number a little-endian group of bytes spells. -/
def leNat : List Byte → Nat
  | [] => 0
  | b :: bs => b.toNat + 256 * leNat bs

/-- R42, R75: the `n` low bytes of a number, least significant first. -/
def leBytes : Nat → Nat → List Byte
  | 0, _ => []
  | n + 1, v => BitVec.ofNat 8 v :: leBytes n (v / 256)

/-! ### Formats -/

/-- The instruction formats of R72: `r` a register-index byte, `b` an 8-bit literal, `h` a 16-bit
little-endian literal or address, `d` a 32-bit little-endian literal. -/
inductive Format where
  | F0 | FR | FB | FRR | FRRR | FRB | FRH | FRD | FH | FHR | FHRR | FHB | FHH | FHHH
deriving DecidableEq, Repr

/-- `L`, the length in bytes of an instruction of the format (R72). -/
def Format.length : Format → Nat
  | .F0 => 1
  | .FR => 2
  | .FB => 2
  | .FRR => 3
  | .FRRR => 4
  | .FRB => 3
  | .FRH => 4
  | .FRD => 6
  | .FH => 3
  | .FHR => 4
  | .FHRR => 5
  | .FHB => 4
  | .FHH => 5
  | .FHHH => 7

/-- An opcode's format together with the instruction its operands make. -/
inductive Shape where
  | f0 (mk : Instr)
  | fr (mk : RegByte → Instr)
  | fb (mk : Byte → Instr)
  | frr (mk : RegByte → RegByte → Instr)
  | frrr (mk : RegByte → RegByte → RegByte → Instr)
  | frb (mk : RegByte → Byte → Instr)
  | frh (mk : RegByte → Half → Instr)
  | frd (mk : RegByte → Word → Instr)
  | fh (mk : Half → Instr)
  | fhr (mk : Half → RegByte → Instr)
  | fhrr (mk : Half → RegByte → RegByte → Instr)
  | fhb (mk : Half → Byte → Instr)
  | fhh (mk : Half → Half → Instr)
  | fhhh (mk : Half → Half → Half → Instr)

/-- The format of a shape. -/
def Shape.format : Shape → Format
  | .f0 _ => .F0
  | .fr _ => .FR
  | .fb _ => .FB
  | .frr _ => .FRR
  | .frrr _ => .FRRR
  | .frb _ => .FRB
  | .frh _ => .FRH
  | .frd _ => .FRD
  | .fh _ => .FH
  | .fhr _ => .FHR
  | .fhrr _ => .FHRR
  | .fhb _ => .FHB
  | .fhh _ => .FHH
  | .fhhh _ => .FHHH

/-- R75: the 16-bit field at byte `k`, of the instruction whose byte `k` is `b k`. -/
def imm16 (b : Nat → Byte) (k : Nat) : Half := BitVec.ofNat 16 (leNat [b k, b (k + 1)])

/-- R75: the 32-bit field at byte `k`. -/
def imm32 (b : Nat → Byte) (k : Nat) : Word :=
  BitVec.ofNat 32 (leNat [b k, b (k + 1), b (k + 2), b (k + 3)])

/-- R72: the instruction of a shape whose byte `k` is `b k`. -/
def Shape.build (b : Nat → Byte) : Shape → Instr
  | .f0 mk => mk
  | .fr mk => mk (b 1)
  | .fb mk => mk (b 1)
  | .frr mk => mk (b 1) (b 2)
  | .frrr mk => mk (b 1) (b 2) (b 3)
  | .frb mk => mk (b 1) (b 2)
  | .frh mk => mk (b 1) (imm16 b 2)
  | .frd mk => mk (b 1) (imm32 b 2)
  | .fh mk => mk (imm16 b 1)
  | .fhr mk => mk (imm16 b 1) (b 3)
  | .fhrr mk => mk (imm16 b 1) (b 3) (b 4)
  | .fhb mk => mk (imm16 b 1) (b 3)
  | .fhh mk => mk (imm16 b 1) (imm16 b 3)
  | .fhhh mk => mk (imm16 b 1) (imm16 b 3) (imm16 b 5)

/-! ### The opcode map -/

/-- The opcode map of R80: what each opcode byte selects, and nothing above `MAX_OPCODE` (0x54),
R74 and R81. -/
def shapeOf (op : Byte) : Option Shape :=
  match op.toNat with
  | 0x00 => some (.f0 .nop)
  | 0x01 => some (.f0 .halt)
  | 0x02 => some (.fb .int)
  | 0x03 => some (.frd .lcons)
  | 0x04 => some (.frh .lconsw)
  | 0x05 => some (.frb .lconsb)
  | 0x06 => some (.frr .mov)
  | 0x07 => some (.fr .push)
  | 0x08 => some (.fr .pop)
  | 0x09 => some (.frr .pop2)
  | 0x0A => some (.f0 .dup)
  | 0x0B => some (.fh .call)
  | 0x0C => some (.f0 .ret)
  | 0x0D => some (.frh .stor)
  | 0x0E => some (.frh .storw)
  | 0x0F => some (.frh .storb)
  | 0x10 => some (.frr .storP)
  | 0x11 => some (.frr .storwP)
  | 0x12 => some (.frr .storbP)
  | 0x13 => some (.frh .load)
  | 0x14 => some (.frh .loadw)
  | 0x15 => some (.frh .loadb)
  | 0x16 => some (.frr .loadP)
  | 0x17 => some (.frr .loadwP)
  | 0x18 => some (.frr .loadbP)
  | 0x19 => some (.fhhh .memcpy)
  | 0x1A => some (.frrr .memcpyP)
  | 0x1B => some (.fr .inc)
  | 0x1C => some (.fr .dec)
  | 0x1D => some (.fr .finc)
  | 0x1E => some (.fr .fdec)
  | 0x1F => some (.frrr .add)
  | 0x20 => some (.frr .sub)
  | 0x21 => some (.frrr .mul)
  | 0x22 => some (.frr .div)
  | 0x23 => some (.frr .mod)
  | 0x24 => some (.frr .shl)
  | 0x25 => some (.frr .shr)
  | 0x26 => some (.frrr .and)
  | 0x27 => some (.frrr .or)
  | 0x28 => some (.frrr .xor)
  | 0x29 => some (.fr .not)
  | 0x2A => some (.frrr .imul)
  | 0x2B => some (.frr .idiv)
  | 0x2C => some (.frr .imod)
  | 0x2D => some (.frr .ishr)
  | 0x2E => some (.frrr .fadd)
  | 0x2F => some (.frr .fsub)
  | 0x30 => some (.frrr .fmul)
  | 0x31 => some (.frr .fdiv)
  | 0x32 => some (.fr .u2i)
  | 0x33 => some (.fr .i2u)
  | 0x34 => some (.frr .i2f)
  | 0x35 => some (.frr .f2i)
  | 0x36 => some (.fh .jmp)
  | 0x37 => some (.fr .jr)
  | 0x38 => some (.fhr .jz)
  | 0x39 => some (.fhr .jnz)
  | 0x3A => some (.fhrr .je)
  | 0x3B => some (.fhrr .jne)
  | 0x3C => some (.fhrr .ja)
  | 0x3D => some (.fhrr .jg)
  | 0x3E => some (.fhrr .jae)
  | 0x3F => some (.fhrr .jge)
  | 0x40 => some (.fhrr .jb)
  | 0x41 => some (.fhrr .jl)
  | 0x42 => some (.fhrr .jbe)
  | 0x43 => some (.fhrr .jle)
  | 0x44 => some (.frb .print)
  | 0x45 => some (.frb .printi)
  | 0x46 => some (.frb .printf)
  | 0x47 => some (.frb .printc)
  | 0x48 => some (.fhb .prints)
  | 0x49 => some (.fr .read)
  | 0x4A => some (.fr .readi)
  | 0x4B => some (.fr .readf)
  | 0x4C => some (.fr .readc)
  | 0x4D => some (.fhh .reads)
  | 0x4E => some (.fhr .i2s)
  | 0x4F => some (.fhr .s2i)
  | 0x50 => some (.frr .dread)
  | 0x51 => some (.frr .dwrite)
  | 0x52 => some (.frr .aread)
  | 0x53 => some (.frr .awrite)
  | 0x54 => some (.frr .pinmode)
  | _ => none

/-! ### Decoding -/

/-- Decoding of the bytes the program region offers from the instruction's address on, at most seven
of them, with the faults in the order of R79: no opcode byte is `ProgramOverrun` (R73), an unknown
opcode `UnknownOpcode` (R74), missing operand bytes `ProgramOverrun` (R74), a register-index byte
that names no register `InvalidRegister` (R78). -/
def decode (bs : List Byte) : Except ExecResult Instr :=
  match bs with
  | [] => .error .programOverrun
  | op :: _ =>
    match shapeOf op with
    | none => .error .unknownOpcode
    | some sh =>
      if bs.length < sh.format.length then .error .programOverrun
      else
        let i := sh.build (fun k => bs.getD k 0)
        if i.wellFormed then .ok i else .error .invalidRegister

/-- The number of bytes of the longest instruction (R71). -/
def maxLength : Nat := 7

/-- The bytes of an instruction given as a number whose bit 0 is the least significant bit of its
first byte; every bit from `nbits` on is 0. -/
def tableBytes (nbits w : Nat) : List Byte := leBytes maxLength (w % 2 ^ nbits)

/-- The instruction the decoder reads from an instruction whose bits are `w`, as
spec/opcode_table.json numbers them. -/
def decodeTableWord (nbits w : Nat) : Option Instr :=
  match decode (tableBytes nbits w) with
  | .ok i => some i
  | .error _ => none

/-! ### Encoding -/

/-- R75: the two bytes of a 16-bit field. -/
def bytes16 (h : Half) : List Byte := leBytes 2 h.toNat

/-- R75: the four bytes of a 32-bit field. -/
def bytes32 (d : Word) : List Byte := leBytes 4 d.toNat

/-- The bytes of an instruction: its opcode, then its operands in byte order (R70, R72, R80). -/
def encode : Instr → List Byte
  | .nop => [0x00]
  | .halt => [0x01]
  | .int code => [0x02, code]
  | .lcons rd imm => [0x03, rd] ++ bytes32 imm
  | .lconsw rd imm => [0x04, rd] ++ bytes16 imm
  | .lconsb rd imm => [0x05, rd, imm]
  | .mov rd rs => [0x06, rd, rs]
  | .push rs => [0x07, rs]
  | .pop rd => [0x08, rd]
  | .pop2 rd1 rd2 => [0x09, rd1, rd2]
  | .dup => [0x0A]
  | .call addr => [0x0B] ++ bytes16 addr
  | .ret => [0x0C]
  | .stor rs addr => [0x0D, rs] ++ bytes16 addr
  | .storw rs addr => [0x0E, rs] ++ bytes16 addr
  | .storb rs addr => [0x0F, rs] ++ bytes16 addr
  | .storP rs rp => [0x10, rs, rp]
  | .storwP rs rp => [0x11, rs, rp]
  | .storbP rs rp => [0x12, rs, rp]
  | .load rd addr => [0x13, rd] ++ bytes16 addr
  | .loadw rd addr => [0x14, rd] ++ bytes16 addr
  | .loadb rd addr => [0x15, rd] ++ bytes16 addr
  | .loadP rd rp => [0x16, rd, rp]
  | .loadwP rd rp => [0x17, rd, rp]
  | .loadbP rd rp => [0x18, rd, rp]
  | .memcpy dst src len => [0x19] ++ bytes16 dst ++ bytes16 src ++ bytes16 len
  | .memcpyP rdst rsrc rlen => [0x1A, rdst, rsrc, rlen]
  | .inc rd => [0x1B, rd]
  | .dec rd => [0x1C, rd]
  | .finc rd => [0x1D, rd]
  | .fdec rd => [0x1E, rd]
  | .add rd ra rb => [0x1F, rd, ra, rb]
  | .sub rd rs => [0x20, rd, rs]
  | .mul rd ra rb => [0x21, rd, ra, rb]
  | .div rd rs => [0x22, rd, rs]
  | .mod rd rs => [0x23, rd, rs]
  | .shl rd rs => [0x24, rd, rs]
  | .shr rd rs => [0x25, rd, rs]
  | .and rd ra rb => [0x26, rd, ra, rb]
  | .or rd ra rb => [0x27, rd, ra, rb]
  | .xor rd ra rb => [0x28, rd, ra, rb]
  | .not rd => [0x29, rd]
  | .imul rd ra rb => [0x2A, rd, ra, rb]
  | .idiv rd rs => [0x2B, rd, rs]
  | .imod rd rs => [0x2C, rd, rs]
  | .ishr rd rs => [0x2D, rd, rs]
  | .fadd rd ra rb => [0x2E, rd, ra, rb]
  | .fsub rd rs => [0x2F, rd, rs]
  | .fmul rd ra rb => [0x30, rd, ra, rb]
  | .fdiv rd rs => [0x31, rd, rs]
  | .u2i rd => [0x32, rd]
  | .i2u rd => [0x33, rd]
  | .i2f rd rs => [0x34, rd, rs]
  | .f2i rd rs => [0x35, rd, rs]
  | .jmp addr => [0x36] ++ bytes16 addr
  | .jr rs => [0x37, rs]
  | .jz addr ra => [0x38] ++ bytes16 addr ++ [ra]
  | .jnz addr ra => [0x39] ++ bytes16 addr ++ [ra]
  | .je addr ra rb => [0x3A] ++ bytes16 addr ++ [ra, rb]
  | .jne addr ra rb => [0x3B] ++ bytes16 addr ++ [ra, rb]
  | .ja addr ra rb => [0x3C] ++ bytes16 addr ++ [ra, rb]
  | .jg addr ra rb => [0x3D] ++ bytes16 addr ++ [ra, rb]
  | .jae addr ra rb => [0x3E] ++ bytes16 addr ++ [ra, rb]
  | .jge addr ra rb => [0x3F] ++ bytes16 addr ++ [ra, rb]
  | .jb addr ra rb => [0x40] ++ bytes16 addr ++ [ra, rb]
  | .jl addr ra rb => [0x41] ++ bytes16 addr ++ [ra, rb]
  | .jbe addr ra rb => [0x42] ++ bytes16 addr ++ [ra, rb]
  | .jle addr ra rb => [0x43] ++ bytes16 addr ++ [ra, rb]
  | .print rs nl => [0x44, rs, nl]
  | .printi rs nl => [0x45, rs, nl]
  | .printf rs nl => [0x46, rs, nl]
  | .printc rs nl => [0x47, rs, nl]
  | .prints addr nl => [0x48] ++ bytes16 addr ++ [nl]
  | .read rd => [0x49, rd]
  | .readi rd => [0x4A, rd]
  | .readf rd => [0x4B, rd]
  | .readc rd => [0x4C, rd]
  | .reads addr len => [0x4D] ++ bytes16 addr ++ bytes16 len
  | .i2s addr rs => [0x4E] ++ bytes16 addr ++ [rs]
  | .s2i addr rd => [0x4F] ++ bytes16 addr ++ [rd]
  | .dread rd rpin => [0x50, rd, rpin]
  | .dwrite rpin rval => [0x51, rpin, rval]
  | .aread rd rpin => [0x52, rd, rpin]
  | .awrite rpin rval => [0x53, rpin, rval]
  | .pinmode rpin rmode => [0x54, rpin, rmode]

end Sys2Proof
end

