-- ==== Sys2Proof/Machine/State.lean ====
section
/-! DEFINITION. The state of one instance as plain data (10_state.md R10 to R23, 60_exceptions.md
R321, R326, R347), the reasons a step can stop, and the state after construction. -/

namespace Sys2Proof.Machine

/-- Memory: the listed bytes, addresses strictly rising, no listed byte equal to `unlistedByte`
(`Memory.wf`). -/
abbrev Memory := List Host.Cell

/-- Whether the unit is inside a run (R326). Inside one, the budget the host gave and `icount`,
which is live only then (R10, R18, R321). -/
inductive Phase where
  | idle
  | running (budget icount : Word)
deriving DecidableEq, Repr

/-- The state of one instance, its fixed parameters and what crosses its ports. -/
structure State where
  /-- The sixteen registers, by the index of R11; `IP` is one of them (R10 a, R13). -/
  regs : Vector Word numRegs
  /-- The one memory (R10 b, R21, R40). -/
  mem : Memory
  /-- `HOOK`: empty, or the handle of the hook registered last (R10 c, R18, R330). -/
  hook : Option Nat
  /-- Idle, or inside a run with its budget and `icount` (R10 d, R326). -/
  phase : Phase
  /-- `PROG_LEN`, fixed for the life of the instance (R4, R10). -/
  progLen : Nat
  /-- `STACK_CAP`, fixed for the life of the instance (R4, R10). -/
  stackCap : Nat
  /-- `HOST`: the request kinds the host supports, fixed for the life of the instance (R10, R270). -/
  hostKinds : List RequestKind
  /-- `I2S_FORMAT`: which function the instance has, fixed for its life (R4, R290). -/
  i2sFormat : Conversion
  /-- `S2I_PARSE`: which function the instance has, fixed for its life (R4, R291). -/
  s2iParse : Conversion
  /-- The model's own: what the host does in its next callbacks, soonest first; when it is empty,
  `Config.hostCallback` says (log entry 5). -/
  script : List Callback
  /-- The observable trace of the transactions the datapath started (R270), newest first. -/
  trace : List Transaction
  /-- The model's own: the calls the host makes on the idle unit, soonest first (R347). -/
  inbox : List HostCall
  /-- What the host received for its calls, the results of runs among them (R310, R345), newest
  first. -/
  replies : List HostReply
deriving DecidableEq, Repr

/-- The reasons a step can stop the machine for good. There are NONE: every fault of the spec ends
only the current run, with its result code presented to the host and nothing else changed (R313,
R317, R320), so it is a next state (`raise`). Safe: no step of the model hides a continuation that
the spec describes. -/
inductive Fault where
deriving DecidableEq, Repr

/-- The reasons the model gives no meaning to a step. -/
inductive Refusal where
  /-- Raised by an arm of `exec` whose instruction has no meaning yet. Safe: nothing is claimed of
  such an instruction. No arm raises it now. -/
  | notModelled (mnemonic : String)
deriving DecidableEq, Repr

/-- The instance right after construction with an empty program image and a stack region of
`Config.resetStackCap` bytes, no host capability attached (R22, R360): every register zero but
`SP`, which holds `MEM_SIZE`; memory with nothing listed; no hook; the unit idle; the default
conversions of R4. The sizes and the host are DESIGN CHOICE (log entry 1). -/
def State.reset : State where
  regs := #v[0, 0, 0, 0, 0, 0, 0, 0, 0, 0, 0, 0, 0, 0, BitVec.ofNat 32 Config.resetStackCap, 0]
  mem := []
  hook := none
  phase := .idle
  progLen := 0
  stackCap := Config.resetStackCap
  hostKinds := []
  i2sFormat := .default
  s2iParse := .default
  script := []
  trace := []
  inbox := []
  replies := []

end Sys2Proof.Machine
end

