-- ==== Sys2Proof/Machine/Ops.lean ====
section
/-! DEFINITION. The named operations every meaning is written over: registers and the working copy of
`IP` (10_state.md R12 to R15), memory and its range-checked primitives (20_memory.md R42 to R45),
raising a fault, stopping, advancing and resuming (60_exceptions.md R313, R316, R320 to R323), the
stack primitives (42_stack_call.md R121, R122), and the byte-string scans. -/

namespace Sys2Proof.Machine

/-- The three outcomes of a step of this machine. -/
abbrev Result := Host.Outcome State Fault Refusal

/-! ### Registers -/

/-- R12: the 32 bits of a register. -/
def State.reg (s : State) (r : Reg) : Word := s.regs[r]

/-- R12: a register's 32 bits replaced. -/
def State.setReg (s : State) (r : Reg) (v : Word) : State := { s with regs := s.regs.set r v }

/-- R14: the state the pseudocode of an instruction of format `f` at address `a` works on: `IP` reads
as the working copy `ipw`, that is `a + L − 1`. -/
def State.enter (s : State) (f : Format) : State :=
  s.setReg .ip (s.reg .ip + BitVec.ofNat 32 (f.length - 1))

/-- `pc <- t` (R8, R15): the working copy of `IP` becomes `t − 1`. -/
def State.jump (w : State) (t : Word) : State := w.setReg .ip (t - 1)

/-! ### Memory -/

/-- The canonical form: addresses strictly rise and no listed byte equals `unlistedByte`. -/
def Memory.wf : Memory → Bool
  | [] => true
  | [c] => c.2 != unlistedByte
  | c :: d :: m => c.2 != unlistedByte && decide (c.1 < d.1) && Memory.wf (d :: m)

/-- The byte at an address. -/
def Memory.read (m : Memory) (a : Nat) : Byte :=
  match m with
  | [] => unlistedByte
  | c :: m => if c.1 = a then c.2 else Memory.read m a

/-- The memory without what it lists at an address. -/
def Memory.erase (m : Memory) (a : Nat) : Memory := m.filter (fun c => c.1 != a)

/-- The memory with a byte listed at an address it does not list. -/
def Memory.insert (m : Memory) (a : Nat) (b : Byte) : Memory :=
  match m with
  | [] => [(a, b)]
  | c :: m => if a < c.1 then (a, b) :: c :: m else c :: Memory.insert m a b

/-- The byte at an address replaced, in canonical form. -/
def Memory.write (m : Memory) (a : Nat) (b : Byte) : Memory :=
  if b = unlistedByte then m.erase a else (m.erase a).insert a b

/-- Consecutive bytes written from an address on. -/
def Memory.writeBytes (m : Memory) (a : Nat) : List Byte → Memory
  | [] => m
  | b :: bs => Memory.writeBytes (m.write a b) (a + 1) bs

/-- The `n` consecutive bytes from an address on. -/
def Memory.readBytes (m : Memory) (a : Nat) : Nat → List Byte
  | 0 => []
  | n + 1 => m.read a :: Memory.readBytes m (a + 1) n

/-- R155: `n` bytes copied one by one, upward, each read seeing the writes before it. -/
def Memory.copyForward (m : Memory) (dst src : Nat) : Nat → Memory
  | 0 => m
  | n + 1 => Memory.copyForward (m.write dst (m.read src)) (dst + 1) (src + 1) n

/-- `MEM_SIZE` (R4). -/
def State.memSize (s : State) : Nat := s.progLen + s.stackCap

/-- `MemRead(addr, n)` (R44), zero-extended to 32 bits: the bytes in little-endian order, or
`InvalidAddress` when the range, summed without wrap-around, leaves the memory. -/
def State.memRead (s : State) (addr : Word) (n : Nat) : Except ExecResult Word :=
  if addr.toNat + n > s.memSize then .error .invalidAddress
  else .ok (BitVec.ofNat 32 (leNat (s.mem.readBytes addr.toNat n)))

/-- `MemWrite(addr, n, v)` (R45): the low `n` bytes of `v` in little-endian order, or
`InvalidAddress` and no byte written. -/
def State.memWrite (s : State) (addr : Word) (n : Nat) (v : Word) : Except ExecResult State :=
  if addr.toNat + n > s.memSize then .error .invalidAddress
  else .ok { s with mem := s.mem.writeBytes addr.toNat (leBytes n v.toNat) }

/-- `BlockCopy(dst, src, len)` (R155): both ranges checked, then the forward copy. -/
def State.blockCopy (s : State) (dst src len : Word) : Except ExecResult State :=
  if src.toNat + len.toNat > s.memSize then .error .invalidAddress
  else if dst.toNat + len.toNat > s.memSize then .error .invalidAddress
  else .ok { s with mem := s.mem.copyForward dst.toNat src.toNat len.toNat }

/-- R276: the bytes before the first zero byte from an address on, when one is reached within
`fuel` bytes. -/
def Memory.scanString (m : Memory) (a : Nat) : Nat → Option (List Byte)
  | 0 => none
  | fuel + 1 =>
    if m.read a = 0 then some []
    else (Memory.scanString m (a + 1) fuel).map (m.read a :: ·)

/-- R291: the byte is an ASCII digit. -/
def isDigit (b : Byte) : Bool := decide (0x30 ≤ b.toNat) && decide (b.toNat ≤ 0x39)

/-- R291: the value of the digits from an address on, modulo 2^32, when a byte that is no digit is
reached within `fuel` bytes. -/
def Memory.scanDigits (m : Memory) (a : Nat) (acc : Word) : Nat → Option Word
  | 0 => none
  | fuel + 1 =>
    if isDigit (m.read a) then
      Memory.scanDigits m (a + 1) (acc * 10 + BitVec.ofNat 32 ((m.read a).toNat - 0x30)) fuel
    else some acc

/-- R290: the decimal digits of a number below 10^`fuel`, most significant first. -/
def decimalDigits : Nat → Nat → List Byte
  | 0, _ => []
  | fuel + 1, n =>
    if n < 10 then [BitVec.ofNat 8 (0x30 + n)]
    else decimalDigits fuel (n / 10) ++ [BitVec.ofNat 8 (0x30 + n % 10)]

/-- `I2S_FORMAT(v)` (R4, R290): by default the shortest decimal representation, 1 to 10 digits. -/
def State.formatInt (s : State) (v : Word) : List Byte :=
  match s.i2sFormat with
  | .default => decimalDigits 10 v.toNat
  | .replacedBy handle => Config.i2sFormat handle v

/-- The string at an address (R276), `InvalidAddress` when the scan reaches `MEM_SIZE`. -/
def State.readString (s : State) (p : Word) : Except ExecResult (List Byte) :=
  match s.mem.scanString p.toNat (s.memSize - p.toNat) with
  | some bs => .ok bs
  | none => .error .invalidAddress

/-- `S2I_PARSE(p)` (R4, R291), none where the scan raises `InvalidAddress`: by default the leading
digits, when the scan ends below `MEM_SIZE`. -/
def State.scanInt (s : State) (p : Word) : Option Word :=
  match s.s2iParse with
  | .default => s.mem.scanDigits p.toNat 0 (s.memSize - p.toNat)
  | .replacedBy handle => Config.s2iParse handle s.mem s.memSize p

/-- What `S2I` reads at an address (R283), `InvalidAddress` raised from the scan. -/
def State.parseInt (s : State) (p : Word) : Except ExecResult Word :=
  match s.scanInt p with
  | some v => .ok v
  | none => .error .invalidAddress

/-! ### Ending a run, advancing, resuming -/

/-- The end of a run with a result (R313, R316, R321, R326): the unit is idle with its full state
retained, and the result is presented to the host. -/
def State.endRun (s : State) (r : ExecResult) : State :=
  { s with phase := .idle, replies := .result r :: s.replies }

/-- TAKING A FAULT, `raise F` (R313, R317): no register, no memory byte and no other state of the
machine changes, `IP` stays at the faulting instruction, and the run ends with result `F`. -/
def raise (f : ExecResult) (s : State) : Result := .next (s.endRun f)

/-- `stop Finished` (R316): the run ends, `IP` stays at the stopping instruction. -/
def stopFinished (s : State) : Result := .next (s.endRun .finished)

/-- THE RETURN (R320): there is no return instruction; the host calls `run` again, with `icount` at 0
and execution starting at the current `IP` (R321). -/
def State.startRun (s : State) (budget : Word) : State := { s with phase := .running budget 0 }

/-- R321, R322, R323: one more instruction has completed normally; a non-zero budget used up ends
the run with `Paused`. -/
def State.count (s : State) : State :=
  match s.phase with
  | .idle => s
  | .running budget icount =>
    if budget ≠ 0 ∧ budget ≤ icount + 1 then s.endRun .paused
    else { s with phase := .running budget (icount + 1) }

/-- The Advance step (R15, R321): `IP` is committed as `ipw + 1`, and the instruction counts. -/
def State.advance (w : State) : State := (w.setReg .ip (w.reg .ip + 1)).count

/-- An instruction of format `f`: its pseudocode runs on the working state, and either completes and
advances, or raises a fault that leaves the state as it was before the instruction (R8, R14, R15,
R313). -/
def attempt (f : Format) (s : State) (body : State → Except ExecResult State) : Result :=
  match body (s.enter f) with
  | .ok w => .next w.advance
  | .error e => raise e s

/-! ### The stack -/

/-- `Push(v)` (R121), its checks in order and before any change. -/
def State.pushWord (s : State) (v : Word) : Except ExecResult State :=
  if (s.reg .sp).toNat ≤ s.progLen + 4 then .error .stackOverflow
  else if s.memSize < (s.reg .sp).toNat then .error .invalidAddress
  else do
    let t ← s.memWrite (s.reg .sp - 4) 4 v
    return t.setReg .sp (s.reg .sp - 4)

/-- R122, R126: the word on top of the stack, held to the conditions of a pop. -/
def State.topWord (s : State) : Except ExecResult Word :=
  if s.memSize ≤ (s.reg .sp).toNat ∨ (s.reg .sp).toNat < s.progLen then .error .stackUnderflow
  else s.memRead (s.reg .sp) 4

/-- `Pop()` (R122): the word on top, and the state with `SP` raised by 4. -/
def State.popWord (s : State) : Except ExecResult (Word × State) := do
  let v ← s.topWord
  return (v, s.setReg .sp (s.reg .sp + 4))

/-- R125: the two words on top, every check of both pops before any change, and the state with `SP`
raised by 8. -/
def State.popTwo (s : State) : Except ExecResult (Word × Word × State) :=
  if s.memSize ≤ (s.reg .sp).toNat ∨ (s.reg .sp).toNat < s.progLen then .error .stackUnderflow
  else if s.memSize ≤ (s.reg .sp).toNat + 4 then .error .stackUnderflow
  else if s.memSize < (s.reg .sp).toNat + 8 then .error .invalidAddress
  else do
    let v1 ← s.memRead (s.reg .sp) 4
    let v2 ← s.memRead (s.reg .sp + 4) 4
    return (v1, v2, s.setReg .sp (s.reg .sp + 8))

end Sys2Proof.Machine
end

