-- ==== Sys2Proof/Machine/Flags.lean ====
section
/-! DEFINITION. The machine has NO flags and no condition codes (10_state.md R17): nothing is
recorded by an instruction for a later one to test. What stands here is what a conditional jump
computes at the time of the jump from one or two registers (46_jumps.md R243, R244, R255). -/

namespace Sys2Proof.Machine

/-- The comparison an opcode carries (R240, R255); `u` is unsigned, `s` two's complement. -/
inductive Cond where
  | eq | ne | gtu | gts | geu | ges | ltu | lts | leu | les
deriving DecidableEq, Repr

/-- R255: whether the jump is taken, for the left operand `a` and the right operand `b`. -/
def condHolds (c : Cond) (a b : Word) : Bool :=
  match c with
  | .eq => a == b
  | .ne => a != b
  | .gtu => BitVec.ult b a
  | .gts => BitVec.slt b a
  | .geu => BitVec.ule b a
  | .ges => BitVec.sle b a
  | .ltu => BitVec.ult a b
  | .lts => BitVec.slt a b
  | .leu => BitVec.ule a b
  | .les => BitVec.sle a b

end Sys2Proof.Machine
end

