-- ==== Sys2Proof/Machine/HostPort.lean ====
section
/-! DEFINITION. The ports of the block (60_exceptions.md R345, R347): the introspection accessors, the
callbacks the datapath makes (47_host_io.md R270, 60_exceptions.md R331), the calls the host makes on
the idle unit (R321, R330, R361), and construction (70_reset_and_hazards.md R360). -/

namespace Sys2Proof.Machine

/-! ### Introspection -/

/-- R345: the register an accessor's index names, if any. -/
def regOfIndex (i : Nat) : Option Reg := if h : i < numRegs then some ⟨i, h⟩ else none

/-- R345: one introspection accessor, its effect and its reply. An index or offset out of range is
refused and has no effect; a failing stack accessor changes nothing. -/
def State.access (s : State) (a : Accessor) : State × HostReply :=
  match a with
  | .getRegister i =>
    match regOfIndex i with
    | some r => (s, .word (s.reg r))
    | none => (s, .refused)
  | .setRegister i v =>
    match regOfIndex i with
    | some r => (s.setReg r v, .done)
    | none => (s, .refused)
  | .readMemory offset =>
    if offset < s.memSize then (s, .byte (s.mem.read offset)) else (s, .refused)
  | .writeMemory offset b =>
    if offset < s.memSize then ({ s with mem := s.mem.write offset b }, .done) else (s, .refused)
  | .push v =>
    match s.pushWord v with
    | .ok t => (t, .done)
    | .error e => (s, .failed e)
  | .pop =>
    match s.popWord with
    | .ok (v, t) => (t, .word v)
    | .error e => (s, .failed e)
  | .count =>
    if s.progLen ≤ (s.reg .sp).toNat ∧ (s.reg .sp).toNat ≤ s.memSize then
      (s, .count ((s.memSize - (s.reg .sp).toNat) / 4))
    else (s, .count (Config.unspecifiedCount s.replies.length))

/-! ### Callbacks -/

/-- R331, U15: inside a callback a write of `IP` is refused. -/
def callbackMay (a : Accessor) : Bool :=
  match a with
  | .setRegister i _ => i != Reg.ip.val
  | _ => true

/-- R331, R54: the state after the accessors the host uses inside one callback. -/
def State.perform (s : State) : List Accessor → State
  | [] => s
  | a :: as => State.perform (if callbackMay a then (s.access a).1 else s) as

/-- What the host does in the callback that a transaction makes (R270, R331; log entry 5). -/
def State.callback (s : State) (x : Transaction) : Callback :=
  match s.script with
  | c :: _ => c
  | [] => Config.hostCallback (x :: s.trace) s.regs s.mem

/-- One transaction the datapath starts: it is traced, and the host acts. -/
def State.transact (s : State) (x : Transaction) : Callback × State :=
  (s.callback x,
    State.perform { s with script := s.script.tail, trace := x :: s.trace } (s.callback x).acts)

/-- A host-port request (R270): `UnsupportedOpcode` and no change when the host does not support the
kind, else the host's response and the state its own accessors leave. -/
def State.request (s : State) (q : Request) : Except ExecResult (Callback × State) :=
  if q.kind ∈ s.hostKinds then .ok (s.transact (.request q)) else .error .unsupportedOpcode

/-- The response `line(s)` to `in_line(max)` (R270): at most `max` bytes, no NUL inside. -/
def lineAnswer (c : Callback) (max : Nat) : List Byte := (c.line.filter (· != 0)).take max

/-! ### Host calls -/

/-- `reset()` (R361): every register zero, `SP` at the top of memory, all else untouched. -/
def State.warmReset (s : State) : State :=
  { s with regs := (Vector.replicate numRegs 0).set Reg.sp (BitVec.ofNat 32 s.memSize) }

/-- The host's reply queue with one more reply. -/
def State.reply (s : State) (r : HostReply) : State := { s with replies := r :: s.replies }

/-- One call the host makes on the idle unit (R347). A run's reply is its result code, given when
the run ends. -/
def State.hostCall (s : State) (c : HostCall) : State :=
  match c with
  | .run budget => s.startRun budget
  | .reset => s.warmReset.reply .done
  | .onInterrupt h => State.reply { s with hook := some h } .done
  | .access a => (s.access a).1.reply (s.access a).2

/-- Construction (R4, R360) of an instance with a program image, a stack region, a host capability and
the two conversions, when the sizes meet R5 (otherwise none: DESIGN CHOICE, log entry 17). -/
def State.construct (program : List Byte) (stackCap : Nat) (hostKinds : List RequestKind)
    (i2sFormat s2iParse : Conversion) : Option State :=
  if program.length + stackCap < 2 ^ 32 then
    some
      { regs := (Vector.replicate numRegs 0).set Reg.sp
          (BitVec.ofNat 32 (program.length + stackCap))
        mem := Memory.writeBytes [] 0 program
        hook := none
        phase := .idle
        progLen := program.length
        stackCap := stackCap
        hostKinds := hostKinds
        i2sFormat := i2sFormat
        s2iParse := s2iParse
        script := []
        trace := []
        inbox := []
        replies := [] }
  else none

end Sys2Proof.Machine
end

