-- ==== Sys2Proof/Machine/Operands.lean ====
section
/-! DEFINITION. Operands (30_encoding.md R76, R78; 43_load_store.md R140) and the operand forms the
meanings are written over (44_integer_alu.md R170). In every form the register-index bytes are
validated in increasing byte offset, every source is read from the working state, and every `raise`
stands before every write (R8, R313). -/

namespace Sys2Proof.Machine

/-- A register-index operand (R78): the register it names, or `InvalidRegister`. -/
def regOperand (b : RegByte) : Except ExecResult Reg :=
  if h : b.toNat < numRegs then .ok ⟨b.toNat, h⟩ else .error .invalidRegister

/-- The register-index byte of a register (R11). -/
def regByte (r : Reg) : RegByte := BitVec.ofNat 8 r.val

/-- A 16-bit address, length or literal, zero-extended (R75, R76, R111). -/
def zext16 (h : Half) : Word := h.setWidth 32

/-- An 8-bit literal, zero-extended (R75, R112). -/
def zext8 (b : Byte) : Word := b.setWidth 32

/-- The newline flag byte (R272 to R276): any non-zero value is a newline. -/
def newline (b : Byte) : Bool := b != 0

/-! ### Register forms -/

/-- `x[rd] <- v`, a literal. -/
def literalForm (f : Format) (v : Word) (rd : RegByte) (s : State) : Result :=
  attempt f s fun w => do
    let d ← regOperand rd
    return w.setReg d v

/-- The one-operand in-place form (R170): `x[rd] <- op x[rd]`. -/
def inPlaceForm (op : Word → Word) (rd : RegByte) (s : State) : Result :=
  attempt .FR s fun w => do
    let d ← regOperand rd
    return w.setReg d (op (w.reg d))

/-- The two-register form `x[rd] <- op x[rs]` of moves and conversions. -/
def moveForm (op : Word → Word) (rd rs : RegByte) (s : State) : Result :=
  attempt .FRR s fun w => do
    let d ← regOperand rd
    let r ← regOperand rs
    return w.setReg d (op (w.reg r))

/-- The two-operand accumulate form (R170): `x[rd] <- x[rd] op x[rs]`, where `op` may raise. -/
def accumulateForm (op : Word → Word → Except ExecResult Word) (rd rs : RegByte) (s : State) :
    Result :=
  attempt .FRR s fun w => do
    let d ← regOperand rd
    let r ← regOperand rs
    let v ← op (w.reg d) (w.reg r)
    return w.setReg d v

/-- The three-operand form (R170): `x[rd] <- x[ra] op x[rb]`. -/
def threeForm (op : Word → Word → Word) (rd ra rb : RegByte) (s : State) : Result :=
  attempt .FRRR s fun w => do
    let d ← regOperand rd
    let a ← regOperand ra
    let b ← regOperand rb
    return w.setReg d (op (w.reg a) (w.reg b))

/-! ### Load and store forms (R140), of `n` bytes -/

/-- A load from an absolute address. -/
def loadAbsForm (n : Nat) (rd : RegByte) (addr : Half) (s : State) : Result :=
  attempt .FRH s fun w => do
    let d ← regOperand rd
    let v ← w.memRead (zext16 addr) n
    return w.setReg d v

/-- A register-indirect load. -/
def loadIndForm (n : Nat) (rd rp : RegByte) (s : State) : Result :=
  attempt .FRR s fun w => do
    let d ← regOperand rd
    let p ← regOperand rp
    let v ← w.memRead (w.reg p) n
    return w.setReg d v

/-- A store to an absolute address. -/
def storeAbsForm (n : Nat) (rs : RegByte) (addr : Half) (s : State) : Result :=
  attempt .FRH s fun w => do
    let r ← regOperand rs
    w.memWrite (zext16 addr) n (w.reg r)

/-- A register-indirect store. -/
def storeIndForm (n : Nat) (rs rp : RegByte) (s : State) : Result :=
  attempt .FRR s fun w => do
    let r ← regOperand rs
    let p ← regOperand rp
    w.memWrite (w.reg p) n (w.reg r)

/-! ### Jump forms (R240) -/

/-- A jump on a condition on one register. -/
def jumpOneForm (taken : Word → Bool) (addr : Half) (ra : RegByte) (s : State) : Result :=
  attempt .FHR s fun w => do
    let a ← regOperand ra
    return if taken (w.reg a) then w.jump (zext16 addr) else w

/-- A jump on a comparison of two registers. -/
def jumpTwoForm (c : Cond) (addr : Half) (ra rb : RegByte) (s : State) : Result :=
  attempt .FHRR s fun w => do
    let a ← regOperand ra
    let b ← regOperand rb
    return if condHolds c (w.reg a) (w.reg b) then w.jump (zext16 addr) else w

/-! ### Host-port forms (R270): the request is made at the instruction's address, `IP` reading `a`
in the callback (R331), and the instruction then goes on from the state the host left. -/

/-- A request made inside an instruction of format `f` at `s`: the host's response and the working
state after it. -/
def requestAt (f : Format) (s : State) (q : Request) : Except ExecResult (Callback × State) := do
  let (c, t) ← s.request q
  return (c, t.enter f)

/-- The output of one register (R272 to R275). -/
def outputForm (q : Word → Bool → Request) (rs : RegByte) (nl : Byte) (s : State) : Result :=
  attempt .FRB s fun w => do
    let r ← regOperand rs
    let (_, t) ← requestAt .FRB s (q (w.reg r) (newline nl))
    return t

/-- An input into one register (R277 to R280). -/
def inputForm (q : Request) (value : Callback → Word) (rd : RegByte) (s : State) : Result :=
  attempt .FR s fun _ => do
    let d ← regOperand rd
    let (c, t) ← requestAt .FR s q
    return t.setReg d (value c)

/-- A read of a pin (R301, R303). -/
def pinReadForm (q : Word → Request) (rd rpin : RegByte) (s : State) : Result :=
  attempt .FRR s fun w => do
    let d ← regOperand rd
    let p ← regOperand rpin
    let (c, t) ← requestAt .FRR s (q (w.reg p))
    return t.setReg d c.value

/-- A write to a pin, of a value or a mode (R302, R304, R305). -/
def pinWriteForm (q : Word → Word → Request) (rpin rval : RegByte) (s : State) : Result :=
  attempt .FRR s fun w => do
    let p ← regOperand rpin
    let v ← regOperand rval
    let (_, t) ← requestAt .FRR s (q (w.reg p) (w.reg v))
    return t

end Sys2Proof.Machine
end

