-- ==== Sys2Proof/Machine/DataMovement.lean ====
section
/-! DEFINITION. Data movement (41_data_movement.md R110 to R113). -/

namespace Sys2Proof.Machine

/-- `LCONS rd, imm32` (R110). -/
def execLcons (rd : RegByte) (imm : Word) (s : State) : Result := literalForm .FRD imm rd s

/-- `LCONSW rd, imm16` (R111), zero-extended. -/
def execLconsw (rd : RegByte) (imm : Half) (s : State) : Result := literalForm .FRH (zext16 imm) rd s

/-- `LCONSB rd, imm8` (R112), zero-extended. -/
def execLconsb (rd : RegByte) (imm : Byte) (s : State) : Result := literalForm .FRB (zext8 imm) rd s

/-- `MOV rd, rs` (R113). -/
def execMov (rd rs : RegByte) (s : State) : Result := moveForm id rd rs s

end Sys2Proof.Machine
end

