-- ==== Sys2Proof/Machine/Float32.lean ====
section
/-! DEFINITION. Binary32 arithmetic on bit patterns (45_float.md R210 to R212, R219 to R221;
00_scope.md R7). A finite datum is exactly a sign and a whole number of units of 2^-149, the least
subnormal, so exact sums, products and quotients are computed over the integers and rounded once. -/

namespace Sys2Proof.Machine

/-- A binary32 datum (R7, R210). `fin neg mag` is `mag · 2^-149`, negated when `neg`. -/
inductive Datum where
  | nan
  | inf (neg : Bool)
  | fin (neg : Bool) (mag : Nat)
deriving DecidableEq, Repr

/-- `f32(v)` (R7): bit 31 sign, bits 30:23 exponent with bias 127, bits 22:0 fraction. -/
def f32 (v : Word) : Datum :=
  let e := (v.extractLsb' 23 8).toNat
  let f := (v.extractLsb' 0 23).toNat
  if e = 255 then (if f = 0 then .inf v.msb else .nan)
  else if e = 0 then .fin v.msb f
  else .fin v.msb ((f + 2 ^ 23) * 2 ^ (e - 1))

/-- The quotient of two naturals rounded to the nearest natural, ties to even. -/
def roundDiv (num den : Nat) : Nat :=
  let q := num / den
  let r := num % den
  if den < 2 * r ∨ (2 * r = den ∧ q % 2 = 1) then q + 1 else q

/-- The low 31 bits of the binary32 number nearest to `num / den` units of 2^-149, ties to even
(R211); the pattern of infinity on overflow (R221). Below 2^24 units the pattern is the rounded
number itself; above, each doubling of the spacing adds one to the exponent field. -/
def roundMag (num den : Nat) : Nat :=
  let k := Nat.log2 (num / den) - 23
  min (k * 2 ^ 23 + roundDiv num (den * 2 ^ k)) 0x7F800000

/-- The 32 bits of a sign and the low 31 bits. -/
def withSign (neg : Bool) (mag : Nat) : Word :=
  BitVec.ofNat 32 ((if neg then 2 ^ 31 else 0) + mag)

/-- An infinity (R221). -/
def infinity (neg : Bool) : Word := withSign neg 0x7F800000

/-- The NaN pattern `NAN_RESULT(op, operand bits)` (R212): exponent all ones, the free sign and the
free non-zero fraction. -/
def nanResult (op : FloatOp) (a b : Word) : Word :=
  withSign (Config.nanResult op a b).1 (0x7F800000 + ((Config.nanResult op a b).2.val + 1))

/-- The integer a sign and a magnitude make. -/
def signed (neg : Bool) (mag : Nat) : Int := if neg then -(mag : Int) else mag

/-- The sum of two data (R211, R221): an exact zero is −0 only when both operands are −0. -/
def addData (x y : Datum) : Option Word :=
  match x, y with
  | .fin na ma, .fin nb mb =>
    let z := signed na ma + signed nb mb
    some (withSign (if z = 0 then na && nb else decide (z < 0)) (roundMag z.natAbs 1))
  | .inf na, .fin _ _ => some (infinity na)
  | .fin _ _, .inf nb => some (infinity nb)
  | .inf na, .inf nb => if na = nb then some (infinity na) else none
  | .nan, _ => none
  | _, .nan => none

/-- The datum with its sign inverted; the difference of two numbers is the sum with the negated
second. -/
def negate (x : Datum) : Datum :=
  match x with
  | .nan => .nan
  | .inf n => .inf (!n)
  | .fin n m => .fin (!n) m

/-- The product of two data (R211, R221). -/
def mulData (x y : Datum) : Option Word :=
  match x, y with
  | .fin na ma, .fin nb mb => some (withSign (na ^^ nb) (roundMag (ma * mb) (2 ^ 149)))
  | .inf na, .fin nb mb => if mb = 0 then none else some (infinity (na ^^ nb))
  | .fin na ma, .inf nb => if ma = 0 then none else some (infinity (na ^^ nb))
  | .inf na, .inf nb => some (infinity (na ^^ nb))
  | .nan, _ => none
  | _, .nan => none

/-- The quotient of two data (R211, R218, R221). -/
def divData (x y : Datum) : Option Word :=
  match x, y with
  | .fin na ma, .fin nb mb =>
    if mb = 0 then (if ma = 0 then none else some (infinity (na ^^ nb)))
    else some (withSign (na ^^ nb) (roundMag (ma * 2 ^ 149) mb))
  | .inf na, .fin nb _ => some (infinity (na ^^ nb))
  | .fin na _, .inf nb => some (withSign (na ^^ nb) 0)
  | .inf _, .inf _ => none
  | .nan, _ => none
  | _, .nan => none

/-- `1.0` (R213). -/
def oneBits : Word := 0x3F800000

/-- `FADD` (R215). -/
def fadd (op : FloatOp) (a b : Word) : Word := (addData (f32 a) (f32 b)).getD (nanResult op a b)

/-- `FSUB` (R216). -/
def fsub (op : FloatOp) (a b : Word) : Word :=
  (addData (f32 a) (negate (f32 b))).getD (nanResult op a b)

/-- `FMUL` (R217). -/
def fmul (a b : Word) : Word := (mulData (f32 a) (f32 b)).getD (nanResult .fmul a b)

/-- `FDIV` (R218). -/
def fdiv (a b : Word) : Word := (divData (f32 a) (f32 b)).getD (nanResult .fdiv a b)

/-- `I2F` (R219): the signed integer rounded to binary32. -/
def i2f (a : Word) : Word := withSign (decide (a.toInt < 0)) (roundMag (a.toInt.natAbs * 2 ^ 149) 1)

/-- `F2I` (R220): truncation toward zero, `F2I_INVALID` for a NaN or a value out of range. -/
def f2i (a : Word) : Word :=
  match f32 a with
  | .fin n m =>
    let t := signed n (m / 2 ^ 149)
    if t < -(2 ^ 31) ∨ 2 ^ 31 - 1 < t then Config.f2iInvalid a else BitVec.ofInt 32 t
  | .inf _ => Config.f2iInvalid a
  | .nan => Config.f2iInvalid a

end Sys2Proof.Machine
end

