-- ==== Sys2Proof/Machine/FloatAlu.lean ====
section
/-! DEFINITION. The floating-point instructions (45_float.md R213 to R220). -/

namespace Sys2Proof.Machine

/-- `FINC rd` (R213). -/
def execFinc (rd : RegByte) (s : State) : Result := inPlaceForm (fun a => fadd .finc a oneBits) rd s

/-- `FDEC rd` (R214). -/
def execFdec (rd : RegByte) (s : State) : Result := inPlaceForm (fun a => fsub .fdec a oneBits) rd s

/-- `FADD rd, ra, rb` (R215). -/
def execFadd (rd ra rb : RegByte) (s : State) : Result := threeForm (fadd .fadd) rd ra rb s

/-- `FSUB rd, rs` (R216). -/
def execFsub (rd rs : RegByte) (s : State) : Result :=
  accumulateForm (fun a b => .ok (fsub .fsub a b)) rd rs s

/-- `FMUL rd, ra, rb` (R217). -/
def execFmul (rd ra rb : RegByte) (s : State) : Result := threeForm fmul rd ra rb s

/-- `FDIV rd, rs` (R218). -/
def execFdiv (rd rs : RegByte) (s : State) : Result :=
  accumulateForm (fun a b => .ok (fdiv a b)) rd rs s

/-- `I2F rd, rs` (R219). -/
def execI2f (rd rs : RegByte) (s : State) : Result := moveForm i2f rd rs s

/-- `F2I rd, rs` (R220). -/
def execF2i (rd rs : RegByte) (s : State) : Result := moveForm f2i rd rs s

end Sys2Proof.Machine
end

