-- ==== Sys2Proof/Machine/HostIo.lean ====
section
/-! DEFINITION. Host I/O, string conversion and hardware control (47_host_io.md R270 to R305). -/

namespace Sys2Proof.Machine

/-! ### Output -/

/-- `PRINT rs, nl` (R272). -/
def execPrint (rs : RegByte) (nl : Byte) (s : State) : Result := outputForm .outU32 rs nl s

/-- `PRINTI rs, nl` (R273). -/
def execPrinti (rs : RegByte) (nl : Byte) (s : State) : Result := outputForm .outI32 rs nl s

/-- `PRINTF rs, nl` (R274). -/
def execPrintf (rs : RegByte) (nl : Byte) (s : State) : Result := outputForm .outF32 rs nl s

/-- `PRINTC rs, nl` (R275): the low 8 bits. -/
def execPrintc (rs : RegByte) (nl : Byte) (s : State) : Result :=
  outputForm (fun v => .outChar (v.setWidth 8)) rs nl s

/-- `PRINTS addr, nl` (R276): the whole string is read before anything is sent. -/
def execPrints (addr : Half) (nl : Byte) (s : State) : Result :=
  attempt .FHB s fun w => do
    let str ← w.readString (zext16 addr)
    let (_, t) ← requestAt .FHB s (.outStr str (newline nl))
    return t

/-! ### Input -/

/-- `READ rd` (R277). -/
def execRead (rd : RegByte) (s : State) : Result := inputForm .inU32 (·.value) rd s

/-- `READI rd` (R278). -/
def execReadi (rd : RegByte) (s : State) : Result := inputForm .inI32 (·.value) rd s

/-- `READF rd` (R279). -/
def execReadf (rd : RegByte) (s : State) : Result := inputForm .inF32 (·.value) rd s

/-- `READC rd` (R280): one character, zero-extended. -/
def execReadc (rd : RegByte) (s : State) : Result :=
  inputForm .inChar (fun c => zext8 (c.value.setWidth 8)) rd s

/-- `READS addr, len` (R281): the whole buffer is checked first; a length of 0 requests nothing. -/
def execReads (addr len : Half) (s : State) : Result :=
  attempt .FHH s fun w =>
    if (zext16 addr).toNat + (zext16 len).toNat > w.memSize then .error .invalidAddress
    else if len = 0 then .ok w
    else do
      let (c, t) ← requestAt .FHH s (.inLine (len.toNat - 1))
      return { t with
        mem := t.mem.writeBytes addr.toNat (lineAnswer c (len.toNat - 1) ++ [0]) }

/-! ### Integer and string conversion -/

/-- `I2S addr, rs` (R282). -/
def execI2s (addr : Half) (rs : RegByte) (s : State) : Result :=
  attempt .FHR s fun w => do
    let r ← regOperand rs
    let str := w.formatInt (w.reg r)
    if addr.toNat + str.length + 1 > w.memSize then .error .invalidAddress
    else return { w with mem := w.mem.writeBytes addr.toNat (str ++ [0]) }

/-- `S2I addr, rd` (R283). -/
def execS2i (addr : Half) (rd : RegByte) (s : State) : Result :=
  attempt .FHR s fun w => do
    let d ← regOperand rd
    let v ← w.parseInt (zext16 addr)
    return w.setReg d v

/-! ### Hardware control (R300) -/

/-- `DREAD rd, rpin` (R301). -/
def execDread (rd rpin : RegByte) (s : State) : Result := pinReadForm .dRead rd rpin s

/-- `DWRITE rpin, rval` (R302). -/
def execDwrite (rpin rval : RegByte) (s : State) : Result := pinWriteForm .dWrite rpin rval s

/-- `AREAD rd, rpin` (R303). -/
def execAread (rd rpin : RegByte) (s : State) : Result := pinReadForm .aRead rd rpin s

/-- `AWRITE rpin, rval` (R304). -/
def execAwrite (rpin rval : RegByte) (s : State) : Result := pinWriteForm .aWrite rpin rval s

/-- `PINMODE rpin, rmode` (R305). -/
def execPinmode (rpin rmode : RegByte) (s : State) : Result := pinWriteForm .pinMode rpin rmode s

end Sys2Proof.Machine
end

