-- ==== Sys2Proof/Machine/IntegerAlu.lean ====
section
/-! DEFINITION. The integer ALU (44_integer_alu.md R170 to R190). -/

namespace Sys2Proof.Machine

/-! ### The operations on 32-bit values -/

/-- R178, R179, R187: a shift amount is the low 5 bits of its register. -/
def shiftAmount (b : Word) : Nat := (b.extractLsb' 0 5).toNat

/-- R176: unsigned quotient, `DivisionByZero` on a zero divisor. -/
def divU (a b : Word) : Except ExecResult Word :=
  if b = 0 then .error .divisionByZero else .ok (BitVec.ofNat 32 (a.toNat / b.toNat))

/-- R177: unsigned remainder, `DivisionByZero` on a zero divisor. -/
def modU (a b : Word) : Except ExecResult Word :=
  if b = 0 then .error .divisionByZero else .ok (BitVec.ofNat 32 (a.toNat % b.toNat))

/-- R185: signed quotient truncated toward zero, reduced modulo 2^32. -/
def divS (a b : Word) : Except ExecResult Word :=
  if b = 0 then .error .divisionByZero else .ok (BitVec.ofInt 32 (Int.tdiv a.toInt b.toInt))

/-- R186: signed remainder with the sign of the dividend. -/
def modS (a b : Word) : Except ExecResult Word :=
  if b = 0 then .error .divisionByZero
  else .ok (BitVec.ofInt 32 (a.toInt - b.toInt * Int.tdiv a.toInt b.toInt))

/-- R178. -/
def shiftLeft (a b : Word) : Word := a <<< shiftAmount b

/-- R179. -/
def shiftRight (a b : Word) : Word := a >>> shiftAmount b

/-- R187. -/
def shiftRightS (a b : Word) : Word := a.sshiftRight (shiftAmount b)

/-- R184: the signed product reduced modulo 2^32. -/
def mulS (a b : Word) : Word := BitVec.ofInt 32 (a.toInt * b.toInt)

/-! ### The instructions -/

/-- `INC rd` (R171). -/
def execInc (rd : RegByte) (s : State) : Result := inPlaceForm (· + 1) rd s

/-- `DEC rd` (R172). -/
def execDec (rd : RegByte) (s : State) : Result := inPlaceForm (· - 1) rd s

/-- `ADD rd, ra, rb` (R173). -/
def execAdd (rd ra rb : RegByte) (s : State) : Result := threeForm (· + ·) rd ra rb s

/-- `SUB rd, rs` (R174). -/
def execSub (rd rs : RegByte) (s : State) : Result := accumulateForm (fun a b => .ok (a - b)) rd rs s

/-- `MUL rd, ra, rb` (R175). -/
def execMul (rd ra rb : RegByte) (s : State) : Result := threeForm (· * ·) rd ra rb s

/-- `DIV rd, rs` (R176). -/
def execDiv (rd rs : RegByte) (s : State) : Result := accumulateForm divU rd rs s

/-- `MOD rd, rs` (R177). -/
def execMod (rd rs : RegByte) (s : State) : Result := accumulateForm modU rd rs s

/-- `SHL rd, rs` (R178). -/
def execShl (rd rs : RegByte) (s : State) : Result :=
  accumulateForm (fun a b => .ok (shiftLeft a b)) rd rs s

/-- `SHR rd, rs` (R179). -/
def execShr (rd rs : RegByte) (s : State) : Result :=
  accumulateForm (fun a b => .ok (shiftRight a b)) rd rs s

/-- `AND rd, ra, rb` (R180). -/
def execAnd (rd ra rb : RegByte) (s : State) : Result := threeForm (· &&& ·) rd ra rb s

/-- `OR rd, ra, rb` (R181). -/
def execOr (rd ra rb : RegByte) (s : State) : Result := threeForm (· ||| ·) rd ra rb s

/-- `XOR rd, ra, rb` (R182). -/
def execXor (rd ra rb : RegByte) (s : State) : Result := threeForm (· ^^^ ·) rd ra rb s

/-- `NOT rd` (R183). -/
def execNot (rd : RegByte) (s : State) : Result := inPlaceForm (~~~ ·) rd s

/-- `IMUL rd, ra, rb` (R184). -/
def execImul (rd ra rb : RegByte) (s : State) : Result := threeForm mulS rd ra rb s

/-- `IDIV rd, rs` (R185). -/
def execIdiv (rd rs : RegByte) (s : State) : Result := accumulateForm divS rd rs s

/-- `IMOD rd, rs` (R186). -/
def execImod (rd rs : RegByte) (s : State) : Result := accumulateForm modS rd rs s

/-- `ISHR rd, rs` (R187). -/
def execIshr (rd rs : RegByte) (s : State) : Result :=
  accumulateForm (fun a b => .ok (shiftRightS a b)) rd rs s

/-- `U2I rd` (R188): no bit changes. -/
def execU2i (rd : RegByte) (s : State) : Result := inPlaceForm id rd s

/-- `I2U rd` (R189): no bit changes. -/
def execI2u (rd : RegByte) (s : State) : Result := inPlaceForm id rd s

end Sys2Proof.Machine
end

