-- ==== Sys2Proof/Machine/Jumps.lean ====
section
/-! DEFINITION. Jumps and conditional branches (46_jumps.md R240 to R255). A target is not checked by
the jump: the next fetch is. -/

namespace Sys2Proof.Machine

/-- `JMP addr` (R241). -/
def execJmp (addr : Half) (s : State) : Result := attempt .FH s fun w => return w.jump (zext16 addr)

/-- `JR rs` (R242). -/
def execJr (rs : RegByte) (s : State) : Result :=
  attempt .FR s fun w => do
    let r ← regOperand rs
    return w.jump (w.reg r)

/-- `JZ addr, ra` (R243). -/
def execJz (addr : Half) (ra : RegByte) (s : State) : Result := jumpOneForm (· == 0) addr ra s

/-- `JNZ addr, ra` (R244). -/
def execJnz (addr : Half) (ra : RegByte) (s : State) : Result := jumpOneForm (· != 0) addr ra s

/-- `JE addr, ra, rb` (R245). -/
def execJe (addr : Half) (ra rb : RegByte) (s : State) : Result :=
  jumpTwoForm .eq addr ra rb s

/-- `JNE addr, ra, rb` (R246). -/
def execJne (addr : Half) (ra rb : RegByte) (s : State) : Result :=
  jumpTwoForm .ne addr ra rb s

/-- `JA addr, ra, rb` (R247). -/
def execJa (addr : Half) (ra rb : RegByte) (s : State) : Result :=
  jumpTwoForm .gtu addr ra rb s

/-- `JG addr, ra, rb` (R248). -/
def execJg (addr : Half) (ra rb : RegByte) (s : State) : Result :=
  jumpTwoForm .gts addr ra rb s

/-- `JAE addr, ra, rb` (R249). -/
def execJae (addr : Half) (ra rb : RegByte) (s : State) : Result :=
  jumpTwoForm .geu addr ra rb s

/-- `JGE addr, ra, rb` (R250). -/
def execJge (addr : Half) (ra rb : RegByte) (s : State) : Result :=
  jumpTwoForm .ges addr ra rb s

/-- `JB addr, ra, rb` (R251). -/
def execJb (addr : Half) (ra rb : RegByte) (s : State) : Result :=
  jumpTwoForm .ltu addr ra rb s

/-- `JL addr, ra, rb` (R252). -/
def execJl (addr : Half) (ra rb : RegByte) (s : State) : Result :=
  jumpTwoForm .lts addr ra rb s

/-- `JBE addr, ra, rb` (R253). -/
def execJbe (addr : Half) (ra rb : RegByte) (s : State) : Result :=
  jumpTwoForm .leu addr ra rb s

/-- `JLE addr, ra, rb` (R254). -/
def execJle (addr : Half) (ra rb : RegByte) (s : State) : Result :=
  jumpTwoForm .les addr ra rb s

end Sys2Proof.Machine
end

