-- ==== Sys2Proof/Machine/LoadStore.lean ====
section
/-! DEFINITION. Loads, stores and block copy (43_load_store.md R141 to R155). -/

namespace Sys2Proof.Machine

/-- `STOR rs, addr` (R141). -/
def execStor (rs : RegByte) (addr : Half) (s : State) : Result := storeAbsForm 4 rs addr s

/-- `STORW rs, addr` (R142). -/
def execStorw (rs : RegByte) (addr : Half) (s : State) : Result := storeAbsForm 2 rs addr s

/-- `STORB rs, addr` (R143). -/
def execStorb (rs : RegByte) (addr : Half) (s : State) : Result := storeAbsForm 1 rs addr s

/-- `STOR_P rs, rp` (R144). -/
def execStorP (rs rp : RegByte) (s : State) : Result := storeIndForm 4 rs rp s

/-- `STORW_P rs, rp` (R145). -/
def execStorwP (rs rp : RegByte) (s : State) : Result := storeIndForm 2 rs rp s

/-- `STORB_P rs, rp` (R146). -/
def execStorbP (rs rp : RegByte) (s : State) : Result := storeIndForm 1 rs rp s

/-- `LOAD rd, addr` (R147). -/
def execLoad (rd : RegByte) (addr : Half) (s : State) : Result := loadAbsForm 4 rd addr s

/-- `LOADW rd, addr` (R148), zero-extended. -/
def execLoadw (rd : RegByte) (addr : Half) (s : State) : Result := loadAbsForm 2 rd addr s

/-- `LOADB rd, addr` (R149), zero-extended. -/
def execLoadb (rd : RegByte) (addr : Half) (s : State) : Result := loadAbsForm 1 rd addr s

/-- `LOAD_P rd, rp` (R150). -/
def execLoadP (rd rp : RegByte) (s : State) : Result := loadIndForm 4 rd rp s

/-- `LOADW_P rd, rp` (R151), zero-extended. -/
def execLoadwP (rd rp : RegByte) (s : State) : Result := loadIndForm 2 rd rp s

/-- `LOADB_P rd, rp` (R152), zero-extended. -/
def execLoadbP (rd rp : RegByte) (s : State) : Result := loadIndForm 1 rd rp s

/-- `MEMCPY dst, src, len` (R153). -/
def execMemcpy (dst src len : Half) (s : State) : Result :=
  attempt .FHHH s fun w => w.blockCopy (zext16 dst) (zext16 src) (zext16 len)

/-- `MEMCPY_P rdst, rsrc, rlen` (R154). -/
def execMemcpyP (rdst rsrc rlen : RegByte) (s : State) : Result :=
  attempt .FRRR s fun w => do
    let d ← regOperand rdst
    let r ← regOperand rsrc
    let n ← regOperand rlen
    w.blockCopy (w.reg d) (w.reg r) (w.reg n)

end Sys2Proof.Machine
end

