-- ==== Sys2Proof/Machine/StackCall.lean ====
section
/-! DEFINITION. The stack instructions and call and return (42_stack_call.md R123 to R128). -/

namespace Sys2Proof.Machine

/-- `PUSH rs` (R123). -/
def execPush (rs : RegByte) (s : State) : Result :=
  attempt .FR s fun w => do
    let r ← regOperand rs
    w.pushWord (w.reg r)

/-- `POP rd` (R124): `SP` is written before `rd`. -/
def execPop (rd : RegByte) (s : State) : Result :=
  attempt .FR s fun w => do
    let d ← regOperand rd
    let (v, t) ← w.popWord
    return t.setReg d v

/-- `POP2 rd1, rd2` (R125): the first register takes the top word, the second the one beneath. -/
def execPop2 (rd1 rd2 : RegByte) (s : State) : Result :=
  attempt .FRR s fun w => do
    let d1 ← regOperand rd1
    let d2 ← regOperand rd2
    let (v1, v2, t) ← w.popTwo
    return (t.setReg d1 v1).setReg d2 v2

/-- `DUP` (R126): the top read as a pop would, then pushed. -/
def execDup (s : State) : Result :=
  attempt .F0 s fun w => do
    let v ← w.topWord
    w.pushWord v

/-- `CALL addr` (R127): `RA` takes the address of the next instruction, `a + 3`. -/
def execCall (addr : Half) (s : State) : Result :=
  attempt .FH s fun w => return (w.setReg .ra (s.reg .ip + 3)).jump (zext16 addr)

/-- `RET` (R128). -/
def execRet (s : State) : Result := attempt .F0 s fun w => return w.jump (w.reg .ra)

end Sys2Proof.Machine
end

