-- ==== Sys2Proof/Machine/System.lean ====
section
/-! DEFINITION. The system instructions `NOP`, `HALT`, `INT` (40_system.md R100 to R102). -/

namespace Sys2Proof.Machine

/-- `NOP` (R100). -/
def execNop (s : State) : Result := attempt .F0 s fun w => return w

/-- `HALT` (R101): `stop Finished`, nothing else changes. -/
def execHalt (s : State) : Result := stopFinished s

/-- `INT code8` (R102): `UnhandledInterrupt` when the hook slot is empty; else one call of the hook,
after which the run goes on or stops with `Finished`, what the host changed staying changed. -/
def execInt (code : Byte) (s : State) : Result :=
  match s.hook with
  | none => raise .unhandledInterrupt s
  | some h =>
    let (c, t) := s.transact (.interrupt h code)
    if c.continues then attempt .FB t fun w => return w else stopFinished t

end Sys2Proof.Machine
end

