-- ==== Sys2Proof/Machine/Dispatch.lean ====
section
/-! DEFINITION. What each instruction does: one arm per instruction of 30_encoding.md R80. -/

namespace Sys2Proof.Machine

def exec (i : Instr) (s : State) : Host.Outcome State Fault Refusal :=
  match i with
  | .nop => Sys2Proof.Machine.execNop s
  | .halt => Sys2Proof.Machine.execHalt s
  | .int code => Sys2Proof.Machine.execInt code s
  | .lcons rd imm => Sys2Proof.Machine.execLcons rd imm s
  | .lconsw rd imm => Sys2Proof.Machine.execLconsw rd imm s
  | .lconsb rd imm => Sys2Proof.Machine.execLconsb rd imm s
  | .mov rd rs => Sys2Proof.Machine.execMov rd rs s
  | .push rs => Sys2Proof.Machine.execPush rs s
  | .pop rd => Sys2Proof.Machine.execPop rd s
  | .pop2 rd1 rd2 => Sys2Proof.Machine.execPop2 rd1 rd2 s
  | .dup => Sys2Proof.Machine.execDup s
  | .call addr => Sys2Proof.Machine.execCall addr s
  | .ret => Sys2Proof.Machine.execRet s
  | .stor rs addr => Sys2Proof.Machine.execStor rs addr s
  | .storw rs addr => Sys2Proof.Machine.execStorw rs addr s
  | .storb rs addr => Sys2Proof.Machine.execStorb rs addr s
  | .storP rs rp => Sys2Proof.Machine.execStorP rs rp s
  | .storwP rs rp => Sys2Proof.Machine.execStorwP rs rp s
  | .storbP rs rp => Sys2Proof.Machine.execStorbP rs rp s
  | .load rd addr => Sys2Proof.Machine.execLoad rd addr s
  | .loadw rd addr => Sys2Proof.Machine.execLoadw rd addr s
  | .loadb rd addr => Sys2Proof.Machine.execLoadb rd addr s
  | .loadP rd rp => Sys2Proof.Machine.execLoadP rd rp s
  | .loadwP rd rp => Sys2Proof.Machine.execLoadwP rd rp s
  | .loadbP rd rp => Sys2Proof.Machine.execLoadbP rd rp s
  | .memcpy dst src len => Sys2Proof.Machine.execMemcpy dst src len s
  | .memcpyP rdst rsrc rlen => Sys2Proof.Machine.execMemcpyP rdst rsrc rlen s
  | .inc rd => Sys2Proof.Machine.execInc rd s
  | .dec rd => Sys2Proof.Machine.execDec rd s
  | .finc rd => Sys2Proof.Machine.execFinc rd s
  | .fdec rd => Sys2Proof.Machine.execFdec rd s
  | .add rd ra rb => Sys2Proof.Machine.execAdd rd ra rb s
  | .sub rd rs => Sys2Proof.Machine.execSub rd rs s
  | .mul rd ra rb => Sys2Proof.Machine.execMul rd ra rb s
  | .div rd rs => Sys2Proof.Machine.execDiv rd rs s
  | .mod rd rs => Sys2Proof.Machine.execMod rd rs s
  | .shl rd rs => Sys2Proof.Machine.execShl rd rs s
  | .shr rd rs => Sys2Proof.Machine.execShr rd rs s
  | .and rd ra rb => Sys2Proof.Machine.execAnd rd ra rb s
  | .or rd ra rb => Sys2Proof.Machine.execOr rd ra rb s
  | .xor rd ra rb => Sys2Proof.Machine.execXor rd ra rb s
  | .not rd => Sys2Proof.Machine.execNot rd s
  | .imul rd ra rb => Sys2Proof.Machine.execImul rd ra rb s
  | .idiv rd rs => Sys2Proof.Machine.execIdiv rd rs s
  | .imod rd rs => Sys2Proof.Machine.execImod rd rs s
  | .ishr rd rs => Sys2Proof.Machine.execIshr rd rs s
  | .fadd rd ra rb => Sys2Proof.Machine.execFadd rd ra rb s
  | .fsub rd rs => Sys2Proof.Machine.execFsub rd rs s
  | .fmul rd ra rb => Sys2Proof.Machine.execFmul rd ra rb s
  | .fdiv rd rs => Sys2Proof.Machine.execFdiv rd rs s
  | .u2i rd => Sys2Proof.Machine.execU2i rd s
  | .i2u rd => Sys2Proof.Machine.execI2u rd s
  | .i2f rd rs => Sys2Proof.Machine.execI2f rd rs s
  | .f2i rd rs => Sys2Proof.Machine.execF2i rd rs s
  | .jmp addr => Sys2Proof.Machine.execJmp addr s
  | .jr rs => Sys2Proof.Machine.execJr rs s
  | .jz addr ra => Sys2Proof.Machine.execJz addr ra s
  | .jnz addr ra => Sys2Proof.Machine.execJnz addr ra s
  | .je addr ra rb => Sys2Proof.Machine.execJe addr ra rb s
  | .jne addr ra rb => Sys2Proof.Machine.execJne addr ra rb s
  | .ja addr ra rb => Sys2Proof.Machine.execJa addr ra rb s
  | .jg addr ra rb => Sys2Proof.Machine.execJg addr ra rb s
  | .jae addr ra rb => Sys2Proof.Machine.execJae addr ra rb s
  | .jge addr ra rb => Sys2Proof.Machine.execJge addr ra rb s
  | .jb addr ra rb => Sys2Proof.Machine.execJb addr ra rb s
  | .jl addr ra rb => Sys2Proof.Machine.execJl addr ra rb s
  | .jbe addr ra rb => Sys2Proof.Machine.execJbe addr ra rb s
  | .jle addr ra rb => Sys2Proof.Machine.execJle addr ra rb s
  | .print rs nl => Sys2Proof.Machine.execPrint rs nl s
  | .printi rs nl => Sys2Proof.Machine.execPrinti rs nl s
  | .printf rs nl => Sys2Proof.Machine.execPrintf rs nl s
  | .printc rs nl => Sys2Proof.Machine.execPrintc rs nl s
  | .prints addr nl => Sys2Proof.Machine.execPrints addr nl s
  | .read rd => Sys2Proof.Machine.execRead rd s
  | .readi rd => Sys2Proof.Machine.execReadi rd s
  | .readf rd => Sys2Proof.Machine.execReadf rd s
  | .readc rd => Sys2Proof.Machine.execReadc rd s
  | .reads addr len => Sys2Proof.Machine.execReads addr len s
  | .i2s addr rs => Sys2Proof.Machine.execI2s addr rs s
  | .s2i addr rd => Sys2Proof.Machine.execS2i addr rd s
  | .dread rd rpin => Sys2Proof.Machine.execDread rd rpin s
  | .dwrite rpin rval => Sys2Proof.Machine.execDwrite rpin rval s
  | .aread rd rpin => Sys2Proof.Machine.execAread rd rpin s
  | .awrite rpin rval => Sys2Proof.Machine.execAwrite rpin rval s
  | .pinmode rpin rmode => Sys2Proof.Machine.execPinmode rpin rmode s

end Sys2Proof.Machine
end

