-- ==== Sys2Proof/Machine/Fetch.lean ====
section
/-! DEFINITION. The instruction stream (20_memory.md R46, 30_encoding.md R73 to R79): the bytes the
program region offers at `IP`, the fetch, and the placing of an instruction there from outside. -/

namespace Sys2Proof.Machine

/-- R46: the bytes of the program region from `IP` on, at most those of the longest instruction. -/
def State.programBytes (s : State) : List Byte :=
  s.mem.readBytes (s.reg .ip).toNat (min maxLength (s.progLen - (s.reg .ip).toNat))

/-- R73 to R79: the instruction at `IP`, or the fault of its fetch and decode. -/
def State.fetch (s : State) : Except ExecResult Instr := decode s.programBytes

/-- The instruction whose bits are `w` placed at `IP` from outside the machine, with what the fetch
needs: a program region that reaches past it, and a unit inside a run. -/
def State.placeInstr (s : State) (nbits w : Nat) : State :=
  { s with
    mem := s.mem.writeBytes (s.reg .ip).toNat (tableBytes nbits w)
    progLen := max s.progLen ((s.reg .ip).toNat + maxLength)
    phase := match s.phase with
      | .idle => .running 0 0
      | .running budget icount => .running budget icount }

/-- One turn of the dispatch loop inside a run (R321), given what an instruction does. -/
def State.dispatch (s : State) (exec : Instr → State → Result) : Result :=
  match s.fetch with
  | .ok i => exec i s
  | .error f => raise f s

/-- One turn of the idle unit (R326, R347): the host's next call, or nothing at all. -/
def State.serveHost (s : State) : Result :=
  match s.inbox with
  | [] => .next s
  | c :: rest => .next (State.hostCall { s with inbox := rest } c)

end Sys2Proof.Machine
end

