-- ==== Sys2Proof/Machine/Step.lean ====
section
/-! DEFINITION. One step of the machine (60_exceptions.md R321, R326): inside a run, one turn of the
dispatch loop; between runs, the host's next call. -/

namespace Sys2Proof.Machine

/-- One step. -/
def step (s : State) : Host.Outcome State Fault Refusal :=
  match s.phase with
  | .running _ _ => s.dispatch exec
  | .idle => s.serveHost

/-- The state with the instruction whose bits are `w`, as spec/opcode_table.json numbers them, where
`step` fetches its next instruction, the unit inside a run (log entry 2). -/
def State.withFetchWord (s : State) (nbits w : Nat) : State := s.placeInstr nbits w

end Sys2Proof.Machine
end

