-- ==== Sys2Proof/Safety.lean ====
section
/-! DEFINITION. The terms claims are stated in: the invariants of every reachable state, how an
instruction can end, what it wrote and what it left, and what a correctly rounded binary32 result
is. -/

namespace Sys2Proof.Machine

/-! ### Invariants -/

/-- Memory is in canonical form and lists no address outside `[0, MEM_SIZE)` (R40), `MEM_SIZE` fits
32 bits (R5), and inside a run with a budget the count is still below it (R321, R323). -/
abbrev State.Inv (s : State) : Prop :=
  s.mem.wf = true ∧ (∀ c ∈ s.mem, c.1 < s.memSize) ∧ s.memSize < 2 ^ 32 ∧
    match s.phase with
    | .idle => True
    | .running budget icount => budget = 0 ∨ icount.toNat < budget.toNat

/-- What the trace of the ports may hold (R270, R330): a request only of a kind the host supports,
a string output only without a zero byte, and a hook call only when a hook is registered. -/
abbrev State.PortInv (s : State) : Prop :=
  ∀ x ∈ s.trace,
    match x with
    | .request q => q.kind ∈ s.hostKinds ∧
        (match q with
         | .outStr str _ => (0 : Byte) ∉ str
         | _ => True)
    | .interrupt _ _ => s.hook ≠ none

/-! ### How an instruction ends -/

/-- `exec` answers a next state of which `P` holds. -/
def Completes (i : Instr) (s : State) (P : State → Prop) : Prop := ∃ t, exec i s = .next t ∧ P t

/-- One more instruction has completed (R15, R321 to R323): inside a run the count is one higher, and
the run ends with `Paused` when that uses up a non-zero budget. -/
def Counted (s t : State) : Prop :=
  match s.phase with
  | .idle => t.phase = .idle ∧ t.replies = s.replies
  | .running budget icount =>
    if budget ≠ 0 ∧ budget.toNat ≤ (icount + 1).toNat then
      t.phase = .idle ∧ t.replies = .result .paused :: s.replies
    else t.phase = .running budget (icount + 1) ∧ t.replies = s.replies

/-- The instance's parameters, the hook slot and the host's pending calls are as before. -/
def SameInstance (s t : State) : Prop :=
  t.hook = s.hook ∧ t.progLen = s.progLen ∧ t.stackCap = s.stackCap ∧ t.hostKinds = s.hostKinds ∧
    t.i2sFormat = s.i2sFormat ∧ t.s2iParse = s.s2iParse ∧ t.inbox = s.inbox

/-- No transaction was started and none of the host's callbacks was used. -/
def NoTransaction (s t : State) : Prop := t.trace = s.trace ∧ t.script = s.script

/-- Every byte of memory reads as before. -/
def SameMemory (s t : State) : Prop := ∀ a, t.mem.read a = s.mem.read a

/-- Every register reads as before. -/
def SameRegs (s t : State) : Prop := ∀ r, t.reg r = s.reg r

/-- The run has ended with a result and nothing else has changed (R313, R316, R317). -/
def EndsUnchanged (s : State) (r : ExecResult) (t : State) : Prop :=
  SameRegs s t ∧ SameMemory s t ∧ SameInstance s t ∧ NoTransaction s t ∧ t.phase = .idle ∧
    t.replies = .result r :: s.replies

/-- `exec` takes the fault `f`: the run ends with it, precisely (R313). -/
def Faults (i : Instr) (s : State) (f : ExecResult) : Prop := Completes i s (EndsUnchanged s f)

/-- What a register operand of an instruction of length `L` reads (R14): `IP` as `a + L − 1`, every
other register as it is. -/
def operand (s : State) (L : Nat) (r : Reg) : Word :=
  if r = .ip then s.reg .ip + BitVec.ofNat 32 (L - 1) else s.reg r

/-- The registers after an instruction of length `L` that wrote `v` to `rd` (R15): `rd` holds `v`,
execution continues at `a + L`, or at `v + 1` when `rd` is `IP`, and no other register changed. -/
def RegsAfterWrite (s : State) (L : Nat) (rd : Reg) (v : Word) (t : State) : Prop :=
  ∀ r, t.reg r =
    if r = .ip then (if rd = .ip then v + 1 else s.reg .ip + BitVec.ofNat 32 L)
    else if r = rd then v else s.reg r

/-- The registers after an instruction that continues at `target` and changed no other register. -/
def RegsAfterJump (s : State) (target : Word) (t : State) : Prop :=
  ∀ r, t.reg r = if r = .ip then target else s.reg r

/-- The registers after an instruction of length `L` that wrote no register. -/
def RegsAfter (s : State) (L : Nat) (t : State) : Prop :=
  RegsAfterJump s (s.reg .ip + BitVec.ofNat 32 L) t

/-- An instruction of length `L` completed, wrote `v` to `rd`, and changed nothing else. -/
def Writes (s : State) (L : Nat) (rd : Reg) (v : Word) (t : State) : Prop :=
  RegsAfterWrite s L rd v t ∧ SameMemory s t ∧ SameInstance s t ∧ NoTransaction s t ∧ Counted s t

/-- An instruction completed, continues at `target`, and changed nothing else. -/
def JumpsTo (s : State) (target : Word) (t : State) : Prop :=
  RegsAfterJump s target t ∧ SameMemory s t ∧ SameInstance s t ∧ NoTransaction s t ∧ Counted s t

/-- The bytes `v` spells, `n` of them from the least significant (R42, R45), are in memory from `a`
on, and every byte outside that range reads as before. -/
def MemoryAfterStore (s : State) (a n : Nat) (v : Word) (t : State) : Prop :=
  (∀ k, k < n → t.mem.read (a + k) = v.extractLsb' (8 * k) 8) ∧
    ∀ x, x < a ∨ a + n ≤ x → t.mem.read x = s.mem.read x

/-- An instruction of length `L` completed, stored the low `n` bytes of `v` at `a`, and changed
nothing else. -/
def Stores (s : State) (L a n : Nat) (v : Word) (t : State) : Prop :=
  RegsAfter s L t ∧ MemoryAfterStore s a n v t ∧ SameInstance s t ∧ NoTransaction s t ∧ Counted s t

/-- The value of the `n` bytes from `a` on, the lowest address least significant (R42, R44). -/
def littleEndian (m : Memory) (a : Nat) : Nat → Nat
  | 0 => 0
  | n + 1 => (m.read a).toNat + 256 * littleEndian m (a + 1) n

/-! ### Families -/

/-- The opcode byte of an instruction (R70, R80). -/
def opcodeOf (i : Instr) : Nat := ((encode i).headD 0).toNat

/-- The instructions that may call the host: `INT`, the print and read instructions and the
hardware-control instructions (R270, R331). -/
abbrev Transacts (i : Instr) : Prop :=
  opcodeOf i = 0x02 ∨ (0x44 ≤ opcodeOf i ∧ opcodeOf i ≤ 0x4D) ∨ 0x50 ≤ opcodeOf i

/-! ### Runs -/

/-- The state after `n` steps, each of which answers a next state. -/
def steps : Nat → State → State
  | 0, s => s
  | n + 1, s =>
    match step s with
    | .next t => steps n t
    | .fault _ => s
    | .refused _ => s

/-- Two states that differ at most in the run they are in and in the replies given (R325). -/
def SameButRun (s t : State) : Prop :=
  t.regs = s.regs ∧ t.mem = s.mem ∧ SameInstance s t ∧ NoTransaction s t

/-! ### Callbacks -/

/-- The host in one callback (R270, R331): the transaction is traced and the host's turn used; `IP`,
the run, the replies and the instance are untouched; no byte outside the memory changes; and a host
that uses no accessor leaves every register and every byte. -/
def CallbackLeft (s : State) (x : Transaction) (h : State) : Prop :=
  h.trace = x :: s.trace ∧ h.script = s.script.tail ∧ h.reg .ip = s.reg .ip ∧
    h.phase = s.phase ∧ h.replies = s.replies ∧ SameInstance s h ∧
    (∀ a, s.memSize ≤ a → h.mem.read a = s.mem.read a) ∧
    ((s.callback x).acts = [] → SameRegs s h ∧ SameMemory s h)

/-- The state after one callback. -/
def afterCallback (s : State) (x : Transaction) : State := (s.transact x).2

/-! ### Text -/

/-- The bytes are in memory from `a` on. -/
def BytesAt (m : Memory) (a : Nat) (bs : List Byte) : Prop :=
  ∀ k (h : k < bs.length), m.read (a + k) = bs[k]

/-- The number a string of decimal digits spells, the first digit most significant. -/
def decimalValue (bs : List Byte) : Nat := bs.foldl (fun n b => n * 10 + (b.toNat - 0x30)) 0

/-- An ASCII digit (R290). -/
def AsciiDigit (b : Byte) : Prop := 0x30 ≤ b.toNat ∧ b.toNat ≤ 0x39

/-- The shortest decimal representation of `n` (R290): ASCII digits only, no leading zero, `"0"` for
zero. -/
def IsDecimal (bs : List Byte) (n : Nat) : Prop :=
  bs ≠ [] ∧ (∀ b ∈ bs, AsciiDigit b) ∧ decimalValue bs = n ∧ (1 < bs.length → bs.head? ≠ some 0x30)

/-! ### Correct rounding -/

/-- The number a finite binary32 pattern stands for (R7). -/
def finiteValue (v : Word) : Option ℚ :=
  match f32 v with
  | .fin neg mag => some ((signed neg mag : ℚ) / 2 ^ 149)
  | .inf _ => none
  | .nan => none

/-- The pattern is a NaN (R212): exponent bits all ones, fraction non-zero. -/
def IsNaN (v : Word) : Prop := v.extractLsb' 23 8 = 255#8 ∧ v.extractLsb' 0 23 ≠ 0#23

/-- `v` is the binary32 result for the exact non-zero number `x` in round-to-nearest, ties-to-even
(R211): it has the sign of `x`; at or beyond halfway between the largest finite number and 2^128 it
is an infinity (R221); otherwise no finite number is nearer to `x`, and where another is as near the
last fraction bit is 0. -/
def RoundsTo (x : ℚ) (v : Word) : Prop :=
  v.msb = decide (x < 0) ∧
    if (2 ^ 25 - 1) * 2 ^ 103 ≤ |x| then v = if x < 0 then 0xFF800000#32 else 0x7F800000#32
    else ∃ y, finiteValue v = some y ∧
      ∀ w z, finiteValue w = some z →
        |y - x| ≤ |z - x| ∧ (|z - x| = |y - x| → z ≠ y → v.getLsbD 0 = false)

/-- The pattern of an infinity (R7). -/
def infinityBits (neg : Bool) : Word := if neg then 0xFF800000#32 else 0x7F800000#32

/-- The pattern of a zero (R7). -/
def zeroBits (neg : Bool) : Word := if neg then 0x80000000#32 else 0x00000000#32

/-- `v` is an IEEE-754 sum of `a` and `b` (R211, R212, R221). -/
def IsSum (a b v : Word) : Prop :=
  (∀ x y, finiteValue a = some x → finiteValue b = some y →
    (x + y ≠ 0 → RoundsTo (x + y) v) ∧ (x + y = 0 → v = zeroBits (a.msb && b.msb))) ∧
  (∀ n y, a = infinityBits n → finiteValue b = some y → v = infinityBits n) ∧
  (∀ n x, finiteValue a = some x → b = infinityBits n → v = infinityBits n) ∧
  (∀ n, a = infinityBits n → b = infinityBits n → v = infinityBits n) ∧
  (∀ n, a = infinityBits n → b = infinityBits (!n) → IsNaN v) ∧
  (IsNaN a ∨ IsNaN b → IsNaN v)

/-- `v` is an IEEE-754 product of `a` and `b` (R211, R212, R221). -/
def IsProduct (a b v : Word) : Prop :=
  (∀ x y, finiteValue a = some x → finiteValue b = some y →
    (x * y ≠ 0 → RoundsTo (x * y) v) ∧ (x * y = 0 → v = zeroBits (a.msb ^^ b.msb))) ∧
  (∀ n y, a = infinityBits n → finiteValue b = some y →
    (y ≠ 0 → v = infinityBits (n ^^ b.msb)) ∧ (y = 0 → IsNaN v)) ∧
  (∀ n x, finiteValue a = some x → b = infinityBits n →
    (x ≠ 0 → v = infinityBits (a.msb ^^ n)) ∧ (x = 0 → IsNaN v)) ∧
  (∀ n k, a = infinityBits n → b = infinityBits k → v = infinityBits (n ^^ k)) ∧
  (IsNaN a ∨ IsNaN b → IsNaN v)

/-- `v` is an IEEE-754 quotient of `a` by `b` (R211, R212, R218, R221). -/
def IsQuotient (a b v : Word) : Prop :=
  (∀ x y, finiteValue a = some x → finiteValue b = some y →
    (x ≠ 0 → y ≠ 0 → RoundsTo (x / y) v) ∧
    (x = 0 → y ≠ 0 → v = zeroBits (a.msb ^^ b.msb)) ∧
    (x ≠ 0 → y = 0 → v = infinityBits (a.msb ^^ b.msb)) ∧
    (x = 0 → y = 0 → IsNaN v)) ∧
  (∀ n y, a = infinityBits n → finiteValue b = some y → v = infinityBits (n ^^ b.msb)) ∧
  (∀ n x, finiteValue a = some x → b = infinityBits n → v = zeroBits (a.msb ^^ n)) ∧
  (∀ n k, a = infinityBits n → b = infinityBits k → IsNaN v) ∧
  (IsNaN a ∨ IsNaN b → IsNaN v)

end Sys2Proof.Machine
end

