-- ==== Sys2Proof/Certificates/Slice0/Obligations.lean ====
section
/-! DEFINITION. The statements for the provers. A register operand is written `regByte r`, the byte of
a register of the file (R11); a byte that names no register is the subject of
`IllFormedInstructionsRaiseInvalidRegister`. -/

open Sys2Proof Sys2Proof.Machine

/-! ### Encoding and decoding -/

/-- R72, R80: what is encoded from a well-formed instruction decodes to it, whatever follows it. -/
def Obligations.DecodeOfEncodeIsTheInstruction : Prop :=
  ∀ (i : Instr) (rest : List Byte), i.wellFormed = true → decode (encode i ++ rest) = .ok i

/-- R70, R72: an instruction is read from nothing but its own encoding, and is well formed. -/
def Obligations.DecodedBytesAreTheEncoding : Prop :=
  ∀ (bs : List Byte) (i : Instr), decode bs = .ok i →
    i.wellFormed = true ∧ bs.take (encode i).length = encode i

/-- R73, R74, R78, R79: the faults of decoding, in their order: no opcode byte, an unknown opcode,
missing operand bytes (whatever the registers), an invalid register byte. -/
def Obligations.DecodeFaultsInOrder : Prop :=
  decode [] = .error .programOverrun ∧
  (∀ (op : Byte) (rest : List Byte), 0x54 < op.toNat →
    decode (op :: rest) = .error .unknownOpcode) ∧
  (∀ (i : Instr) (n : Nat), 0 < n → n < (encode i).length →
    decode ((encode i).take n) = .error .programOverrun) ∧
  (∀ (i : Instr) (rest : List Byte), i.wellFormed = false →
    decode (encode i ++ rest) = .error .invalidRegister)

/-- Words of the spec's encodings and examples decode to the instructions they stand for. -/
def Obligations.SampleWordsDecode : Prop :=
  decode [0x02, 0x03] = .ok (.int 3) ∧
  decode [0x03, 0x00, 0x78, 0x56, 0x34, 0x12] = .ok (.lcons 0 0x12345678) ∧
  decode [0x09, 0x02, 0x03] = .ok (.pop2 2 3) ∧
  decode [0x19, 0x30, 0x00, 0x20, 0x00, 0x04, 0x00] = .ok (.memcpy 0x30 0x20 4) ∧
  decode [0x1F, 0x00, 0x01, 0x02] = .ok (.add 0 1 2) ∧
  decode [0x31, 0x00, 0x01] = .ok (.fdiv 0 1) ∧
  decode [0x36, 0x04, 0x00, 0x01] = .ok (.jmp 4) ∧
  decode [0x39, 0x06, 0x00, 0x01] = .ok (.jnz 6 1) ∧
  decode [0x4D, 0x20, 0x00, 0x08, 0x00] = .ok (.reads 0x20 8)

/-! ### The step -/

/-- R73 to R78, R321: inside a run, when the bytes at `IP` lie in the program region and are the
encoding of a well-formed instruction, the step is exactly what that instruction does. -/
def Obligations.StepRunsTheDecodedInstruction : Prop :=
  ∀ (s : State) (i : Instr) (budget icount : Word),
    s.phase = .running budget icount → i.wellFormed = true →
    (s.reg .ip).toNat + (encode i).length ≤ s.progLen →
    BytesAt s.mem (s.reg .ip).toNat (encode i) → step s = exec i s

/-- R73, R74, R78, R313, R314: the faults of a fetch, each precise. -/
def Obligations.FetchFaultsEndTheRun : Prop :=
  ∀ (s : State) (budget icount : Word), s.phase = .running budget icount →
    (s.progLen ≤ (s.reg .ip).toNat →
      ∃ t, step s = .next t ∧ EndsUnchanged s .programOverrun t) ∧
    ((s.reg .ip).toNat < s.progLen → 0x54 < (s.mem.read (s.reg .ip).toNat).toNat →
      ∃ t, step s = .next t ∧ EndsUnchanged s .unknownOpcode t) ∧
    (∀ i : Instr, (s.reg .ip).toNat < s.progLen →
      (encode i).head? = some (s.mem.read (s.reg .ip).toNat) →
      s.progLen < (s.reg .ip).toNat + (encode i).length →
      ∃ t, step s = .next t ∧ EndsUnchanged s .programOverrun t) ∧
    (∀ i : Instr, (s.reg .ip).toNat + (encode i).length ≤ s.progLen →
      BytesAt s.mem (s.reg .ip).toNat (encode i) → i.wellFormed = false →
      ∃ t, step s = .next t ∧ EndsUnchanged s .invalidRegister t)

/-- R78, and the model's choice (log entry 14, DESIGN CHOICE): `exec` at an instruction with a register
byte that names no register, which `decode` never gives, raises `InvalidRegister` once more; no
well-formed instruction raises it (R78). What a run does is the last clause of
`FetchFaultsEndTheRun`. -/
def Obligations.IllFormedInstructionsRaiseInvalidRegister : Prop :=
  ∀ (i : Instr) (s : State),
    (i.wellFormed = false → Faults i s .invalidRegister) ∧
    (i.wellFormed = true → ∀ t, exec i s = .next t →
      t.replies ≠ .result .invalidRegister :: s.replies)

/-- R313, R317, R320, R326, read as the model reads them (log entry 7, DEDUCED): nothing the machine does
stops it for good, and every instruction in every state, and every step, answers a next state. It is
the model's choice that this holds of ill-formed instructions too (log entry 14, DESIGN CHOICE) and
that a host always answers (log entry 5, DESIGN CHOICE; U13 lets a model assume it). -/
def Obligations.EveryInstructionAndStepAnswersNext : Prop :=
  (∀ (i : Instr) (s : State), ∃ t, exec i s = .next t) ∧ ∀ s : State, ∃ t, step s = .next t

/-- R313: an instruction that ends the run with a fault changes nothing else: no register, `IP`
included, no byte of memory, and the run ends with the fault. That an unsupported request leaves the
trace and the script as they were is the model's choice (log entry 11, DESIGN CHOICE). -/
def Obligations.FaultsArePrecise : Prop :=
  ∀ (i : Instr) (s t : State) (r : ExecResult), exec i s = .next t →
    t.replies = .result r :: s.replies → r.isFault = true → EndsUnchanged s r t

/-- R321 to R323, R313, R316: inside a run an instruction either counts and the run goes on, its
budget not used up, or ends the run with one result; that is `Paused` exactly when the budget is used
up by it, and on any other result `IP` is still the instruction's address. -/
def Obligations.InstructionsCountOrEndTheRun : Prop :=
  ∀ (i : Instr) (s t : State) (budget icount : Word), s.phase = .running budget icount →
    exec i s = .next t →
    (t.phase = .running budget (icount + 1) ∧ t.replies = s.replies ∧
      (budget = 0 ∨ (icount + 1).toNat < budget.toNat)) ∨
    (t.phase = .idle ∧ ∃ r, t.replies = .result r :: s.replies ∧
      (r = .paused → budget ≠ 0 ∧ budget.toNat ≤ (icount + 1).toNat) ∧
      (r ≠ .paused → t.reg .ip = s.reg .ip))

/-- R5, R40, R321, R323 and the canonical form of memory: every step keeps the invariant, from every
state that has it. -/
def Obligations.StepKeepsTheInvariant : Prop :=
  ∀ s t : State, s.Inv → step s = .next t → t.Inv

/-- R270, R276, R330: every step keeps what the trace of the ports may hold. That it holds requests of
supported kinds only is the model's choice (log entry 11, DESIGN CHOICE): R270 lets an unsupported
request be issued and answered. -/
def Obligations.StepKeepsThePortInvariant : Prop :=
  ∀ s t : State, s.PortInv → step s = .next t → t.PortInv

/-- The state after construction has both invariants, and is what construction (R360) gives for an
empty image with the default conversions (R4). The empty image, the stack size and the host without
a capability are the model's choice (log entry 1, DESIGN CHOICE). -/
def Obligations.ResetMeetsTheInvariants : Prop :=
  State.reset.Inv ∧ State.reset.PortInv ∧
    State.construct [] Config.resetStackCap [] .default .default = some State.reset

/-- R4, R10, R360: the sizes, the host capability and the conversions are fixed for the life of the
instance; R18, R330: the hook slot changes only while the unit is idle, and never becomes empty
again. -/
def Obligations.StepsKeepTheInstance : Prop :=
  ∀ s t : State, step s = .next t →
    t.progLen = s.progLen ∧ t.stackCap = s.stackCap ∧ t.hostKinds = s.hostKinds ∧
    t.i2sFormat = s.i2sFormat ∧ t.s2iParse = s.s2iParse ∧
    (s.phase ≠ .idle → t.hook = s.hook) ∧ (s.hook ≠ none → t.hook ≠ none)

/-- R322: the budget and the count are invisible to the program: two states alike but for the run
they are in step to states alike but for it, and end with the same result, `Paused` apart. It is the
model's choice that what the host does in a callback depends on the ports, the registers and the
memory, and so not on the budget or the count (log entry 5, DESIGN CHOICE). -/
def Obligations.BudgetAndCountAreInvisible : Prop :=
  ∀ (s t s' : State) (budget icount budget' icount' : Word), SameButRun s t →
    s.phase = .running budget icount → t.phase = .running budget' icount' → step s = .next s' →
    ∃ t', step t = .next t' ∧ SameButRun s' t' ∧
      ∀ r, r ≠ .paused → s'.replies = .result r :: s.replies →
        t'.replies = .result r :: t.replies

/-- R325: a run of `n` instructions that pauses, resumed for `m` more, leaves the registers, the
memory and everything else, and the result, of one run of `n + m`. R325 says so for equal answers of
the host; that its answers depend on the ports, the registers and the memory only is the model's
choice (log entry 5, DESIGN CHOICE). -/
def Obligations.ResumedRunsEqualOneRun : Prop :=
  ∀ (s : State) (n m : Nat), 0 < n → 0 < m → n + m < 2 ^ 32 → s.inbox = [] →
    (steps n (s.startRun (BitVec.ofNat 32 n))).replies = .result .paused :: s.replies →
    let resumed :=
      steps m ((steps n (s.startRun (BitVec.ofNat 32 n))).startRun (BitVec.ofNat 32 m))
    let once := steps (n + m) (s.startRun (BitVec.ofNat 32 (n + m)))
    SameButRun resumed once ∧ resumed.phase = .idle ∧ once.phase = .idle ∧
      resumed.replies.head? = once.replies.head?

/-- R320, R377: after a fault, `run` faults again with the same result and nothing changed, whatever
its budget, unless the host first changes something. That repeating an unsupported request makes no
new transaction is the model's choice (log entry 11, DESIGN CHOICE). -/
def Obligations.FaultsRepeatUntilTheHostActs : Prop :=
  ∀ (s t : State) (budget icount budget' : Word) (r : ExecResult),
    s.phase = .running budget icount → step s = .next t → t.replies = .result r :: s.replies →
    r.isFault = true →
    ∃ u, step (t.startRun budget') = .next u ∧ EndsUnchanged t r u

/-- R11, R12, R15, R121, R127: outside the instructions that call the host, an instruction writes no
register but `IP`, one that it names, `SP` by a stack instruction and `RA` by `CALL`; so `BP` and the
general registers have no implicit use. -/
def Obligations.InstructionsWriteOnlyWhatTheyName : Prop :=
  ∀ (i : Instr) (s t : State) (r : Reg), exec i s = .next t → ¬ Transacts i →
    regByte r ∉ i.regBytes → r ≠ .ip →
    (r = .sp → ¬ (0x07 ≤ opcodeOf i ∧ opcodeOf i ≤ 0x0A)) → (r = .ra → opcodeOf i ≠ 0x0B) →
    t.reg r = s.reg r

/-- R47, R48: outside the instructions that call the host, only `PUSH`, `DUP`, the stores, the block
copies and `I2S` change a byte of memory. -/
def Obligations.OnlyStoringInstructionsChangeMemory : Prop :=
  ∀ (i : Instr) (s t : State), exec i s = .next t → ¬ Transacts i →
    opcodeOf i ∉ [0x07, 0x0A, 0x0D, 0x0E, 0x0F, 0x10, 0x11, 0x12, 0x19, 0x1A, 0x4E] →
    SameMemory s t

/-- R270, R331, R342, R347: an instruction makes at most one transaction with the host, and none but
`INT`, the print and read instructions and the hardware-control instructions makes one. -/
def Obligations.AtMostOneTransactionPerInstruction : Prop :=
  ∀ (i : Instr) (s t : State), exec i s = .next t →
    NoTransaction s t ∨
      (Transacts i ∧ ∃ x, t.trace = x :: s.trace ∧ t.script = s.script.tail)

/-! ### The ports -/

/-- R320, R321, R326, R330, R361: what the idle unit does: nothing without a call; a run starts at
the current `IP` with the count at 0; the last hook registered is the one in the slot; a warm reset
zeroes every register and sets `SP` to `MEM_SIZE`, memory and hook untouched. -/
def Obligations.IdleUnitServesTheHost : Prop :=
  ∀ (s : State) (rest : List HostCall), s.phase = .idle →
    (s.inbox = [] → step s = .next s) ∧
    (∀ budget, s.inbox = .run budget :: rest →
      step s = .next { s with phase := .running budget 0, inbox := rest }) ∧
    (∀ h, s.inbox = .onInterrupt h :: rest →
      step s = .next { s with hook := some h, inbox := rest, replies := .done :: s.replies }) ∧
    (s.inbox = .reset :: rest →
      ∃ t, step s = .next t ∧
        (∀ r, t.reg r = if r = .sp then BitVec.ofNat 32 s.memSize else 0) ∧
        t = { s with regs := t.regs, inbox := rest, replies := .done :: s.replies })

/-- R345: what each introspection accessor does on the idle unit and what the host receives; the
count outside its range is whatever the parameter gives (log entry 6), and changes nothing. -/
def Obligations.IntrospectionAccessors : Prop :=
  ∀ (s : State) (rest : List HostCall), s.phase = .idle →
    (∀ r : Reg, s.inbox = .access (.getRegister r.val) :: rest →
      step s = .next { s with inbox := rest, replies := .word (s.reg r) :: s.replies }) ∧
    (∀ (r : Reg) (v : Word), s.inbox = .access (.setRegister r.val v) :: rest →
      ∃ t, step s = .next t ∧ (∀ q, t.reg q = if q = r then v else s.reg q) ∧
        t = { s with regs := t.regs, inbox := rest, replies := .done :: s.replies }) ∧
    (∀ (i : Nat) (v : Word), 16 ≤ i →
      (s.inbox = .access (.getRegister i) :: rest ∨ s.inbox = .access (.setRegister i v) :: rest) →
      step s = .next { s with inbox := rest, replies := .refused :: s.replies }) ∧
    (∀ offset, s.inbox = .access (.readMemory offset) :: rest → offset < s.memSize →
      step s = .next { s with inbox := rest, replies := .byte (s.mem.read offset) :: s.replies }) ∧
    (∀ offset b, s.inbox = .access (.writeMemory offset b) :: rest → offset < s.memSize →
      ∃ t, step s = .next t ∧ (∀ x, t.mem.read x = if x = offset then b else s.mem.read x) ∧
        t = { s with mem := t.mem, inbox := rest, replies := .done :: s.replies }) ∧
    (∀ offset b, s.memSize ≤ offset →
      (s.inbox = .access (.readMemory offset) :: rest ∨
        s.inbox = .access (.writeMemory offset b) :: rest) →
      step s = .next { s with inbox := rest, replies := .refused :: s.replies }) ∧
    (∀ v, s.inbox = .access (.push v) :: rest →
      if (s.reg .sp).toNat ≤ s.progLen + 4 then
        step s = .next { s with inbox := rest, replies := .failed .stackOverflow :: s.replies }
      else if s.memSize < (s.reg .sp).toNat then
        step s = .next { s with inbox := rest, replies := .failed .invalidAddress :: s.replies }
      else ∃ t, step s = .next t ∧
        (∀ q, t.reg q = if q = .sp then s.reg .sp - 4 else s.reg q) ∧
        MemoryAfterStore s ((s.reg .sp).toNat - 4) 4 v t ∧
        t = { s with regs := t.regs, mem := t.mem, inbox := rest,
                     replies := .done :: s.replies }) ∧
    (s.inbox = .access .pop :: rest →
      if s.memSize ≤ (s.reg .sp).toNat ∨ (s.reg .sp).toNat < s.progLen then
        step s = .next { s with inbox := rest, replies := .failed .stackUnderflow :: s.replies }
      else if s.memSize < (s.reg .sp).toNat + 4 then
        step s = .next { s with inbox := rest, replies := .failed .invalidAddress :: s.replies }
      else ∃ t, step s = .next t ∧
        (∀ q, t.reg q = if q = .sp then s.reg .sp + 4 else s.reg q) ∧
        t = { s with
          regs := t.regs, inbox := rest,
          replies := .word (BitVec.ofNat 32 (littleEndian s.mem (s.reg .sp).toNat 4))
            :: s.replies }) ∧
    (s.inbox = .access .count :: rest →
      ∃ n, step s = .next { s with inbox := rest, replies := .count n :: s.replies } ∧
        (s.progLen ≤ (s.reg .sp).toNat → (s.reg .sp).toNat ≤ s.memSize →
          n = (s.memSize - (s.reg .sp).toNat) / 4))

/-- R54, R331, R332: what a callback can leave. The transaction is traced; `IP`, the run, the replies
and the instance are untouched; no byte outside the memory changes; and a host that uses no accessor
leaves every register and every byte. -/
def Obligations.CallbacksStayWithinTheAccessors : Prop :=
  ∀ (s : State) (x : Transaction), CallbackLeft s x (afterCallback s x)

/-- R4, R5, R22, R360: the state after construction, for every image and stack size whose sum fits 32
bits, every host capability and every pair of conversions. That construction gives no instance where
the sum does not fit is the model's choice (log entry 17, DESIGN CHOICE). -/
def Obligations.ConstructionState : Prop :=
  ∀ (program : List Byte) (stackCap : Nat) (kinds : List RequestKind) (format parse : Conversion),
    (2 ^ 32 ≤ program.length + stackCap →
      State.construct program stackCap kinds format parse = none) ∧
    (program.length + stackCap < 2 ^ 32 →
      ∃ s, State.construct program stackCap kinds format parse = some s ∧
        (∀ r, s.reg r =
          if r = .sp then BitVec.ofNat 32 (program.length + stackCap) else 0) ∧
        (∀ a, s.mem.read a = program.getD a 0) ∧
        s.hook = none ∧ s.phase = .idle ∧ s.progLen = program.length ∧ s.stackCap = stackCap ∧
        s.hostKinds = kinds ∧ s.i2sFormat = format ∧ s.s2iParse = parse ∧ s.Inv)

/-! ### System instructions -/

/-- R100, R101: `NOP` changes nothing and continues at `a + 1`; `HALT` ends the run with `Finished`,
nothing else changing. -/
def Obligations.NopAdvancesAndHaltFinishes : Prop :=
  ∀ s : State,
    encode .nop = [0x00] ∧ Completes .nop s (JumpsTo s (s.reg .ip + 1)) ∧
    encode .halt = [0x01] ∧ Completes .halt s (EndsUnchanged s .finished)

/-- R102, R316, R331: `INT` without a hook faults; with one it makes one call with its code, and
continues at `a + 2` or ends the run with `Finished` as the hook answers, from the state the hook
left. -/
def Obligations.IntCallsTheHook : Prop :=
  ∀ (s : State) (code : Byte),
    encode (.int code) = [0x02, code] ∧
    (s.hook = none → Faults (.int code) s .unhandledInterrupt) ∧
    (∀ h, s.hook = some h →
      CallbackLeft s (.interrupt h code) (afterCallback s (.interrupt h code)) ∧
      ((s.callback (.interrupt h code)).continues = true →
        Completes (.int code) s (JumpsTo (afterCallback s (.interrupt h code)) (s.reg .ip + 2))) ∧
      ((s.callback (.interrupt h code)).continues = false →
        Completes (.int code) s
          (EndsUnchanged (afterCallback s (.interrupt h code)) .finished)))

/-! ### Data movement -/

/-- R110 to R112: a literal is loaded zero-extended; `rd` = `IP` continues at the value plus one. -/
def Obligations.LiteralLoadsWriteTheZeroExtendedLiteral : Prop :=
  ∀ (s : State) (rd : Reg) (d : Word) (h : Half) (b : Byte),
    encode (.lcons (regByte rd) d) =
      [0x03, regByte rd, d.extractLsb' 0 8, d.extractLsb' 8 8, d.extractLsb' 16 8,
        d.extractLsb' 24 8] ∧
    Completes (.lcons (regByte rd) d) s (Writes s 6 rd d) ∧
    encode (.lconsw (regByte rd) h) =
      [0x04, regByte rd, h.extractLsb' 0 8, h.extractLsb' 8 8] ∧
    Completes (.lconsw (regByte rd) h) s (Writes s 4 rd (BitVec.ofNat 32 h.toNat)) ∧
    encode (.lconsb (regByte rd) b) = [0x05, regByte rd, b] ∧
    Completes (.lconsb (regByte rd) b) s (Writes s 3 rd (BitVec.ofNat 32 b.toNat))

/-- R113, R188, R189: `MOV` copies all 32 bits; `U2I` and `I2U` write a register back as it is. -/
def Obligations.MovesCopyAllBits : Prop :=
  ∀ (s : State) (rd rs : Reg),
    encode (.mov (regByte rd) (regByte rs)) = [0x06, regByte rd, regByte rs] ∧
    Completes (.mov (regByte rd) (regByte rs)) s (Writes s 3 rd (operand s 3 rs)) ∧
    encode (.u2i (regByte rd)) = [0x32, regByte rd] ∧
    Completes (.u2i (regByte rd)) s (JumpsTo s (s.reg .ip + 2)) ∧
    encode (.i2u (regByte rd)) = [0x33, regByte rd] ∧
    Completes (.i2u (regByte rd)) s (JumpsTo s (s.reg .ip + 2))

/-! ### Stack and call -/

/-- R121, R123: a push that its checks allow lowers `SP` by 4 and stores the register there, the value
it had before the push, and changes no other register and no other byte; the checks fault in their
order, with nothing changed. -/
def Obligations.PushStoresAndLowersSp : Prop :=
  ∀ (s : State) (rs : Reg),
    encode (.push (regByte rs)) = [0x07, regByte rs] ∧
    (s.progLen + 4 < (s.reg .sp).toNat → (s.reg .sp).toNat ≤ s.memSize →
      Completes (.push (regByte rs)) s fun t =>
        RegsAfterWrite s 2 .sp (s.reg .sp - 4) t ∧
        MemoryAfterStore s ((s.reg .sp).toNat - 4) 4 (operand s 2 rs) t ∧
        SameInstance s t ∧ NoTransaction s t ∧ Counted s t) ∧
    ((s.reg .sp).toNat ≤ s.progLen + 4 → Faults (.push (regByte rs)) s .stackOverflow) ∧
    (s.progLen + 4 < (s.reg .sp).toNat → s.memSize < (s.reg .sp).toNat →
      Faults (.push (regByte rs)) s .invalidAddress)

/-- R122, R124: a pop that its checks allow raises `SP` by 4 and then writes the word it found to
`rd`, so that `POP SP` leaves the popped word; memory is unchanged; the checks fault in their order,
with nothing changed. -/
def Obligations.PopLoadsAndRaisesSp : Prop :=
  ∀ (s : State) (rd : Reg) (v : Word),
    encode (.pop (regByte rd)) = [0x08, regByte rd] ∧
    (s.progLen ≤ (s.reg .sp).toNat → (s.reg .sp).toNat + 4 ≤ s.memSize →
      v = BitVec.ofNat 32 (littleEndian s.mem (s.reg .sp).toNat 4) →
      Completes (.pop (regByte rd)) s fun t =>
        (∀ r, t.reg r =
          if r = .ip then (if rd = .ip then v + 1 else s.reg .ip + 2)
          else if r = rd then v
          else if r = .sp then s.reg .sp + 4 else s.reg r) ∧
        SameMemory s t ∧ SameInstance s t ∧ NoTransaction s t ∧ Counted s t) ∧
    (s.memSize ≤ (s.reg .sp).toNat ∨ (s.reg .sp).toNat < s.progLen →
      Faults (.pop (regByte rd)) s .stackUnderflow) ∧
    (s.progLen ≤ (s.reg .sp).toNat → (s.reg .sp).toNat < s.memSize →
      s.memSize < (s.reg .sp).toNat + 4 → Faults (.pop (regByte rd)) s .invalidAddress)

/-- R125: `POP2` gives the top word to its first register and the one beneath to its second, the
second write winning, and raises `SP` by 8 before both; every check of both pops comes first, and
faults in its order with nothing changed. -/
def Obligations.Pop2LoadsTwoWords : Prop :=
  ∀ (s : State) (rd1 rd2 : Reg) (v1 v2 : Word),
    encode (.pop2 (regByte rd1) (regByte rd2)) = [0x09, regByte rd1, regByte rd2] ∧
    (s.memSize < 2 ^ 32 → s.progLen ≤ (s.reg .sp).toNat → (s.reg .sp).toNat + 8 ≤ s.memSize →
      v1 = BitVec.ofNat 32 (littleEndian s.mem (s.reg .sp).toNat 4) →
      v2 = BitVec.ofNat 32 (littleEndian s.mem ((s.reg .sp).toNat + 4) 4) →
      Completes (.pop2 (regByte rd1) (regByte rd2)) s fun t =>
        (∀ r, t.reg r =
          if r = .ip then
            (if rd2 = .ip then v2 + 1 else if rd1 = .ip then v1 + 1 else s.reg .ip + 3)
          else if r = rd2 then v2
          else if r = rd1 then v1
          else if r = .sp then s.reg .sp + 8 else s.reg r) ∧
        SameMemory s t ∧ SameInstance s t ∧ NoTransaction s t ∧ Counted s t) ∧
    (s.memSize ≤ (s.reg .sp).toNat + 4 ∨ (s.reg .sp).toNat < s.progLen →
      Faults (.pop2 (regByte rd1) (regByte rd2)) s .stackUnderflow) ∧
    (s.progLen ≤ (s.reg .sp).toNat → (s.reg .sp).toNat + 4 < s.memSize →
      s.memSize < (s.reg .sp).toNat + 8 →
      Faults (.pop2 (regByte rd1) (regByte rd2)) s .invalidAddress)

/-- R126: `DUP` pushes a copy of the word on top; no register but `SP` and `IP` changes; the checks of
its read, then those of its push, fault in their order with nothing changed. -/
def Obligations.DupPushesTheTop : Prop :=
  ∀ s : State,
    encode .dup = [0x0A] ∧
    (s.progLen + 4 < (s.reg .sp).toNat → (s.reg .sp).toNat + 4 ≤ s.memSize →
      Completes .dup s fun t =>
        RegsAfterWrite s 1 .sp (s.reg .sp - 4) t ∧
        MemoryAfterStore s ((s.reg .sp).toNat - 4) 4
          (BitVec.ofNat 32 (littleEndian s.mem (s.reg .sp).toNat 4)) t ∧
        SameInstance s t ∧ NoTransaction s t ∧ Counted s t) ∧
    (s.memSize ≤ (s.reg .sp).toNat ∨ (s.reg .sp).toNat < s.progLen →
      Faults .dup s .stackUnderflow) ∧
    (s.progLen ≤ (s.reg .sp).toNat → (s.reg .sp).toNat < s.memSize →
      s.memSize < (s.reg .sp).toNat + 4 → Faults .dup s .invalidAddress) ∧
    (s.progLen ≤ (s.reg .sp).toNat → (s.reg .sp).toNat + 4 ≤ s.memSize →
      (s.reg .sp).toNat ≤ s.progLen + 4 → Faults .dup s .stackOverflow)

/-- R120, R123, R124: what is pushed is popped, bit for bit, and `SP` is back where it was. -/
def Obligations.PushThenPopIsExact : Prop :=
  ∀ (s : State) (rs rd : Reg), s.memSize < 2 ^ 32 →
    s.progLen + 4 < (s.reg .sp).toNat → (s.reg .sp).toNat ≤ s.memSize →
    rd ≠ .ip → rd ≠ .sp →
    ∃ t u, exec (.push (regByte rs)) s = .next t ∧ exec (.pop (regByte rd)) t = .next u ∧
      u.reg rd = operand s 2 rs ∧ u.reg .sp = s.reg .sp ∧
      ∀ r, r ≠ .ip → r ≠ .sp → r ≠ rd → u.reg r = s.reg r

/-- R127, R128: `CALL` sets `RA` to the address after it and continues at its target; `RET` continues
at `RA` and leaves it. Neither touches the stack. -/
def Obligations.CallAndReturn : Prop :=
  ∀ (s : State) (addr : Half),
    encode (.call addr) = [0x0B, addr.extractLsb' 0 8, addr.extractLsb' 8 8] ∧
    (Completes (.call addr) s fun t =>
      (∀ r, t.reg r =
        if r = .ip then BitVec.ofNat 32 addr.toNat
        else if r = .ra then s.reg .ip + 3 else s.reg r) ∧
      SameMemory s t ∧ SameInstance s t ∧ NoTransaction s t ∧ Counted s t) ∧
    encode .ret = [0x0C] ∧ Completes .ret s (JumpsTo s (s.reg .ra))

/-! ### Loads, stores, block copy -/

/-- R141 to R143, R45: a store at an absolute address writes the low 4, 2 or 1 bytes of the register
there, and no other byte; a range that leaves the memory faults, with nothing written. -/
def Obligations.AbsoluteStoresWriteTheirBytes : Prop :=
  ∀ (s : State) (rs : Reg) (addr : Half),
    encode (.stor (regByte rs) addr) =
      [0x0D, regByte rs, addr.extractLsb' 0 8, addr.extractLsb' 8 8] ∧
    (addr.toNat + 4 ≤ s.memSize →
      Completes (.stor (regByte rs) addr) s (Stores s 4 addr.toNat 4 (operand s 4 rs))) ∧
    (s.memSize < addr.toNat + 4 → Faults (.stor (regByte rs) addr) s .invalidAddress) ∧
    encode (.storw (regByte rs) addr) =
      [0x0E, regByte rs, addr.extractLsb' 0 8, addr.extractLsb' 8 8] ∧
    (addr.toNat + 2 ≤ s.memSize →
      Completes (.storw (regByte rs) addr) s (Stores s 4 addr.toNat 2 (operand s 4 rs))) ∧
    (s.memSize < addr.toNat + 2 → Faults (.storw (regByte rs) addr) s .invalidAddress) ∧
    encode (.storb (regByte rs) addr) =
      [0x0F, regByte rs, addr.extractLsb' 0 8, addr.extractLsb' 8 8] ∧
    (addr.toNat + 1 ≤ s.memSize →
      Completes (.storb (regByte rs) addr) s (Stores s 4 addr.toNat 1 (operand s 4 rs))) ∧
    (s.memSize < addr.toNat + 1 → Faults (.storb (regByte rs) addr) s .invalidAddress)

/-- R144 to R146, R45: the same at the address a pointer register holds, all 32 bits of it; the range
is summed without wrap-around. -/
def Obligations.IndirectStoresWriteTheirBytes : Prop :=
  ∀ (s : State) (rs rp : Reg),
    encode (.storP (regByte rs) (regByte rp)) = [0x10, regByte rs, regByte rp] ∧
    ((operand s 3 rp).toNat + 4 ≤ s.memSize →
      Completes (.storP (regByte rs) (regByte rp)) s
        (Stores s 3 (operand s 3 rp).toNat 4 (operand s 3 rs))) ∧
    (s.memSize < (operand s 3 rp).toNat + 4 →
      Faults (.storP (regByte rs) (regByte rp)) s .invalidAddress) ∧
    encode (.storwP (regByte rs) (regByte rp)) = [0x11, regByte rs, regByte rp] ∧
    ((operand s 3 rp).toNat + 2 ≤ s.memSize →
      Completes (.storwP (regByte rs) (regByte rp)) s
        (Stores s 3 (operand s 3 rp).toNat 2 (operand s 3 rs))) ∧
    (s.memSize < (operand s 3 rp).toNat + 2 →
      Faults (.storwP (regByte rs) (regByte rp)) s .invalidAddress) ∧
    encode (.storbP (regByte rs) (regByte rp)) = [0x12, regByte rs, regByte rp] ∧
    ((operand s 3 rp).toNat + 1 ≤ s.memSize →
      Completes (.storbP (regByte rs) (regByte rp)) s
        (Stores s 3 (operand s 3 rp).toNat 1 (operand s 3 rs))) ∧
    (s.memSize < (operand s 3 rp).toNat + 1 →
      Faults (.storbP (regByte rs) (regByte rp)) s .invalidAddress)

/-- R147 to R149, R44: a load from an absolute address gives the little-endian value of its 4, 2 or 1
bytes, zero-extended; a range that leaves the memory faults, `rd` unchanged. -/
def Obligations.AbsoluteLoadsZeroExtend : Prop :=
  ∀ (s : State) (rd : Reg) (addr : Half),
    encode (.load (regByte rd) addr) =
      [0x13, regByte rd, addr.extractLsb' 0 8, addr.extractLsb' 8 8] ∧
    (addr.toNat + 4 ≤ s.memSize →
      Completes (.load (regByte rd) addr) s
        (Writes s 4 rd (BitVec.ofNat 32 (littleEndian s.mem addr.toNat 4)))) ∧
    (s.memSize < addr.toNat + 4 → Faults (.load (regByte rd) addr) s .invalidAddress) ∧
    encode (.loadw (regByte rd) addr) =
      [0x14, regByte rd, addr.extractLsb' 0 8, addr.extractLsb' 8 8] ∧
    (addr.toNat + 2 ≤ s.memSize →
      Completes (.loadw (regByte rd) addr) s
        (Writes s 4 rd (BitVec.ofNat 32 (littleEndian s.mem addr.toNat 2)))) ∧
    (s.memSize < addr.toNat + 2 → Faults (.loadw (regByte rd) addr) s .invalidAddress) ∧
    encode (.loadb (regByte rd) addr) =
      [0x15, regByte rd, addr.extractLsb' 0 8, addr.extractLsb' 8 8] ∧
    (addr.toNat + 1 ≤ s.memSize →
      Completes (.loadb (regByte rd) addr) s
        (Writes s 4 rd (BitVec.ofNat 32 (s.mem.read addr.toNat).toNat))) ∧
    (s.memSize < addr.toNat + 1 → Faults (.loadb (regByte rd) addr) s .invalidAddress)

/-- R150 to R152, R44: the same from the address a pointer register holds, read before `rd` is
written. -/
def Obligations.IndirectLoadsZeroExtend : Prop :=
  ∀ (s : State) (rd rp : Reg),
    encode (.loadP (regByte rd) (regByte rp)) = [0x16, regByte rd, regByte rp] ∧
    ((operand s 3 rp).toNat + 4 ≤ s.memSize →
      Completes (.loadP (regByte rd) (regByte rp)) s
        (Writes s 3 rd (BitVec.ofNat 32 (littleEndian s.mem (operand s 3 rp).toNat 4)))) ∧
    (s.memSize < (operand s 3 rp).toNat + 4 →
      Faults (.loadP (regByte rd) (regByte rp)) s .invalidAddress) ∧
    encode (.loadwP (regByte rd) (regByte rp)) = [0x17, regByte rd, regByte rp] ∧
    ((operand s 3 rp).toNat + 2 ≤ s.memSize →
      Completes (.loadwP (regByte rd) (regByte rp)) s
        (Writes s 3 rd (BitVec.ofNat 32 (littleEndian s.mem (operand s 3 rp).toNat 2)))) ∧
    (s.memSize < (operand s 3 rp).toNat + 2 →
      Faults (.loadwP (regByte rd) (regByte rp)) s .invalidAddress) ∧
    encode (.loadbP (regByte rd) (regByte rp)) = [0x18, regByte rd, regByte rp] ∧
    ((operand s 3 rp).toNat + 1 ≤ s.memSize →
      Completes (.loadbP (regByte rd) (regByte rp)) s
        (Writes s 3 rd (BitVec.ofNat 32 (s.mem.read (operand s 3 rp).toNat).toNat))) ∧
    (s.memSize < (operand s 3 rp).toNat + 1 →
      Faults (.loadbP (regByte rd) (regByte rp)) s .invalidAddress)

/-- R147: a store then a load of the same width at the same address gives back the register, cut to
the width and zero-extended. -/
def Obligations.StoreThenLoadRoundTrips : Prop :=
  ∀ (s : State) (rs rd : Reg) (addr : Half), rd ≠ .ip →
    (addr.toNat + 4 ≤ s.memSize →
      ∃ t u, exec (.stor (regByte rs) addr) s = .next t ∧
        exec (.load (regByte rd) addr) t = .next u ∧ u.reg rd = operand s 4 rs) ∧
    (addr.toNat + 2 ≤ s.memSize →
      ∃ t u, exec (.storw (regByte rs) addr) s = .next t ∧
        exec (.loadw (regByte rd) addr) t = .next u ∧
        u.reg rd = ((operand s 4 rs).extractLsb' 0 16).setWidth 32) ∧
    (addr.toNat + 1 ≤ s.memSize →
      ∃ t u, exec (.storb (regByte rs) addr) s = .next t ∧
        exec (.loadb (regByte rd) addr) t = .next u ∧
        u.reg rd = ((operand s 4 rs).extractLsb' 0 8).setWidth 32)

/-- R153 to R155: a block copy inside the memory. Byte `k` of the destination becomes what byte `k` of
the source was, or, when the destination starts inside the source, the byte at `k` modulo the
distance; no other byte and no register changes. A copy whose source or destination leaves the memory
faults before the first byte moves, a length of 0 beyond the top included. -/
def Obligations.BlockCopiesForwardOrFaults : Prop :=
  ∀ (s : State) (dst src len : Half) (rdst rsrc rlen : Reg),
    let copied (d r n : Nat) (t : State) : Prop :=
      (∀ k, k < n →
        t.mem.read (d + k) = s.mem.read (r + if r < d then k % (d - r) else k)) ∧
      ∀ x, x < d ∨ d + n ≤ x → t.mem.read x = s.mem.read x
    encode (.memcpy dst src len) =
      [0x19, dst.extractLsb' 0 8, dst.extractLsb' 8 8, src.extractLsb' 0 8, src.extractLsb' 8 8,
        len.extractLsb' 0 8, len.extractLsb' 8 8] ∧
    (src.toNat + len.toNat ≤ s.memSize → dst.toNat + len.toNat ≤ s.memSize →
      Completes (.memcpy dst src len) s fun t =>
        RegsAfter s 7 t ∧ copied dst.toNat src.toNat len.toNat t ∧
        SameInstance s t ∧ NoTransaction s t ∧ Counted s t) ∧
    (s.memSize < src.toNat + len.toNat ∨ s.memSize < dst.toNat + len.toNat →
      Faults (.memcpy dst src len) s .invalidAddress) ∧
    encode (.memcpyP (regByte rdst) (regByte rsrc) (regByte rlen)) =
      [0x1A, regByte rdst, regByte rsrc, regByte rlen] ∧
    ((operand s 4 rsrc).toNat + (operand s 4 rlen).toNat ≤ s.memSize →
      (operand s 4 rdst).toNat + (operand s 4 rlen).toNat ≤ s.memSize →
      Completes (.memcpyP (regByte rdst) (regByte rsrc) (regByte rlen)) s fun t =>
        RegsAfter s 4 t ∧
        copied (operand s 4 rdst).toNat (operand s 4 rsrc).toNat (operand s 4 rlen).toNat t ∧
        SameInstance s t ∧ NoTransaction s t ∧ Counted s t) ∧
    (s.memSize < (operand s 4 rsrc).toNat + (operand s 4 rlen).toNat ∨
      s.memSize < (operand s 4 rdst).toNat + (operand s 4 rlen).toNat →
      Faults (.memcpyP (regByte rdst) (regByte rsrc) (regByte rlen)) s .invalidAddress)

/-! ### Integer ALU -/

/-- R173, R175, R180 to R182, R184, R190: the three-operand forms; sums and products are modulo 2^32,
and the signed product has the bits of the unsigned one. -/
def Obligations.ThreeOperandIntegerResults : Prop :=
  ∀ (s : State) (rd ra rb : Reg) (A B : Word), A = operand s 4 ra → B = operand s 4 rb →
    encode (.add (regByte rd) (regByte ra) (regByte rb)) =
      [0x1F, regByte rd, regByte ra, regByte rb] ∧
    Completes (.add (regByte rd) (regByte ra) (regByte rb)) s
      (Writes s 4 rd (BitVec.ofNat 32 (A.toNat + B.toNat))) ∧
    encode (.mul (regByte rd) (regByte ra) (regByte rb)) =
      [0x21, regByte rd, regByte ra, regByte rb] ∧
    Completes (.mul (regByte rd) (regByte ra) (regByte rb)) s
      (Writes s 4 rd (BitVec.ofNat 32 (A.toNat * B.toNat))) ∧
    encode (.and (regByte rd) (regByte ra) (regByte rb)) =
      [0x26, regByte rd, regByte ra, regByte rb] ∧
    Completes (.and (regByte rd) (regByte ra) (regByte rb)) s (Writes s 4 rd (A &&& B)) ∧
    encode (.or (regByte rd) (regByte ra) (regByte rb)) =
      [0x27, regByte rd, regByte ra, regByte rb] ∧
    Completes (.or (regByte rd) (regByte ra) (regByte rb)) s (Writes s 4 rd (A ||| B)) ∧
    encode (.xor (regByte rd) (regByte ra) (regByte rb)) =
      [0x28, regByte rd, regByte ra, regByte rb] ∧
    Completes (.xor (regByte rd) (regByte ra) (regByte rb)) s (Writes s 4 rd (A ^^^ B)) ∧
    encode (.imul (regByte rd) (regByte ra) (regByte rb)) =
      [0x2A, regByte rd, regByte ra, regByte rb] ∧
    Completes (.imul (regByte rd) (regByte ra) (regByte rb)) s
      (Writes s 4 rd (BitVec.ofInt 32 (A.toInt * B.toInt))) ∧
    exec (.imul (regByte rd) (regByte ra) (regByte rb)) s =
      exec (.mul (regByte rd) (regByte ra) (regByte rb)) s

/-- R171, R172, R183: the one-operand forms, modulo 2^32 and bit by bit. -/
def Obligations.OneOperandIntegerResults : Prop :=
  ∀ (s : State) (rd : Reg) (A : Word), A = operand s 2 rd →
    encode (.inc (regByte rd)) = [0x1B, regByte rd] ∧
    Completes (.inc (regByte rd)) s (Writes s 2 rd (BitVec.ofNat 32 (A.toNat + 1))) ∧
    encode (.dec (regByte rd)) = [0x1C, regByte rd] ∧
    Completes (.dec (regByte rd)) s (Writes s 2 rd (BitVec.ofInt 32 ((A.toNat : Int) - 1))) ∧
    encode (.not (regByte rd)) = [0x29, regByte rd] ∧
    Completes (.not (regByte rd)) s (Writes s 2 rd (BitVec.ofNat 32 (2 ^ 32 - 1 - A.toNat)))

/-- R174, R178, R179, R187: subtraction modulo 2^32; shifts by the low 5 bits of the amount, zeros
entering on the left shift and the logical right shift, copies of bit 31 on the arithmetic one. -/
def Obligations.SubtractionAndShiftResults : Prop :=
  ∀ (s : State) (rd rs : Reg) (A B : Word), A = operand s 3 rd → B = operand s 3 rs →
    encode (.sub (regByte rd) (regByte rs)) = [0x20, regByte rd, regByte rs] ∧
    Completes (.sub (regByte rd) (regByte rs)) s
      (Writes s 3 rd (BitVec.ofInt 32 ((A.toNat : Int) - B.toNat))) ∧
    encode (.shl (regByte rd) (regByte rs)) = [0x24, regByte rd, regByte rs] ∧
    Completes (.shl (regByte rd) (regByte rs)) s
      (Writes s 3 rd (BitVec.ofNat 32 (A.toNat * 2 ^ (B.toNat % 32)))) ∧
    encode (.shr (regByte rd) (regByte rs)) = [0x25, regByte rd, regByte rs] ∧
    Completes (.shr (regByte rd) (regByte rs)) s
      (Writes s 3 rd (BitVec.ofNat 32 (A.toNat / 2 ^ (B.toNat % 32)))) ∧
    encode (.ishr (regByte rd) (regByte rs)) = [0x2D, regByte rd, regByte rs] ∧
    Completes (.ishr (regByte rd) (regByte rs)) s
      (Writes s 3 rd (BitVec.ofInt 32 (A.toInt / 2 ^ (B.toNat % 32))))

/-- R176, R177: the unsigned quotient and remainder satisfy the law of division, which fixes both; a
zero divisor raises `DivisionByZero`, `rd` unchanged. -/
def Obligations.UnsignedDivisionLaw : Prop :=
  ∀ (s : State) (rd rs : Reg) (A B : Word), A = operand s 3 rd → B = operand s 3 rs →
    encode (.div (regByte rd) (regByte rs)) = [0x22, regByte rd, regByte rs] ∧
    encode (.mod (regByte rd) (regByte rs)) = [0x23, regByte rd, regByte rs] ∧
    (B ≠ 0 → ∃ q r : Word,
      Completes (.div (regByte rd) (regByte rs)) s (Writes s 3 rd q) ∧
      Completes (.mod (regByte rd) (regByte rs)) s (Writes s 3 rd r) ∧
      A.toNat = q.toNat * B.toNat + r.toNat ∧ r.toNat < B.toNat) ∧
    (B = 0 → Faults (.div (regByte rd) (regByte rs)) s .divisionByZero ∧
      Faults (.mod (regByte rd) (regByte rs)) s .divisionByZero)

/-- R185, R186: the signed quotient is truncated toward zero and the remainder has the sign of the
dividend, but for −2^31 by −1, which gives 0x80000000 and 0; a zero divisor raises `DivisionByZero`,
`rd` unchanged. -/
def Obligations.SignedDivisionLaw : Prop :=
  ∀ (s : State) (rd rs : Reg) (A B : Word), A = operand s 3 rd → B = operand s 3 rs →
    encode (.idiv (regByte rd) (regByte rs)) = [0x2B, regByte rd, regByte rs] ∧
    encode (.imod (regByte rd) (regByte rs)) = [0x2C, regByte rd, regByte rs] ∧
    (B ≠ 0 → ∃ q r : Word,
      Completes (.idiv (regByte rd) (regByte rs)) s (Writes s 3 rd q) ∧
      Completes (.imod (regByte rd) (regByte rs)) s (Writes s 3 rd r) ∧
      if A = 0x80000000 ∧ B = 0xFFFFFFFF then q = 0x80000000 ∧ r = 0
      else A.toInt = q.toInt * B.toInt + r.toInt ∧ |r.toInt| < |B.toInt| ∧
        (0 ≤ A.toInt → 0 ≤ r.toInt) ∧ (A.toInt ≤ 0 → r.toInt ≤ 0)) ∧
    (B = 0 → Faults (.idiv (regByte rd) (regByte rs)) s .divisionByZero ∧
      Faults (.imod (regByte rd) (regByte rs)) s .divisionByZero)

/-! ### Floating-point ALU -/

/-- R211 to R216, R221: `FADD` writes the IEEE-754 sum of its sources, `FSUB` that of `rd` and the
source with its sign inverted, `FINC` and `FDEC` that of `rd` and 1.0 or −1.0: correctly rounded
where the exact sum is not zero, the signed zero where it is, infinities and NaNs as the standard
says; a NaN result is some NaN pattern. They complete for all operands and change nothing else. -/
def Obligations.FloatSumsAreCorrectlyRounded : Prop :=
  ∀ (s : State) (rd ra rb : Reg),
    encode (.fadd (regByte rd) (regByte ra) (regByte rb)) =
      [0x2E, regByte rd, regByte ra, regByte rb] ∧
    (∃ v, Completes (.fadd (regByte rd) (regByte ra) (regByte rb)) s (Writes s 4 rd v) ∧
      IsSum (operand s 4 ra) (operand s 4 rb) v) ∧
    encode (.fsub (regByte rd) (regByte ra)) = [0x2F, regByte rd, regByte ra] ∧
    (∃ v, Completes (.fsub (regByte rd) (regByte ra)) s (Writes s 3 rd v) ∧
      IsSum (operand s 3 rd) (operand s 3 ra ^^^ 0x80000000) v) ∧
    encode (.finc (regByte rd)) = [0x1D, regByte rd] ∧
    (∃ v, Completes (.finc (regByte rd)) s (Writes s 2 rd v) ∧
      IsSum (operand s 2 rd) 0x3F800000 v) ∧
    encode (.fdec (regByte rd)) = [0x1E, regByte rd] ∧
    (∃ v, Completes (.fdec (regByte rd)) s (Writes s 2 rd v) ∧
      IsSum (operand s 2 rd) 0xBF800000 v)

/-- R211, R212, R217, R218, R221: `FMUL` writes the IEEE-754 product and `FDIV` the quotient, on all
operands; division by zero is no fault. -/
def Obligations.FloatProductsAndQuotientsAreCorrectlyRounded : Prop :=
  ∀ (s : State) (rd ra rb : Reg),
    encode (.fmul (regByte rd) (regByte ra) (regByte rb)) =
      [0x30, regByte rd, regByte ra, regByte rb] ∧
    (∃ v, Completes (.fmul (regByte rd) (regByte ra) (regByte rb)) s (Writes s 4 rd v) ∧
      IsProduct (operand s 4 ra) (operand s 4 rb) v) ∧
    encode (.fdiv (regByte rd) (regByte ra)) = [0x31, regByte rd, regByte ra] ∧
    (∃ v, Completes (.fdiv (regByte rd) (regByte ra)) s (Writes s 3 rd v) ∧
      IsQuotient (operand s 3 rd) (operand s 3 ra) v)

/-- R219: `I2F` writes the binary32 number nearest to the signed integer; 0 gives +0. -/
def Obligations.IntToFloatRounds : Prop :=
  ∀ (s : State) (rd rs : Reg),
    encode (.i2f (regByte rd) (regByte rs)) = [0x34, regByte rd, regByte rs] ∧
    ∃ v, Completes (.i2f (regByte rd) (regByte rs)) s (Writes s 3 rd v) ∧
      (operand s 3 rs = 0 → v = 0) ∧
      (operand s 3 rs ≠ 0 → RoundsTo ((operand s 3 rs).toInt : ℚ) v)

/-- R220: `F2I` drops the fraction, toward zero, where the result fits; otherwise, and for a NaN or an
infinity, it completes all the same with what the parameter gives (log entry 4). -/
def Obligations.FloatToIntTruncates : Prop :=
  ∀ (s : State) (rd rs : Reg),
    encode (.f2i (regByte rd) (regByte rs)) = [0x35, regByte rd, regByte rs] ∧
    (∀ (x : ℚ) (n : Int), finiteValue (operand s 3 rs) = some x →
      n = (if 0 ≤ x then ⌊x⌋ else ⌈x⌉) →
      Completes (.f2i (regByte rd) (regByte rs)) s
        (Writes s 3 rd (if -(2 ^ 31) ≤ n ∧ n ≤ 2 ^ 31 - 1 then BitVec.ofInt 32 n
          else Config.f2iInvalid (operand s 3 rs)))) ∧
    (finiteValue (operand s 3 rs) = none →
      Completes (.f2i (regByte rd) (regByte rs)) s
        (Writes s 3 rd (Config.f2iInvalid (operand s 3 rs))))

/-! ### Jumps -/

/-- R240 to R242: `JMP` continues at its 16-bit target, `JR` at all 32 bits of its register; neither
checks the target. -/
def Obligations.UnconditionalJumps : Prop :=
  ∀ (s : State) (addr : Half) (rs : Reg),
    encode (.jmp addr) = [0x36, addr.extractLsb' 0 8, addr.extractLsb' 8 8] ∧
    Completes (.jmp addr) s (JumpsTo s (BitVec.ofNat 32 addr.toNat)) ∧
    encode (.jr (regByte rs)) = [0x37, regByte rs] ∧
    Completes (.jr (regByte rs)) s (JumpsTo s (operand s 2 rs))

/-- R243, R244: the jumps on a register being zero or not; not taken they continue at `a + 4`. -/
def Obligations.JumpsOnZero : Prop :=
  ∀ (s : State) (addr : Half) (ra : Reg),
    encode (.jz addr (regByte ra)) =
      [0x38, addr.extractLsb' 0 8, addr.extractLsb' 8 8, regByte ra] ∧
    Completes (.jz addr (regByte ra)) s (JumpsTo s
      (if (operand s 4 ra).toNat = 0 then BitVec.ofNat 32 addr.toNat else s.reg .ip + 4)) ∧
    encode (.jnz addr (regByte ra)) =
      [0x39, addr.extractLsb' 0 8, addr.extractLsb' 8 8, regByte ra] ∧
    Completes (.jnz addr (regByte ra)) s (JumpsTo s
      (if (operand s 4 ra).toNat ≠ 0 then BitVec.ofNat 32 addr.toNat else s.reg .ip + 4))

/-- R245 to R255: the ten two-register jumps are taken exactly on their comparison, unsigned or
two's complement, the first register its left operand; not taken they continue at `a + 5`. -/
def Obligations.JumpsOnComparison : Prop :=
  ∀ (s : State) (addr : Half) (ra rb : Reg) (A B : Word), A = operand s 5 ra → B = operand s 5 rb →
    let bytes (op : Byte) : List Byte :=
      [op, addr.extractLsb' 0 8, addr.extractLsb' 8 8, regByte ra, regByte rb]
    let taken : Word := BitVec.ofNat 32 addr.toNat
    let fallThrough : Word := s.reg .ip + 5
    encode (.je addr (regByte ra) (regByte rb)) = bytes 0x3A ∧
    Completes (.je addr (regByte ra) (regByte rb)) s
      (JumpsTo s (if A.toNat = B.toNat then taken else fallThrough)) ∧
    encode (.jne addr (regByte ra) (regByte rb)) = bytes 0x3B ∧
    Completes (.jne addr (regByte ra) (regByte rb)) s
      (JumpsTo s (if A.toNat ≠ B.toNat then taken else fallThrough)) ∧
    encode (.ja addr (regByte ra) (regByte rb)) = bytes 0x3C ∧
    Completes (.ja addr (regByte ra) (regByte rb)) s
      (JumpsTo s (if A.toNat > B.toNat then taken else fallThrough)) ∧
    encode (.jg addr (regByte ra) (regByte rb)) = bytes 0x3D ∧
    Completes (.jg addr (regByte ra) (regByte rb)) s
      (JumpsTo s (if A.toInt > B.toInt then taken else fallThrough)) ∧
    encode (.jae addr (regByte ra) (regByte rb)) = bytes 0x3E ∧
    Completes (.jae addr (regByte ra) (regByte rb)) s
      (JumpsTo s (if A.toNat ≥ B.toNat then taken else fallThrough)) ∧
    encode (.jge addr (regByte ra) (regByte rb)) = bytes 0x3F ∧
    Completes (.jge addr (regByte ra) (regByte rb)) s
      (JumpsTo s (if A.toInt ≥ B.toInt then taken else fallThrough)) ∧
    encode (.jb addr (regByte ra) (regByte rb)) = bytes 0x40 ∧
    Completes (.jb addr (regByte ra) (regByte rb)) s
      (JumpsTo s (if A.toNat < B.toNat then taken else fallThrough)) ∧
    encode (.jl addr (regByte ra) (regByte rb)) = bytes 0x41 ∧
    Completes (.jl addr (regByte ra) (regByte rb)) s
      (JumpsTo s (if A.toInt < B.toInt then taken else fallThrough)) ∧
    encode (.jbe addr (regByte ra) (regByte rb)) = bytes 0x42 ∧
    Completes (.jbe addr (regByte ra) (regByte rb)) s
      (JumpsTo s (if A.toNat ≤ B.toNat then taken else fallThrough)) ∧
    encode (.jle addr (regByte ra) (regByte rb)) = bytes 0x43 ∧
    Completes (.jle addr (regByte ra) (regByte rb)) s
      (JumpsTo s (if A.toInt ≤ B.toInt then taken else fallThrough))

/-! ### Host I/O -/

/-- R272 to R275: each register output, where its request kind is supported, issues its one request
(the low 8 bits for a character, a newline for any non-zero flag byte) and then changes nothing:
the registers and memory are those the host left. -/
def Obligations.RegisterOutputsIssueOneRequest : Prop :=
  ∀ (s : State) (rs : Reg) (nl : Byte),
    let v : Word := operand s 3 rs
    let line : Bool := decide (nl.toNat ≠ 0)
    let issues (i : Instr) (q : Request) : Prop :=
      q.kind ∈ s.hostKinds →
        CallbackLeft s (.request q) (afterCallback s (.request q)) ∧
        Completes i s (JumpsTo (afterCallback s (.request q)) (s.reg .ip + 3))
    encode (.print (regByte rs) nl) = [0x44, regByte rs, nl] ∧
    issues (.print (regByte rs) nl) (.outU32 v line) ∧
    encode (.printi (regByte rs) nl) = [0x45, regByte rs, nl] ∧
    issues (.printi (regByte rs) nl) (.outI32 v line) ∧
    encode (.printf (regByte rs) nl) = [0x46, regByte rs, nl] ∧
    issues (.printf (regByte rs) nl) (.outF32 v line) ∧
    encode (.printc (regByte rs) nl) = [0x47, regByte rs, nl] ∧
    issues (.printc (regByte rs) nl) (.outChar (v.extractLsb' 0 8) line)

/-- R276: `PRINTS` sends the bytes before the first zero byte from its address; a scan that meets no
zero byte inside the memory faults with `InvalidAddress`, whatever the host supports. -/
def Obligations.StringOutputScansToTheZero : Prop :=
  ∀ (s : State) (addr : Half) (nl : Byte),
    encode (.prints addr nl) = [0x48, addr.extractLsb' 0 8, addr.extractLsb' 8 8, nl] ∧
    (∀ str : List Byte, (0 : Byte) ∉ str → BytesAt s.mem addr.toNat (str ++ [0]) →
      addr.toNat + str.length < s.memSize → .outStr ∈ s.hostKinds →
      Completes (.prints addr nl) s
        (JumpsTo (afterCallback s (.request (.outStr str (decide (nl.toNat ≠ 0)))))
          (s.reg .ip + 4))) ∧
    ((∀ x, addr.toNat ≤ x → x < s.memSize → s.mem.read x ≠ 0) →
      Faults (.prints addr nl) s .invalidAddress)

/-- R277 to R280, R301, R303: each input, where its request kind is supported, issues its one request
and writes the host's value to `rd` (a character zero-extended), changing nothing else of what the
host left. -/
def Obligations.InputsWriteTheHostsValue : Prop :=
  ∀ (s : State) (rd rpin : Reg),
    let issues (i : Instr) (q : Request) (L : Nat) (w : Word → Word) : Prop :=
      q.kind ∈ s.hostKinds →
        CallbackLeft s (.request q) (afterCallback s (.request q)) ∧
        Completes i s (Writes (afterCallback s (.request q)) L rd
          (w (s.callback (.request q)).value))
    encode (.read (regByte rd)) = [0x49, regByte rd] ∧
    issues (.read (regByte rd)) .inU32 2 id ∧
    encode (.readi (regByte rd)) = [0x4A, regByte rd] ∧
    issues (.readi (regByte rd)) .inI32 2 id ∧
    encode (.readf (regByte rd)) = [0x4B, regByte rd] ∧
    issues (.readf (regByte rd)) .inF32 2 id ∧
    encode (.readc (regByte rd)) = [0x4C, regByte rd] ∧
    issues (.readc (regByte rd)) .inChar 2 (fun v => (v.extractLsb' 0 8).setWidth 32) ∧
    encode (.dread (regByte rd) (regByte rpin)) = [0x50, regByte rd, regByte rpin] ∧
    issues (.dread (regByte rd) (regByte rpin)) (.dRead (operand s 3 rpin)) 3 id ∧
    encode (.aread (regByte rd) (regByte rpin)) = [0x52, regByte rd, regByte rpin] ∧
    issues (.aread (regByte rd) (regByte rpin)) (.aRead (operand s 3 rpin)) 3 id

/-- R281, R270: `READS` writes the host's line, at most `len − 1` bytes and without a zero byte, and a
zero byte after it, and leaves the rest of memory as the host left it; a length of 0 requests and
writes nothing; a buffer that leaves the memory faults first. A line that breaks the promise of R270
is cut to it (log entry 12, DEDUCED): that is the model's reading, not a rule. -/
def Obligations.LineInputFillsTheBuffer : Prop :=
  ∀ (s : State) (addr len : Half),
    encode (.reads addr len) =
      [0x4D, addr.extractLsb' 0 8, addr.extractLsb' 8 8, len.extractLsb' 0 8,
        len.extractLsb' 8 8] ∧
    (s.memSize < addr.toNat + len.toNat → Faults (.reads addr len) s .invalidAddress) ∧
    (addr.toNat + len.toNat ≤ s.memSize →
      (len = 0 → Completes (.reads addr len) s (JumpsTo s (s.reg .ip + 5))) ∧
      (len ≠ 0 → .inLine ∈ s.hostKinds →
        Completes (.reads addr len) s fun t =>
          ∃ (h : State) (answer line : List Byte),
            h = afterCallback s (.request (.inLine (len.toNat - 1))) ∧
            answer = (s.callback (.request (.inLine (len.toNat - 1)))).line ∧
            line.length ≤ len.toNat - 1 ∧ (0 : Byte) ∉ line ∧
            (answer.length ≤ len.toNat - 1 → (0 : Byte) ∉ answer → line = answer) ∧
            BytesAt t.mem addr.toNat (line ++ [0]) ∧
            (∀ x, x < addr.toNat ∨ addr.toNat + line.length + 1 ≤ x →
              t.mem.read x = h.mem.read x) ∧
            RegsAfterJump h (s.reg .ip + 5) t ∧ SameInstance h t ∧ NoTransaction h t ∧
            Counted h t))

/-- R282, R283: `I2S` writes what the instance's `I2S_FORMAT` gives for the register and a zero byte,
or faults when they do not fit; `S2I` writes what its `S2I_PARSE` gives, or faults when that does.
R290, R291: the default `I2S_FORMAT` gives the shortest decimal representation; the default
`S2I_PARSE` gives the value of the leading digits modulo 2^32, and faults when the digits run into the
end of memory. A replaced conversion (R4, U21) is a free value, in the form that log entry 13 (DESIGN
CHOICE) chooses. -/
def Obligations.StringConversions : Prop :=
  ∀ (s : State) (addr : Half) (r : Reg) (str : List Byte),
    encode (.i2s addr (regByte r)) =
      [0x4E, addr.extractLsb' 0 8, addr.extractLsb' 8 8, regByte r] ∧
    (str = s.formatInt (operand s 4 r) ∨
        s.i2sFormat = .default ∧ IsDecimal str (operand s 4 r).toNat →
      if addr.toNat + str.length + 1 ≤ s.memSize then
        Completes (.i2s addr (regByte r)) s fun t =>
          BytesAt t.mem addr.toNat (str ++ [0]) ∧
          (∀ x, x < addr.toNat ∨ addr.toNat + str.length + 1 ≤ x →
            t.mem.read x = s.mem.read x) ∧
          RegsAfter s 4 t ∧ SameInstance s t ∧ NoTransaction s t ∧ Counted s t
      else Faults (.i2s addr (regByte r)) s .invalidAddress) ∧
    encode (.s2i addr (regByte r)) =
      [0x4F, addr.extractLsb' 0 8, addr.extractLsb' 8 8, regByte r] ∧
    (∀ v, s.scanInt (BitVec.ofNat 32 addr.toNat) = some v →
      Completes (.s2i addr (regByte r)) s (Writes s 4 r v)) ∧
    (s.scanInt (BitVec.ofNat 32 addr.toNat) = none →
      Faults (.s2i addr (regByte r)) s .invalidAddress) ∧
    (s.s2iParse = .default →
      ((∀ b ∈ str, AsciiDigit b) → BytesAt s.mem addr.toNat str →
        addr.toNat + str.length < s.memSize →
        ¬ AsciiDigit (s.mem.read (addr.toNat + str.length)) →
        Completes (.s2i addr (regByte r)) s
          (Writes s 4 r (BitVec.ofNat 32 (decimalValue str)))) ∧
      ((∀ x, addr.toNat ≤ x → x < s.memSize → AsciiDigit (s.mem.read x)) →
        Faults (.s2i addr (regByte r)) s .invalidAddress))

/-- R282, R283, R290, R291: every value has a decimal representation of at most ten digits, and with the
default conversions a register written by `I2S` is read back by `S2I`, into any register (a value
written to `IP` continues at the value plus one, R15). Which conversions an instance has is a
parameter (R4; log entry 13, DESIGN CHOICE): nothing is said here of a replaced one. -/
def Obligations.IntegerToStringAndBack : Prop :=
  (∀ v : Word, ∃ str, IsDecimal str v.toNat ∧ str.length ≤ 10) ∧
  ∀ (s : State) (addr : Half) (rs rd : Reg),
    s.i2sFormat = .default → s.s2iParse = .default → addr.toNat + 11 ≤ s.memSize →
    ∃ t u, exec (.i2s addr (regByte rs)) s = .next t ∧
      exec (.s2i addr (regByte rd)) t = .next u ∧
      u.reg rd = if rd = .ip then operand s 4 rs + 1 else operand s 4 rs

/-- R302, R304, R305: each pin write, where its request kind is supported, issues its one request with
the two registers in operand order, and then changes nothing of what the host left. -/
def Obligations.PinWritesIssueOneRequest : Prop :=
  ∀ (s : State) (rpin rval : Reg),
    let issues (i : Instr) (q : Request) : Prop :=
      q.kind ∈ s.hostKinds →
        CallbackLeft s (.request q) (afterCallback s (.request q)) ∧
        Completes i s (JumpsTo (afterCallback s (.request q)) (s.reg .ip + 3))
    encode (.dwrite (regByte rpin) (regByte rval)) = [0x51, regByte rpin, regByte rval] ∧
    issues (.dwrite (regByte rpin) (regByte rval))
      (.dWrite (operand s 3 rpin) (operand s 3 rval)) ∧
    encode (.awrite (regByte rpin) (regByte rval)) = [0x53, regByte rpin, regByte rval] ∧
    issues (.awrite (regByte rpin) (regByte rval))
      (.aWrite (operand s 3 rpin) (operand s 3 rval)) ∧
    encode (.pinmode (regByte rpin) (regByte rval)) = [0x54, regByte rpin, regByte rval] ∧
    issues (.pinmode (regByte rpin) (regByte rval))
      (.pinMode (operand s 3 rpin) (operand s 3 rval))

/-- R270, R300, R313: a request of a kind the host does not support raises `UnsupportedOpcode`, with
no register, byte or other state changed; `PRINTS` and `READS` only where their own checks pass. That
no transaction shows in the trace is the model's choice (log entry 11, DESIGN CHOICE): R270 lets the
request be issued and answered. -/
def Obligations.UnsupportedRequestsFault : Prop :=
  ∀ (s : State) (r q : Reg) (nl : Byte) (addr len : Half),
    (.outU32 ∉ s.hostKinds → Faults (.print (regByte r) nl) s .unsupportedOpcode) ∧
    (.outI32 ∉ s.hostKinds → Faults (.printi (regByte r) nl) s .unsupportedOpcode) ∧
    (.outF32 ∉ s.hostKinds → Faults (.printf (regByte r) nl) s .unsupportedOpcode) ∧
    (.outChar ∉ s.hostKinds → Faults (.printc (regByte r) nl) s .unsupportedOpcode) ∧
    (.outStr ∉ s.hostKinds → (∃ x, addr.toNat ≤ x ∧ x < s.memSize ∧ s.mem.read x = 0) →
      Faults (.prints addr nl) s .unsupportedOpcode) ∧
    (.inU32 ∉ s.hostKinds → Faults (.read (regByte r)) s .unsupportedOpcode) ∧
    (.inI32 ∉ s.hostKinds → Faults (.readi (regByte r)) s .unsupportedOpcode) ∧
    (.inF32 ∉ s.hostKinds → Faults (.readf (regByte r)) s .unsupportedOpcode) ∧
    (.inChar ∉ s.hostKinds → Faults (.readc (regByte r)) s .unsupportedOpcode) ∧
    (.inLine ∉ s.hostKinds → len ≠ 0 → addr.toNat + len.toNat ≤ s.memSize →
      Faults (.reads addr len) s .unsupportedOpcode) ∧
    (.dRead ∉ s.hostKinds → Faults (.dread (regByte r) (regByte q)) s .unsupportedOpcode) ∧
    (.dWrite ∉ s.hostKinds → Faults (.dwrite (regByte r) (regByte q)) s .unsupportedOpcode) ∧
    (.aRead ∉ s.hostKinds → Faults (.aread (regByte r) (regByte q)) s .unsupportedOpcode) ∧
    (.aWrite ∉ s.hostKinds → Faults (.awrite (regByte r) (regByte q)) s .unsupportedOpcode) ∧
    (.pinMode ∉ s.hostKinds → Faults (.pinmode (regByte r) (regByte q)) s .unsupportedOpcode)
end

