-- ==== Sys2Proof/Laws/State.lean ====
section
/-! SUPPORT. What each update of the state leaves and changes, field by field. -/

namespace Sys2Proof.Machine

/-! ### `setReg` -/

@[simp] theorem State.reg_setReg (s : State) (r q : Reg) (v : Word) :
    (s.setReg r v).reg q = if q = r then v else s.reg q := by
  by_cases h : q = r
  · subst h; simp [State.reg, State.setReg]
  · have : r.val ≠ q.val := fun e => h (Fin.ext e.symm)
    simp [State.reg, State.setReg, h, this]

@[simp] theorem State.setReg_mem (s : State) (r : Reg) (v : Word) : (s.setReg r v).mem = s.mem := rfl
@[simp] theorem State.setReg_hook (s : State) (r : Reg) (v : Word) : (s.setReg r v).hook = s.hook := rfl
@[simp] theorem State.setReg_phase (s : State) (r : Reg) (v : Word) :
    (s.setReg r v).phase = s.phase := rfl
@[simp] theorem State.setReg_progLen (s : State) (r : Reg) (v : Word) :
    (s.setReg r v).progLen = s.progLen := rfl
@[simp] theorem State.setReg_stackCap (s : State) (r : Reg) (v : Word) :
    (s.setReg r v).stackCap = s.stackCap := rfl
@[simp] theorem State.setReg_hostKinds (s : State) (r : Reg) (v : Word) :
    (s.setReg r v).hostKinds = s.hostKinds := rfl
@[simp] theorem State.setReg_i2sFormat (s : State) (r : Reg) (v : Word) :
    (s.setReg r v).i2sFormat = s.i2sFormat := rfl
@[simp] theorem State.setReg_s2iParse (s : State) (r : Reg) (v : Word) :
    (s.setReg r v).s2iParse = s.s2iParse := rfl
@[simp] theorem State.setReg_script (s : State) (r : Reg) (v : Word) :
    (s.setReg r v).script = s.script := rfl
@[simp] theorem State.setReg_trace (s : State) (r : Reg) (v : Word) :
    (s.setReg r v).trace = s.trace := rfl
@[simp] theorem State.setReg_inbox (s : State) (r : Reg) (v : Word) :
    (s.setReg r v).inbox = s.inbox := rfl
@[simp] theorem State.setReg_replies (s : State) (r : Reg) (v : Word) :
    (s.setReg r v).replies = s.replies := rfl
@[simp] theorem State.setReg_memSize (s : State) (r : Reg) (v : Word) :
    (s.setReg r v).memSize = s.memSize := rfl

/-! The special registers with an implicit use are distinct. -/

@[simp] theorem Reg.ip_ne_sp : Reg.ip ≠ Reg.sp := by decide
@[simp] theorem Reg.sp_ne_ip : Reg.sp ≠ Reg.ip := by decide
@[simp] theorem Reg.ip_ne_ra : Reg.ip ≠ Reg.ra := by decide
@[simp] theorem Reg.ra_ne_ip : Reg.ra ≠ Reg.ip := by decide

/-- Two states with the same registers, read by index, hold the same register file. -/
theorem State.regs_ext {s t : State} (h : ∀ r, t.reg r = s.reg r) : t.regs = s.regs := by
  apply Vector.ext
  intro i hi
  exact h ⟨i, hi⟩

/-! ### `enter` and `jump` -/

@[simp] theorem State.reg_enter (s : State) (f : Format) (q : Reg) :
    (s.enter f).reg q = if q = .ip then s.reg .ip + BitVec.ofNat 32 (f.length - 1) else s.reg q := by
  simp [State.enter]

@[simp] theorem State.reg_jump (s : State) (t : Word) (q : Reg) :
    (s.jump t).reg q = if q = .ip then t - 1 else s.reg q := by
  simp [State.jump]

@[simp] theorem State.enter_mem (s : State) (f : Format) : (s.enter f).mem = s.mem := rfl
@[simp] theorem State.enter_hook (s : State) (f : Format) : (s.enter f).hook = s.hook := rfl
@[simp] theorem State.enter_phase (s : State) (f : Format) : (s.enter f).phase = s.phase := rfl
@[simp] theorem State.enter_progLen (s : State) (f : Format) : (s.enter f).progLen = s.progLen := rfl
@[simp] theorem State.enter_stackCap (s : State) (f : Format) : (s.enter f).stackCap = s.stackCap := rfl
@[simp] theorem State.enter_hostKinds (s : State) (f : Format) :
    (s.enter f).hostKinds = s.hostKinds := rfl
@[simp] theorem State.enter_i2sFormat (s : State) (f : Format) :
    (s.enter f).i2sFormat = s.i2sFormat := rfl
@[simp] theorem State.enter_s2iParse (s : State) (f : Format) :
    (s.enter f).s2iParse = s.s2iParse := rfl
@[simp] theorem State.enter_script (s : State) (f : Format) : (s.enter f).script = s.script := rfl
@[simp] theorem State.enter_trace (s : State) (f : Format) : (s.enter f).trace = s.trace := rfl
@[simp] theorem State.enter_inbox (s : State) (f : Format) : (s.enter f).inbox = s.inbox := rfl
@[simp] theorem State.enter_replies (s : State) (f : Format) : (s.enter f).replies = s.replies := rfl
@[simp] theorem State.enter_memSize (s : State) (f : Format) : (s.enter f).memSize = s.memSize := rfl
@[simp] theorem State.enter_formatInt (s : State) (f : Format) (v : Word) :
    (s.enter f).formatInt v = s.formatInt v := rfl
@[simp] theorem State.enter_scanInt (s : State) (f : Format) (p : Word) :
    (s.enter f).scanInt p = s.scanInt p := rfl

@[simp] theorem State.jump_mem (s : State) (t : Word) : (s.jump t).mem = s.mem := rfl
@[simp] theorem State.jump_hook (s : State) (t : Word) : (s.jump t).hook = s.hook := rfl
@[simp] theorem State.jump_phase (s : State) (t : Word) : (s.jump t).phase = s.phase := rfl
@[simp] theorem State.jump_progLen (s : State) (t : Word) : (s.jump t).progLen = s.progLen := rfl
@[simp] theorem State.jump_stackCap (s : State) (t : Word) : (s.jump t).stackCap = s.stackCap := rfl
@[simp] theorem State.jump_hostKinds (s : State) (t : Word) :
    (s.jump t).hostKinds = s.hostKinds := rfl
@[simp] theorem State.jump_i2sFormat (s : State) (t : Word) :
    (s.jump t).i2sFormat = s.i2sFormat := rfl
@[simp] theorem State.jump_s2iParse (s : State) (t : Word) :
    (s.jump t).s2iParse = s.s2iParse := rfl
@[simp] theorem State.jump_script (s : State) (t : Word) : (s.jump t).script = s.script := rfl
@[simp] theorem State.jump_trace (s : State) (t : Word) : (s.jump t).trace = s.trace := rfl
@[simp] theorem State.jump_inbox (s : State) (t : Word) : (s.jump t).inbox = s.inbox := rfl
@[simp] theorem State.jump_replies (s : State) (t : Word) : (s.jump t).replies = s.replies := rfl
@[simp] theorem State.jump_memSize (s : State) (t : Word) : (s.jump t).memSize = s.memSize := rfl

/-! ### `endRun` and `startRun` -/

@[simp] theorem State.endRun_regs (s : State) (r : ExecResult) : (s.endRun r).regs = s.regs := rfl
@[simp] theorem State.reg_endRun (s : State) (r : ExecResult) (q : Reg) :
    (s.endRun r).reg q = s.reg q := rfl
@[simp] theorem State.endRun_mem (s : State) (r : ExecResult) : (s.endRun r).mem = s.mem := rfl
@[simp] theorem State.endRun_hook (s : State) (r : ExecResult) : (s.endRun r).hook = s.hook := rfl
@[simp] theorem State.endRun_phase (s : State) (r : ExecResult) : (s.endRun r).phase = .idle := rfl
@[simp] theorem State.endRun_progLen (s : State) (r : ExecResult) :
    (s.endRun r).progLen = s.progLen := rfl
@[simp] theorem State.endRun_stackCap (s : State) (r : ExecResult) :
    (s.endRun r).stackCap = s.stackCap := rfl
@[simp] theorem State.endRun_hostKinds (s : State) (r : ExecResult) :
    (s.endRun r).hostKinds = s.hostKinds := rfl
@[simp] theorem State.endRun_i2sFormat (s : State) (r : ExecResult) :
    (s.endRun r).i2sFormat = s.i2sFormat := rfl
@[simp] theorem State.endRun_s2iParse (s : State) (r : ExecResult) :
    (s.endRun r).s2iParse = s.s2iParse := rfl
@[simp] theorem State.endRun_script (s : State) (r : ExecResult) :
    (s.endRun r).script = s.script := rfl
@[simp] theorem State.endRun_trace (s : State) (r : ExecResult) : (s.endRun r).trace = s.trace := rfl
@[simp] theorem State.endRun_inbox (s : State) (r : ExecResult) : (s.endRun r).inbox = s.inbox := rfl
@[simp] theorem State.endRun_replies (s : State) (r : ExecResult) :
    (s.endRun r).replies = .result r :: s.replies := rfl
@[simp] theorem State.endRun_memSize (s : State) (r : ExecResult) :
    (s.endRun r).memSize = s.memSize := rfl

@[simp] theorem State.reg_startRun (s : State) (b : Word) (q : Reg) :
    (s.startRun b).reg q = s.reg q := rfl
@[simp] theorem State.startRun_mem (s : State) (b : Word) : (s.startRun b).mem = s.mem := rfl
@[simp] theorem State.startRun_phase (s : State) (b : Word) :
    (s.startRun b).phase = .running b 0 := rfl
@[simp] theorem State.startRun_replies (s : State) (b : Word) :
    (s.startRun b).replies = s.replies := rfl

/-! ### `count` and `advance` -/

/-- What counting one more instruction can do: only the phase and the replies change. -/
theorem State.count_cases (s : State) :
    s.count = s ∧ s.phase = .idle ∨
    (∃ b c, s.phase = .running b c ∧ (b ≠ 0 ∧ b ≤ c + 1) ∧ s.count = s.endRun .paused) ∨
    (∃ b c, s.phase = .running b c ∧ ¬(b ≠ 0 ∧ b ≤ c + 1) ∧
      s.count = { s with phase := .running b (c + 1) }) := by
  unfold State.count
  split
  · exact .inl ⟨rfl, ‹_›⟩
  · split
    · exact .inr (.inl ⟨_, _, ‹_›, ‹_›, rfl⟩)
    · exact .inr (.inr ⟨_, _, ‹_›, ‹_›, rfl⟩)

@[simp] theorem State.count_regs (s : State) : s.count.regs = s.regs := by
  rcases s.count_cases with ⟨h, _⟩ | ⟨_, _, _, _, h⟩ | ⟨_, _, _, _, h⟩ <;> simp [h]
@[simp] theorem State.reg_count (s : State) (q : Reg) : s.count.reg q = s.reg q := by
  simp [State.reg]
@[simp] theorem State.count_mem (s : State) : s.count.mem = s.mem := by
  rcases s.count_cases with ⟨h, _⟩ | ⟨_, _, _, _, h⟩ | ⟨_, _, _, _, h⟩ <;> simp [h]
@[simp] theorem State.count_hook (s : State) : s.count.hook = s.hook := by
  rcases s.count_cases with ⟨h, _⟩ | ⟨_, _, _, _, h⟩ | ⟨_, _, _, _, h⟩ <;> simp [h]
@[simp] theorem State.count_progLen (s : State) : s.count.progLen = s.progLen := by
  rcases s.count_cases with ⟨h, _⟩ | ⟨_, _, _, _, h⟩ | ⟨_, _, _, _, h⟩ <;> simp [h]
@[simp] theorem State.count_stackCap (s : State) : s.count.stackCap = s.stackCap := by
  rcases s.count_cases with ⟨h, _⟩ | ⟨_, _, _, _, h⟩ | ⟨_, _, _, _, h⟩ <;> simp [h]
@[simp] theorem State.count_hostKinds (s : State) : s.count.hostKinds = s.hostKinds := by
  rcases s.count_cases with ⟨h, _⟩ | ⟨_, _, _, _, h⟩ | ⟨_, _, _, _, h⟩ <;> simp [h]
@[simp] theorem State.count_i2sFormat (s : State) : s.count.i2sFormat = s.i2sFormat := by
  rcases s.count_cases with ⟨h, _⟩ | ⟨_, _, _, _, h⟩ | ⟨_, _, _, _, h⟩ <;> simp [h]
@[simp] theorem State.count_s2iParse (s : State) : s.count.s2iParse = s.s2iParse := by
  rcases s.count_cases with ⟨h, _⟩ | ⟨_, _, _, _, h⟩ | ⟨_, _, _, _, h⟩ <;> simp [h]
@[simp] theorem State.count_script (s : State) : s.count.script = s.script := by
  rcases s.count_cases with ⟨h, _⟩ | ⟨_, _, _, _, h⟩ | ⟨_, _, _, _, h⟩ <;> simp [h]
@[simp] theorem State.count_trace (s : State) : s.count.trace = s.trace := by
  rcases s.count_cases with ⟨h, _⟩ | ⟨_, _, _, _, h⟩ | ⟨_, _, _, _, h⟩ <;> simp [h]
@[simp] theorem State.count_inbox (s : State) : s.count.inbox = s.inbox := by
  rcases s.count_cases with ⟨h, _⟩ | ⟨_, _, _, _, h⟩ | ⟨_, _, _, _, h⟩ <;> simp [h]
@[simp] theorem State.count_memSize (s : State) : s.count.memSize = s.memSize := by
  simp [State.memSize]

@[simp] theorem State.reg_advance (w : State) (q : Reg) :
    w.advance.reg q = if q = .ip then w.reg .ip + 1 else w.reg q := by
  simp [State.advance]
@[simp] theorem State.advance_mem (w : State) : w.advance.mem = w.mem := by simp [State.advance]
@[simp] theorem State.advance_hook (w : State) : w.advance.hook = w.hook := by simp [State.advance]
@[simp] theorem State.advance_progLen (w : State) : w.advance.progLen = w.progLen := by
  simp [State.advance]
@[simp] theorem State.advance_stackCap (w : State) : w.advance.stackCap = w.stackCap := by
  simp [State.advance]
@[simp] theorem State.advance_hostKinds (w : State) : w.advance.hostKinds = w.hostKinds := by
  simp [State.advance]
@[simp] theorem State.advance_i2sFormat (w : State) : w.advance.i2sFormat = w.i2sFormat := by
  simp [State.advance]
@[simp] theorem State.advance_s2iParse (w : State) : w.advance.s2iParse = w.s2iParse := by
  simp [State.advance]
@[simp] theorem State.advance_script (w : State) : w.advance.script = w.script := by
  simp [State.advance]
@[simp] theorem State.advance_trace (w : State) : w.advance.trace = w.trace := by
  simp [State.advance]
@[simp] theorem State.advance_inbox (w : State) : w.advance.inbox = w.inbox := by
  simp [State.advance]
@[simp] theorem State.advance_memSize (w : State) : w.advance.memSize = w.memSize := by
  simp [State.advance]

end Sys2Proof.Machine
end

