-- ==== Sys2Proof/Laws/Forms.lean ====
section
/-! SUPPORT. Operands and operand forms: what each answers when its operand bytes name registers, and
that it raises `InvalidRegister` when one does not. -/

namespace Sys2Proof.Machine

/-! ### Register operands -/

@[simp] theorem regOperand_regByte (r : Reg) : regOperand (regByte r) = .ok r := by
  have h : (regByte r).toNat = r.val := by
    simp only [regByte, BitVec.toNat_ofNat]
    exact Nat.mod_eq_of_lt (lt_trans r.isLt (by decide))
  simp [regOperand, h, r.isLt]

/-- A register operand answers exactly when its byte is valid, and then with the register it names. -/
theorem regOperand_cases (b : RegByte) :
    (∃ r : Reg, b = regByte r ∧ regOperand b = .ok r ∧ b.valid = true) ∨
      (regOperand b = .error .invalidRegister ∧ b.valid = false) := by
  unfold regOperand RegByte.valid
  split
  · rename_i h
    refine .inl ⟨⟨b.toNat, h⟩, ?_, rfl, by simpa using h⟩
    simp [regByte]
  · rename_i h
    exact .inr ⟨rfl, by simpa using h⟩

@[simp] theorem valid_regByte (r : Reg) : RegByte.valid (regByte r) = true := by
  rcases regOperand_cases (regByte r) with ⟨_, _, _, h⟩ | ⟨h, _⟩
  · exact h
  · simp at h

/-! ### Instructions as a whole -/

/-- The only two ways an instruction over `attempt` ends. -/
theorem attempt_cases (f : Format) (s : State) (body : State → Except ExecResult State) :
    (∃ w, body (s.enter f) = .ok w ∧ attempt f s body = .next w.advance) ∨
      (∃ e, body (s.enter f) = .error e ∧ attempt f s body = .next (s.endRun e)) := by
  unfold attempt
  split
  · exact .inl ⟨_, ‹_›, rfl⟩
  · exact .inr ⟨_, ‹_›, rfl⟩

theorem attempt_ok {f : Format} {s w : State} {body : State → Except ExecResult State}
    (h : body (s.enter f) = .ok w) : attempt f s body = .next w.advance := by
  simp [attempt, h]

theorem attempt_error {f : Format} {s : State} {e : ExecResult}
    {body : State → Except ExecResult State} (h : body (s.enter f) = .error e) :
    attempt f s body = .next (s.endRun e) := by
  simp [attempt, h, raise]

/-! ### Binding in `Except` -/

@[simp] theorem ok_bind {α β : Type} (a : α) (k : α → Except ExecResult β) :
    ((Except.ok a : Except ExecResult α) >>= k) = k a := rfl

@[simp] theorem error_bind {α β : Type} (e : ExecResult) (k : α → Except ExecResult β) :
    ((Except.error e : Except ExecResult α) >>= k) = .error e := rfl

@[simp] theorem pure_eq_ok {α : Type} (a : α) : (pure a : Except ExecResult α) = .ok a := rfl

/-! ### The forms on valid operands -/

theorem literalForm_next (f : Format) (v : Word) (d : Reg) (s : State) :
    literalForm f v (regByte d) s = .next ((s.enter f).setReg d v).advance :=
  attempt_ok (by simp)

theorem inPlaceForm_next (op : Word → Word) (d : Reg) (s : State) :
    inPlaceForm op (regByte d) s =
      .next ((s.enter .FR).setReg d (op ((s.enter .FR).reg d))).advance :=
  attempt_ok (by simp)

theorem moveForm_next (op : Word → Word) (d r : Reg) (s : State) :
    moveForm op (regByte d) (regByte r) s =
      .next ((s.enter .FRR).setReg d (op ((s.enter .FRR).reg r))).advance :=
  attempt_ok (by simp)

theorem accumulateForm_next (op : Word → Word → Except ExecResult Word) (d r : Reg) (s : State)
    {v : Word} (h : op ((s.enter .FRR).reg d) ((s.enter .FRR).reg r) = .ok v) :
    accumulateForm op (regByte d) (regByte r) s = .next ((s.enter .FRR).setReg d v).advance :=
  attempt_ok (by simp only [regOperand_regByte, ok_bind, h, pure_eq_ok])

theorem accumulateForm_raise (op : Word → Word → Except ExecResult Word) (d r : Reg) (s : State)
    {e : ExecResult} (h : op ((s.enter .FRR).reg d) ((s.enter .FRR).reg r) = .error e) :
    accumulateForm op (regByte d) (regByte r) s = .next (s.endRun e) :=
  attempt_error (by simp only [regOperand_regByte, ok_bind, h, error_bind])

theorem threeForm_next (op : Word → Word → Word) (d a b : Reg) (s : State) :
    threeForm op (regByte d) (regByte a) (regByte b) s =
      .next ((s.enter .FRRR).setReg d
        (op ((s.enter .FRRR).reg a) ((s.enter .FRRR).reg b))).advance :=
  attempt_ok (by simp)

theorem loadAbsForm_next (n : Nat) (d : Reg) (addr : Half) (s : State) {v : Word}
    (h : (s.enter .FRH).memRead (zext16 addr) n = .ok v) :
    loadAbsForm n (regByte d) addr s = .next ((s.enter .FRH).setReg d v).advance :=
  attempt_ok (by simp [h])

theorem loadIndForm_next (n : Nat) (d p : Reg) (s : State) {v : Word}
    (h : (s.enter .FRR).memRead ((s.enter .FRR).reg p) n = .ok v) :
    loadIndForm n (regByte d) (regByte p) s = .next ((s.enter .FRR).setReg d v).advance :=
  attempt_ok (by simp only [regOperand_regByte, ok_bind, h, pure_eq_ok])

theorem storeAbsForm_next (n : Nat) (r : Reg) (addr : Half) (s : State) {w : State}
    (h : (s.enter .FRH).memWrite (zext16 addr) n ((s.enter .FRH).reg r) = .ok w) :
    storeAbsForm n (regByte r) addr s = .next w.advance :=
  attempt_ok (by simp only [regOperand_regByte, ok_bind, h])

theorem storeIndForm_next (n : Nat) (r p : Reg) (s : State) {w : State}
    (h : (s.enter .FRR).memWrite ((s.enter .FRR).reg p) n ((s.enter .FRR).reg r) = .ok w) :
    storeIndForm n (regByte r) (regByte p) s = .next w.advance :=
  attempt_ok (by simp only [regOperand_regByte, ok_bind, h])

theorem jumpOneForm_next (taken : Word → Bool) (addr : Half) (a : Reg) (s : State) :
    jumpOneForm taken addr (regByte a) s =
      .next (if taken ((s.enter .FHR).reg a) then (s.enter .FHR).jump (zext16 addr)
        else s.enter .FHR).advance :=
  attempt_ok (by simp)

theorem jumpTwoForm_next (c : Cond) (addr : Half) (a b : Reg) (s : State) :
    jumpTwoForm c addr (regByte a) (regByte b) s =
      .next (if condHolds c ((s.enter .FHRR).reg a) ((s.enter .FHRR).reg b) then
        (s.enter .FHRR).jump (zext16 addr) else s.enter .FHRR).advance :=
  attempt_ok (by simp)

/-! ### Host-port forms -/

/-- What a request can answer (R270). -/
theorem request_cases (s : State) (q : Request) :
    (q.kind ∈ s.hostKinds ∧ s.request q = .ok (s.transact (.request q))) ∨
      (q.kind ∉ s.hostKinds ∧ s.request q = .error .unsupportedOpcode) := by
  unfold State.request
  split
  · exact .inl ⟨‹_›, rfl⟩
  · exact .inr ⟨‹_›, rfl⟩

theorem requestAt_ok (f : Format) {s : State} {q : Request} (h : q.kind ∈ s.hostKinds) :
    requestAt f s q = .ok (s.callback (.request q), (s.transact (.request q)).2.enter f) := by
  simp [requestAt, State.request, h, State.transact]

theorem requestAt_error (f : Format) {s : State} {q : Request} (h : q.kind ∉ s.hostKinds) :
    requestAt f s q = .error .unsupportedOpcode := by
  simp [requestAt, State.request, h]

theorem outputForm_next (q : Word → Bool → Request) (r : Reg) (nl : Byte) (s : State)
    (h : (q ((s.enter .FRB).reg r) (newline nl)).kind ∈ s.hostKinds) :
    outputForm q (regByte r) nl s =
      .next ((s.transact (.request (q ((s.enter .FRB).reg r) (newline nl)))).2.enter .FRB).advance :=
  attempt_ok (by simp only [regOperand_regByte, ok_bind, requestAt_ok .FRB h, pure_eq_ok])

theorem inputForm_next (q : Request) (value : Callback → Word) (d : Reg) (s : State)
    (h : q.kind ∈ s.hostKinds) :
    inputForm q value (regByte d) s =
      .next (((s.transact (.request q)).2.enter .FR).setReg d
        (value (s.callback (.request q)))).advance :=
  attempt_ok (by simp only [regOperand_regByte, ok_bind, requestAt_ok .FR h, pure_eq_ok])

theorem pinReadForm_next (q : Word → Request) (d p : Reg) (s : State)
    (h : (q ((s.enter .FRR).reg p)).kind ∈ s.hostKinds) :
    pinReadForm q (regByte d) (regByte p) s =
      .next (((s.transact (.request (q ((s.enter .FRR).reg p)))).2.enter .FRR).setReg d
        (s.callback (.request (q ((s.enter .FRR).reg p)))).value).advance :=
  attempt_ok (by simp only [regOperand_regByte, ok_bind, requestAt_ok .FRR h, pure_eq_ok])

theorem pinWriteForm_next (q : Word → Word → Request) (p v : Reg) (s : State)
    (h : (q ((s.enter .FRR).reg p) ((s.enter .FRR).reg v)).kind ∈ s.hostKinds) :
    pinWriteForm q (regByte p) (regByte v) s =
      .next ((s.transact (.request
        (q ((s.enter .FRR).reg p) ((s.enter .FRR).reg v)))).2.enter .FRR).advance :=
  attempt_ok (by simp only [regOperand_regByte, ok_bind, requestAt_ok .FRR h, pure_eq_ok])

end Sys2Proof.Machine
end

