-- ==== Sys2Proof/Laws/Memory.lean ====
section
/-! SUPPORT. The laws of memory: what a read gives after each operation, and that every operation
keeps the canonical form. -/

namespace Sys2Proof.Machine

/-! ### Reading after a write -/

@[simp] theorem Memory.read_nil (a : Nat) : Memory.read [] a = unlistedByte := rfl

theorem Memory.read_cons (c : Host.Cell) (m : Memory) (a : Nat) :
    Memory.read (c :: m) a = if c.1 = a then c.2 else Memory.read m a := rfl

theorem Memory.read_erase (m : Memory) (a x : Nat) :
    (m.erase a).read x = if x = a then unlistedByte else m.read x := by
  induction m with
  | nil => simp [Memory.erase]
  | cons c m ih =>
    unfold Memory.erase at ih ⊢
    by_cases hc : c.1 = a
    · rw [List.filter_cons_of_neg (by simp [hc]), ih, Memory.read_cons, hc]
      by_cases hx : x = a
      · simp [hx]
      · simp [hx, Ne.symm hx]
    · rw [List.filter_cons_of_pos (by simp [hc]), Memory.read_cons, Memory.read_cons, ih]
      by_cases hx : x = a
      · simp [hx, hc]
      · simp [hx]

theorem Memory.read_insert (m : Memory) (a : Nat) (b : Byte) (x : Nat)
    (h : ∀ c ∈ m, c.1 ≠ a) : (m.insert a b).read x = if x = a then b else m.read x := by
  induction m with
  | nil => simp [Memory.insert, Memory.read_cons, eq_comm]
  | cons c m ih =>
    have hc : c.1 ≠ a := h c (by simp)
    have ih := ih (fun d hd => h d (by simp [hd]))
    unfold Memory.insert
    split
    · simp only [Memory.read_cons, eq_comm (a := x)]
    · rw [Memory.read_cons, Memory.read_cons, ih]
      by_cases hx : x = a
      · simp [hx, hc]
      · simp [hx]

theorem Memory.not_mem_erase (m : Memory) (a : Nat) : ∀ c ∈ m.erase a, c.1 ≠ a := by
  intro c hc
  simpa [Memory.erase] using (List.mem_filter.mp hc).2

/-- A read after a write: the written byte at its address, every other byte as it was. -/
@[simp] theorem Memory.read_write (m : Memory) (a : Nat) (b : Byte) (x : Nat) :
    (m.write a b).read x = if x = a then b else m.read x := by
  unfold Memory.write
  split
  · rename_i h
    rw [Memory.read_erase, h]
  · rw [Memory.read_insert _ _ _ _ (m.not_mem_erase a), Memory.read_erase]
    by_cases hx : x = a <;> simp [hx]

/-- A read after consecutive bytes are written. -/
theorem Memory.read_writeBytes (bs : List Byte) (m : Memory) (a x : Nat) :
    (m.writeBytes a bs).read x =
      if a ≤ x ∧ x < a + bs.length then bs.getD (x - a) 0 else m.read x := by
  induction bs generalizing m a with
  | nil => simp only [Memory.writeBytes, List.length_nil]; rw [if_neg (by omega)]
  | cons b bs ih =>
    simp only [Memory.writeBytes, List.length_cons, ih, Memory.read_write]
    by_cases hx : x = a
    · subst hx
      simp
    · by_cases hr : a ≤ x ∧ x < a + (bs.length + 1)
      · rw [if_pos (by omega), if_pos hr, show x - a = (x - (a + 1)) + 1 by omega,
          List.getD_cons_succ]
      · rw [if_neg (by omega), if_neg hr, if_neg hx]

@[simp] theorem Memory.length_readBytes (n : Nat) (m : Memory) (a : Nat) :
    (m.readBytes a n).length = n := by
  induction n generalizing a with
  | zero => rfl
  | succ n ih => simp [Memory.readBytes, ih]

theorem Memory.getD_readBytes (n : Nat) (m : Memory) (a k : Nat) (h : k < n) :
    (m.readBytes a n).getD k 0 = m.read (a + k) := by
  induction n generalizing a k with
  | zero => omega
  | succ n ih =>
    cases k with
    | zero => simp [Memory.readBytes]
    | succ k =>
      simp only [Memory.readBytes, List.getD_cons_succ]
      rw [ih (a + 1) k (by omega), show a + 1 + k = a + (k + 1) by omega]

/-- Bytes read depend only on the bytes of their range. -/
theorem Memory.readBytes_congr (n : Nat) (m m' : Memory) (a : Nat)
    (h : ∀ x, a ≤ x → x < a + n → m.read x = m'.read x) :
    m.readBytes a n = m'.readBytes a n := by
  induction n generalizing a with
  | zero => rfl
  | succ n ih =>
    simp only [Memory.readBytes]
    rw [h a (by omega) (by omega), ih (a + 1) (fun x h1 h2 => h x (by omega) (by omega))]

/-- Bytes just written are read back. -/
theorem Memory.readBytes_writeBytes (bs : List Byte) (m : Memory) (a : Nat) :
    (m.writeBytes a bs).readBytes a bs.length = bs := by
  apply List.ext_getElem
  · simp
  · intro k h1 h2
    have := Memory.getD_readBytes bs.length (m.writeBytes a bs) a k h2
    rw [Memory.read_writeBytes, if_pos (by omega), show a + k - a = k by omega] at this
    simpa [List.getD_eq_getElem?_getD, h2] using this

/-- R155: every byte outside the destination of a copy is as it was. -/
theorem Memory.read_copyForward_outside (n : Nat) (m : Memory) (dst src x : Nat)
    (h : x < dst ∨ dst + n ≤ x) : (m.copyForward dst src n).read x = m.read x := by
  induction n generalizing m dst src with
  | zero => rfl
  | succ n ih =>
    simp only [Memory.copyForward]
    rw [ih _ _ _ (by omega), Memory.read_write, if_neg (by omega)]

/-! ### The canonical form -/

theorem Memory.wf_cons_cons (c d : Host.Cell) (m : Memory) :
    Memory.wf (c :: d :: m) = true ↔ c.2 ≠ unlistedByte ∧ c.1 < d.1 ∧ Memory.wf (d :: m) = true := by
  simp [Memory.wf, and_assoc]

theorem Memory.wf_tail {c : Host.Cell} {m : Memory} (h : Memory.wf (c :: m) = true) :
    Memory.wf m = true := by
  cases m with
  | nil => rfl
  | cons d m => exact ((Memory.wf_cons_cons c d m).mp h).2.2

theorem Memory.wf_head {c : Host.Cell} {m : Memory} (h : Memory.wf (c :: m) = true) :
    c.2 ≠ unlistedByte := by
  cases m with
  | nil => simpa [Memory.wf] using h
  | cons d m => exact ((Memory.wf_cons_cons c d m).mp h).1

/-- In canonical form every address after the first is above it. -/
theorem Memory.wf_lt {c : Host.Cell} {m : Memory} (h : Memory.wf (c :: m) = true) :
    ∀ d ∈ m, c.1 < d.1 := by
  induction m generalizing c with
  | nil => simp
  | cons d m ih =>
    intro e he
    obtain ⟨_, hlt, hwf⟩ := (Memory.wf_cons_cons c d m).mp h
    rcases List.mem_cons.mp he with rfl | he
    · exact hlt
    · exact lt_trans hlt (ih hwf e he)

/-- The canonical form, put together from a first entry and the rest. -/
theorem Memory.wf_cons {c : Host.Cell} {m : Memory} (h : Memory.wf m = true)
    (hb : c.2 ≠ unlistedByte) (hlt : ∀ d ∈ m, c.1 < d.1) : Memory.wf (c :: m) = true := by
  cases m with
  | nil => simpa [Memory.wf] using hb
  | cons d m => exact (Memory.wf_cons_cons c d m).mpr ⟨hb, hlt d (by simp), h⟩

theorem Memory.erase_wf {m : Memory} (a : Nat) (h : m.wf = true) : (m.erase a).wf = true := by
  induction m with
  | nil => rfl
  | cons c m ih =>
    have ih := ih (Memory.wf_tail h)
    unfold Memory.erase at ih ⊢
    by_cases hc : c.1 = a
    · rwa [List.filter_cons_of_neg (by simp [hc])]
    · rw [List.filter_cons_of_pos (by simp [hc])]
      exact Memory.wf_cons ih (Memory.wf_head h)
        (fun d hd => Memory.wf_lt h d (List.mem_filter.mp hd).1)

theorem Memory.mem_insert (m : Memory) (a : Nat) (b : Byte) (d : Host.Cell)
    (h : d ∈ m.insert a b) : d = (a, b) ∨ d ∈ m := by
  induction m with
  | nil => exact .inl (by simpa [Memory.insert] using h)
  | cons c m ih =>
    unfold Memory.insert at h
    split at h
    · rcases List.mem_cons.mp h with h | h
      · exact .inl h
      · exact .inr h
    · rcases List.mem_cons.mp h with h | h
      · exact .inr (by simp [h])
      · exact (ih h).imp id (by simp +contextual)

theorem Memory.insert_wf {m : Memory} (a : Nat) (b : Byte) (h : m.wf = true)
    (hb : b ≠ unlistedByte) (hne : ∀ c ∈ m, c.1 ≠ a) : (m.insert a b).wf = true := by
  induction m with
  | nil => simpa [Memory.insert, Memory.wf] using hb
  | cons c m ih =>
    have hc : c.1 ≠ a := hne c (by simp)
    unfold Memory.insert
    split
    · rename_i hlt
      refine Memory.wf_cons h hb (fun d hd => ?_)
      rcases List.mem_cons.mp hd with rfl | hd
      · exact hlt
      · exact lt_trans hlt (Memory.wf_lt h d hd)
    · refine Memory.wf_cons (ih (Memory.wf_tail h) (fun d hd => hne d (by simp [hd])))
        (Memory.wf_head h) (fun d hd => ?_)
      rcases Memory.mem_insert m a b d hd with rfl | hd
      · simp only; omega
      · exact Memory.wf_lt h d hd

/-- A write keeps the canonical form. -/
theorem Memory.write_wf {m : Memory} (a : Nat) (b : Byte) (h : m.wf = true) :
    (m.write a b).wf = true := by
  unfold Memory.write
  split
  · exact Memory.erase_wf a h
  · exact Memory.insert_wf a b (Memory.erase_wf a h) ‹_› (m.not_mem_erase a)

/-- Consecutive writes keep the canonical form. -/
theorem Memory.writeBytes_wf (bs : List Byte) {m : Memory} (a : Nat) (h : m.wf = true) :
    (m.writeBytes a bs).wf = true := by
  induction bs generalizing m a with
  | nil => exact h
  | cons b bs ih => exact ih (a + 1) (Memory.write_wf a b h)

/-- A forward copy keeps the canonical form. -/
theorem Memory.copyForward_wf (n : Nat) {m : Memory} (dst src : Nat) (h : m.wf = true) :
    (m.copyForward dst src n).wf = true := by
  induction n generalizing m dst src with
  | zero => exact h
  | succ n ih => exact ih (dst + 1) (src + 1) (Memory.write_wf _ _ h)

/-- Where a write lists bytes: at the address, or where the memory listed one. -/
theorem Memory.mem_write (m : Memory) (a : Nat) (b : Byte) (d : Host.Cell)
    (h : d ∈ m.write a b) : d.1 = a ∨ d ∈ m := by
  unfold Memory.write at h
  split at h
  · exact .inr (List.mem_filter.mp h).1
  · rcases Memory.mem_insert _ _ _ _ h with rfl | h
    · exact .inl rfl
    · exact .inr (List.mem_filter.mp h).1

/-- Writes inside a bound keep every listed address inside it. -/
theorem Memory.writeBytes_below (bs : List Byte) (m : Memory) (a n : Nat)
    (h : ∀ d ∈ m, d.1 < n) (hb : a + bs.length ≤ n) : ∀ d ∈ m.writeBytes a bs, d.1 < n := by
  induction bs generalizing m a with
  | nil => exact h
  | cons b bs ih =>
    simp only [List.length_cons] at hb
    refine ih _ _ (fun d hd => ?_) (by omega)
    rcases Memory.mem_write m a b d hd with hd | hd
    · omega
    · exact h d hd

/-- A copy inside a bound keeps every listed address inside it. -/
theorem Memory.copyForward_below (k : Nat) (m : Memory) (dst src n : Nat)
    (h : ∀ d ∈ m, d.1 < n) (hb : dst + k ≤ n) : ∀ d ∈ m.copyForward dst src k, d.1 < n := by
  induction k generalizing m dst src with
  | zero => exact h
  | succ k ih =>
    refine ih _ _ _ (fun d hd => ?_) (by omega)
    rcases Memory.mem_write m dst _ d hd with hd | hd
    · omega
    · exact h d hd

/-- Two memories in canonical form that read alike everywhere are equal. -/
theorem Memory.ext_of_read {m m' : Memory} (h : m.wf = true) (h' : m'.wf = true)
    (hr : ∀ a, m.read a = m'.read a) : m = m' := by
  have absent : ∀ (m : Memory) (a : Nat), (∀ d ∈ m, a < d.1) → m.read a = unlistedByte := by
    intro m a hm
    induction m with
    | nil => rfl
    | cons c m ih =>
      rw [Memory.read_cons, if_neg (by have := hm c (by simp); omega)]
      exact ih (fun d hd => hm d (by simp [hd]))
  induction m generalizing m' with
  | nil =>
    cases m' with
    | nil => rfl
    | cons d m' =>
      have := hr d.1
      rw [Memory.read_nil, Memory.read_cons, if_pos rfl] at this
      exact absurd this.symm (Memory.wf_head h')
  | cons c m ih =>
    cases m' with
    | nil =>
      have := hr c.1
      rw [Memory.read_nil, Memory.read_cons, if_pos rfl] at this
      exact absurd this (Memory.wf_head h)
    | cons d m' =>
      have hcd : c.1 = d.1 := by
        rcases Nat.lt_trichotomy c.1 d.1 with hlt | heq | hgt
        · have := hr c.1
          rw [Memory.read_cons, if_pos rfl, absent (d :: m') c.1 (fun e he => by
            rcases List.mem_cons.mp he with rfl | he
            · exact hlt
            · exact lt_trans hlt (Memory.wf_lt h' e he))] at this
          exact absurd this (Memory.wf_head h)
        · exact heq
        · have := hr d.1
          rw [Memory.read_cons (c := d), if_pos rfl, absent (c :: m) d.1 (fun e he => by
            rcases List.mem_cons.mp he with rfl | he
            · exact hgt
            · exact lt_trans hgt (Memory.wf_lt h e he))] at this
          exact absurd this.symm (Memory.wf_head h')
      have hb : c.2 = d.2 := by
        have := hr c.1
        rwa [Memory.read_cons, if_pos rfl, Memory.read_cons, if_pos hcd.symm] at this
      have htail : m = m' := by
        refine ih (Memory.wf_tail h) (Memory.wf_tail h') (fun a => ?_)
        by_cases ha : a = c.1
        · rw [ha, absent m c.1 (Memory.wf_lt h), absent m' c.1 (hcd ▸ Memory.wf_lt h')]
        · have := hr a
          rwa [Memory.read_cons, if_neg (Ne.symm ha), Memory.read_cons,
            if_neg (by omega)] at this
      rw [htail, Prod.ext hcd hb]

end Sys2Proof.Machine
end

