-- ==== Sys2Proof/Laws/Ops.lean ====
section
/-! SUPPORT. What each shared operation can do, said once: the range-checked memory primitives, the
block copy, the stack primitives, the scans, the accessors and the callbacks. -/

namespace Sys2Proof.Machine

/-! ### Byte groups -/

@[simp] theorem leBytes_length (n v : Nat) : (leBytes n v).length = n := by
  induction n generalizing v with
  | zero => rfl
  | succ n ih => simp [leBytes, ih]

/-- Byte `k` of a little-endian group. -/
theorem getD_leBytes (n v k : Nat) (h : k < n) :
    (leBytes n v).getD k 0 = BitVec.ofNat 8 (v / 256 ^ k) := by
  induction n generalizing v k with
  | zero => omega
  | succ n ih =>
    cases k with
    | zero => simp [leBytes]
    | succ k =>
      simp only [leBytes, List.getD_cons_succ]
      rw [ih _ _ (by omega), Nat.div_div_eq_div_mul, pow_succ, Nat.mul_comm]

/-- A group of `n` bytes spells back the number it was made of, modulo 2^(8n). -/
theorem leNat_leBytes (n v : Nat) : leNat (leBytes n v) = v % 256 ^ n := by
  induction n generalizing v with
  | zero => simp [leBytes, leNat, Nat.mod_one]
  | succ n ih =>
    have h := Nat.mod_mul (x := v) (a := 256) (b := 256 ^ n)
    simp only [leBytes, leNat, ih, BitVec.toNat_ofNat]
    rw [show 256 ^ (n + 1) = 256 * 256 ^ n from Nat.pow_succ', h]

theorem leNat_readBytes (n : Nat) (m : Memory) (a : Nat) :
    leNat (m.readBytes a n) = littleEndian m a n := by
  induction n generalizing a with
  | zero => rfl
  | succ n ih => simp [Memory.readBytes, leNat, littleEndian, ih]

theorem littleEndian_lt (n : Nat) (m : Memory) (a : Nat) : littleEndian m a n < 256 ^ n := by
  induction n generalizing a with
  | zero => simp [littleEndian]
  | succ n ih =>
    have h1 := ih (a + 1)
    have h2 := (m.read a).isLt
    simp only [littleEndian, pow_succ]
    omega

/-- The value of a group depends only on its bytes. -/
theorem littleEndian_congr (n : Nat) (m m' : Memory) (a : Nat)
    (h : ∀ x, a ≤ x → x < a + n → m.read x = m'.read x) :
    littleEndian m a n = littleEndian m' a n := by
  rw [← leNat_readBytes, ← leNat_readBytes, Memory.readBytes_congr n m m' a h]

/-- What was stored is what is loaded (R42, R44, R45). -/
theorem littleEndian_writeBytes (n v : Nat) (m : Memory) (a : Nat) :
    littleEndian (m.writeBytes a (leBytes n v)) a n = v % 256 ^ n := by
  have h := Memory.readBytes_writeBytes (leBytes n v) m a
  rw [leBytes_length] at h
  rw [← leNat_readBytes, h, leNat_leBytes]

/-! ### `memRead` and `memWrite` -/

/-- R44: the only two answers of `MemRead`. -/
theorem State.memRead_cases (s : State) (a : Word) (n : Nat) :
    (a.toNat + n ≤ s.memSize ∧
      s.memRead a n = .ok (BitVec.ofNat 32 (littleEndian s.mem a.toNat n))) ∨
      (s.memSize < a.toNat + n ∧ s.memRead a n = .error .invalidAddress) := by
  unfold State.memRead
  split
  · exact .inr ⟨by omega, rfl⟩
  · exact .inl ⟨by omega, by rw [leNat_readBytes]⟩

theorem State.memRead_ok {s : State} {a : Word} {n : Nat} (h : a.toNat + n ≤ s.memSize) :
    s.memRead a n = .ok (BitVec.ofNat 32 (littleEndian s.mem a.toNat n)) := by
  rcases s.memRead_cases a n with ⟨_, h'⟩ | ⟨h', _⟩
  · exact h'
  · omega

theorem State.memRead_error {s : State} {a : Word} {n : Nat} (h : s.memSize < a.toNat + n) :
    s.memRead a n = .error .invalidAddress := by
  rcases s.memRead_cases a n with ⟨h', _⟩ | ⟨_, h'⟩
  · omega
  · exact h'

/-- R45: the only two answers of `MemWrite`; only memory can change. -/
theorem State.memWrite_cases (s : State) (a : Word) (n : Nat) (v : Word) :
    (a.toNat + n ≤ s.memSize ∧
      s.memWrite a n v = .ok { s with mem := s.mem.writeBytes a.toNat (leBytes n v.toNat) }) ∨
      (s.memSize < a.toNat + n ∧ s.memWrite a n v = .error .invalidAddress) := by
  unfold State.memWrite
  split
  · exact .inr ⟨by omega, rfl⟩
  · exact .inl ⟨by omega, rfl⟩

theorem State.memWrite_ok {s : State} {a : Word} {n : Nat} (v : Word)
    (h : a.toNat + n ≤ s.memSize) :
    s.memWrite a n v = .ok { s with mem := s.mem.writeBytes a.toNat (leBytes n v.toNat) } := by
  rcases s.memWrite_cases a n v with ⟨_, h'⟩ | ⟨h', _⟩
  · exact h'
  · omega

theorem State.memWrite_error {s : State} {a : Word} {n : Nat} (v : Word)
    (h : s.memSize < a.toNat + n) : s.memWrite a n v = .error .invalidAddress := by
  rcases s.memWrite_cases a n v with ⟨h', _⟩ | ⟨_, h'⟩
  · omega
  · exact h'

/-- Writing the bytes of `v` stores it as `MemoryAfterStore` says. -/
theorem memoryAfterStore_writeBytes (s t : State) (a n : Nat) (v : Word)
    (h : t.mem = s.mem.writeBytes a (leBytes n v.toNat)) : MemoryAfterStore s a n v t := by
  refine ⟨fun k hk => ?_, fun x hx => ?_⟩
  · rw [h, Memory.read_writeBytes, leBytes_length, if_pos (by omega), show a + k - a = k by omega,
      getD_leBytes _ _ _ hk]
    apply BitVec.eq_of_toNat_eq
    rw [BitVec.extractLsb'_toNat, BitVec.toNat_ofNat, Nat.shiftRight_eq_div_pow, pow_mul]
    rfl
  · rw [h, Memory.read_writeBytes, leBytes_length, if_neg (by omega)]

/-! ### Block copy -/

/-- R155: byte `k` of the destination after a forward copy: byte `k` of the old source, or, when the
destination starts inside the source, the byte at `k` modulo the distance. -/
theorem Memory.read_copyForward (n : Nat) (m : Memory) (dst src k : Nat) (h : k < n) :
    (m.copyForward dst src n).read (dst + k) =
      m.read (src + if src < dst then k % (dst - src) else k) := by
  induction n generalizing m dst src k with
  | zero => omega
  | succ n ih =>
    simp only [Memory.copyForward]
    cases k with
    | zero =>
      rw [Memory.read_copyForward_outside _ _ _ _ _ (by omega)]
      simp
    | succ k =>
      rw [show dst + (k + 1) = dst + 1 + k by omega, ih _ _ _ _ (by omega), Memory.read_write]
      by_cases hlt : src < dst
      · have hd : dst + 1 - (src + 1) = dst - src := by omega
        rw [if_pos (show src + 1 < dst + 1 by omega), if_pos hlt, hd]
        obtain ⟨d, hd0, hd1⟩ : ∃ d, d = dst - src ∧ 0 < d := ⟨_, rfl, by omega⟩
        rw [← hd0]
        have hk := Nat.mod_lt k hd1
        rw [Nat.add_mod k 1 d]
        by_cases hd2 : d = 1
        · subst hd2
          simp only [Nat.mod_one] at hk ⊢
          rw [if_pos (by omega)]
          congr 1
        · rw [Nat.mod_eq_of_lt (show 1 < d by omega)]
          by_cases he : k % d + 1 = d
          · rw [if_pos (by omega), he, Nat.mod_self]
            congr 1
          · rw [if_neg (by omega), Nat.mod_eq_of_lt (show k % d + 1 < d by omega)]
            congr 1; omega
      · rw [if_neg (show ¬ src + 1 < dst + 1 by omega), if_neg hlt, if_neg (by omega)]
        congr 1; omega

/-- R155: the only answers of `BlockCopy`; only memory can change. -/
theorem State.blockCopy_cases (s : State) (dst src len : Word) :
    (src.toNat + len.toNat ≤ s.memSize ∧ dst.toNat + len.toNat ≤ s.memSize ∧
      s.blockCopy dst src len =
        .ok { s with mem := s.mem.copyForward dst.toNat src.toNat len.toNat }) ∨
      ((s.memSize < src.toNat + len.toNat ∨ s.memSize < dst.toNat + len.toNat) ∧
        s.blockCopy dst src len = .error .invalidAddress) := by
  unfold State.blockCopy
  split
  · exact .inr ⟨.inl (by omega), rfl⟩
  · split
    · exact .inr ⟨.inr (by omega), rfl⟩
    · exact .inl ⟨by omega, by omega, rfl⟩

/-! ### The stack -/

theorem toNat_sub_four {sp : Word} (h : 4 ≤ sp.toNat) : (sp - 4).toNat = sp.toNat - 4 := by
  rw [BitVec.toNat_sub_of_le (by rw [BitVec.le_def]; simpa using h)]
  rfl

theorem toNat_add_of_lt {sp : Word} {n : Nat} (h : sp.toNat + n < 2 ^ 32) :
    (sp + BitVec.ofNat 32 n).toNat = sp.toNat + n := by
  rw [BitVec.toNat_add, BitVec.toNat_ofNat, Nat.add_mod_mod, Nat.mod_eq_of_lt h]

/-- The state after a push that its checks allow (R121). -/
def State.pushed (s : State) (v : Word) : State :=
  State.setReg
    { s with mem := s.mem.writeBytes ((s.reg .sp).toNat - 4) (leBytes 4 v.toNat) } .sp
    (s.reg .sp - 4)

/-- R121: everything a push can answer. -/
theorem State.pushWord_cases (s : State) (v : Word) :
    ((s.reg .sp).toNat ≤ s.progLen + 4 ∧ s.pushWord v = .error .stackOverflow) ∨
    (s.progLen + 4 < (s.reg .sp).toNat ∧ s.memSize < (s.reg .sp).toNat ∧
      s.pushWord v = .error .invalidAddress) ∨
    (s.progLen + 4 < (s.reg .sp).toNat ∧ (s.reg .sp).toNat ≤ s.memSize ∧
      s.pushWord v = .ok (s.pushed v)) := by
  unfold State.pushWord
  split
  · exact .inl ⟨by omega, rfl⟩
  · split
    · exact .inr (.inl ⟨by omega, by omega, rfl⟩)
    · refine .inr (.inr ⟨by omega, by omega, ?_⟩)
      have h4 := toNat_sub_four (sp := s.reg .sp) (by omega)
      rw [State.memWrite_ok v (by omega), h4]
      rfl

@[simp] theorem State.pushed_mem (s : State) (v : Word) :
    (s.pushed v).mem = s.mem.writeBytes ((s.reg .sp).toNat - 4) (leBytes 4 v.toNat) := rfl
@[simp] theorem State.reg_pushed (s : State) (v : Word) (q : Reg) :
    (s.pushed v).reg q = if q = .sp then s.reg .sp - 4 else s.reg q := by
  rw [State.pushed, State.reg_setReg]
  rfl
@[simp] theorem State.pushed_hook (s : State) (v : Word) : (s.pushed v).hook = s.hook := rfl
@[simp] theorem State.pushed_phase (s : State) (v : Word) : (s.pushed v).phase = s.phase := rfl
@[simp] theorem State.pushed_progLen (s : State) (v : Word) : (s.pushed v).progLen = s.progLen := rfl
@[simp] theorem State.pushed_stackCap (s : State) (v : Word) :
    (s.pushed v).stackCap = s.stackCap := rfl
@[simp] theorem State.pushed_hostKinds (s : State) (v : Word) :
    (s.pushed v).hostKinds = s.hostKinds := rfl
@[simp] theorem State.pushed_i2sFormat (s : State) (v : Word) :
    (s.pushed v).i2sFormat = s.i2sFormat := rfl
@[simp] theorem State.pushed_s2iParse (s : State) (v : Word) :
    (s.pushed v).s2iParse = s.s2iParse := rfl
@[simp] theorem State.pushed_script (s : State) (v : Word) : (s.pushed v).script = s.script := rfl
@[simp] theorem State.pushed_trace (s : State) (v : Word) : (s.pushed v).trace = s.trace := rfl
@[simp] theorem State.pushed_inbox (s : State) (v : Word) : (s.pushed v).inbox = s.inbox := rfl
@[simp] theorem State.pushed_replies (s : State) (v : Word) : (s.pushed v).replies = s.replies := rfl
@[simp] theorem State.pushed_memSize (s : State) (v : Word) : (s.pushed v).memSize = s.memSize := rfl

/-- R122, R126: everything reading the top can answer. -/
theorem State.topWord_cases (s : State) :
    ((s.memSize ≤ (s.reg .sp).toNat ∨ (s.reg .sp).toNat < s.progLen) ∧
      s.topWord = .error .stackUnderflow) ∨
    (s.progLen ≤ (s.reg .sp).toNat ∧ (s.reg .sp).toNat < s.memSize ∧
      s.memSize < (s.reg .sp).toNat + 4 ∧ s.topWord = .error .invalidAddress) ∨
    (s.progLen ≤ (s.reg .sp).toNat ∧ (s.reg .sp).toNat + 4 ≤ s.memSize ∧
      s.topWord = .ok (BitVec.ofNat 32 (littleEndian s.mem (s.reg .sp).toNat 4))) := by
  unfold State.topWord
  split
  · exact .inl ⟨‹_›, rfl⟩
  · rcases s.memRead_cases (s.reg .sp) 4 with ⟨h, e⟩ | ⟨h, e⟩
    · exact .inr (.inr ⟨by omega, h, e⟩)
    · exact .inr (.inl ⟨by omega, by omega, h, e⟩)

/-- R122: everything a pop can answer. -/
theorem State.popWord_cases (s : State) :
    ((s.memSize ≤ (s.reg .sp).toNat ∨ (s.reg .sp).toNat < s.progLen) ∧
      s.popWord = .error .stackUnderflow) ∨
    (s.progLen ≤ (s.reg .sp).toNat ∧ (s.reg .sp).toNat < s.memSize ∧
      s.memSize < (s.reg .sp).toNat + 4 ∧ s.popWord = .error .invalidAddress) ∨
    (s.progLen ≤ (s.reg .sp).toNat ∧ (s.reg .sp).toNat + 4 ≤ s.memSize ∧
      s.popWord = .ok (BitVec.ofNat 32 (littleEndian s.mem (s.reg .sp).toNat 4),
        s.setReg .sp (s.reg .sp + 4))) := by
  unfold State.popWord
  rcases s.topWord_cases with ⟨h, e⟩ | ⟨h, h', h'', e⟩ | ⟨h, h', e⟩
  · exact .inl ⟨h, by simp [e]⟩
  · exact .inr (.inl ⟨h, h', h'', by simp [e]⟩)
  · exact .inr (.inr ⟨h, h', by simp [e]⟩)

/-- R125: everything a double pop can answer, where addresses do not wrap. -/
theorem State.popTwo_cases (s : State) (hm : s.memSize < 2 ^ 32) :
    ((s.memSize ≤ (s.reg .sp).toNat + 4 ∨ (s.reg .sp).toNat < s.progLen) ∧
      s.popTwo = .error .stackUnderflow) ∨
    (s.progLen ≤ (s.reg .sp).toNat ∧ (s.reg .sp).toNat + 4 < s.memSize ∧
      s.memSize < (s.reg .sp).toNat + 8 ∧ s.popTwo = .error .invalidAddress) ∨
    (s.progLen ≤ (s.reg .sp).toNat ∧ (s.reg .sp).toNat + 8 ≤ s.memSize ∧
      s.popTwo = .ok (BitVec.ofNat 32 (littleEndian s.mem (s.reg .sp).toNat 4),
        BitVec.ofNat 32 (littleEndian s.mem ((s.reg .sp).toNat + 4) 4),
        s.setReg .sp (s.reg .sp + 8))) := by
  unfold State.popTwo
  split
  · exact .inl ⟨by omega, rfl⟩
  · split
    · exact .inl ⟨by omega, rfl⟩
    · split
      · exact .inr (.inl ⟨by omega, by omega, by omega, rfl⟩)
      · refine .inr (.inr ⟨by omega, by omega, ?_⟩)
        have h4 : (s.reg .sp + 4).toNat = (s.reg .sp).toNat + 4 :=
          toNat_add_of_lt (n := 4) (by omega)
        rw [State.memRead_ok (by omega), State.memRead_ok (by omega), h4]
        rfl

/-! ### Scans -/

/-- R276: a string is found exactly when its bytes and a zero byte stand within the fuel. -/
theorem Memory.scanString_of_bytesAt (m : Memory) (a n : Nat) (bs : List Byte) (h0 : (0 : Byte) ∉ bs)
    (h : BytesAt m a (bs ++ [0])) (hn : bs.length < n) : m.scanString a n = some bs := by
  induction bs generalizing a n with
  | nil =>
    obtain ⟨n, rfl⟩ : ∃ k, n = k + 1 := ⟨n - 1, by simp at hn; omega⟩
    have := h 0 (by simp)
    simp only [Memory.scanString]
    rw [if_pos (by simpa using this)]
  | cons b bs ih =>
    obtain ⟨n, rfl⟩ : ∃ k, n = k + 1 := ⟨n - 1, by simp at hn; omega⟩
    have hb : m.read a = b := by simpa using h 0 (by simp)
    simp only [List.mem_cons, not_or] at h0
    simp only [Memory.scanString]
    rw [if_neg (by rw [hb]; exact fun e => h0.1 e.symm), ih (a + 1) n h0.2, hb]
    · rfl
    · intro k hk
      have := h (k + 1) (by simp at hk ⊢; omega)
      rw [show a + 1 + k = a + (k + 1) by omega, this]
      simp
    · simp at hn; omega

theorem Memory.scanString_none (m : Memory) (a n : Nat)
    (h : ∀ x, a ≤ x → x < a + n → m.read x ≠ 0) : m.scanString a n = none := by
  induction n generalizing a with
  | zero => rfl
  | succ n ih =>
    simp only [Memory.scanString]
    rw [if_neg (h a (by omega) (by omega)), ih (a + 1) (fun x h1 h2 => h x (by omega) (by omega))]
    rfl

theorem Memory.scanString_isSome (m : Memory) (a n x : Nat) (h1 : a ≤ x) (h2 : x < a + n)
    (h : m.read x = 0) : ∃ bs, m.scanString a n = some bs := by
  induction n generalizing a with
  | zero => omega
  | succ n ih =>
    simp only [Memory.scanString]
    split
    · exact ⟨[], rfl⟩
    · have : a ≠ x := fun e => by subst e; contradiction
      obtain ⟨bs, e⟩ := ih (a + 1) (by omega) (by omega)
      exact ⟨_, by rw [e]; rfl⟩

/-- A scanned string holds no zero byte. -/
theorem Memory.scanString_no_zero (m : Memory) (a n : Nat) (bs : List Byte)
    (h : m.scanString a n = some bs) : (0 : Byte) ∉ bs := by
  induction n generalizing a bs with
  | zero => cases h
  | succ n ih =>
    simp only [Memory.scanString] at h
    split at h
    · cases h; simp
    · rw [Option.map_eq_some_iff] at h
      obtain ⟨bs', h', rfl⟩ := h
      rename_i hne
      simp only [List.mem_cons, not_or]
      exact ⟨fun e => hne e.symm, ih _ _ h'⟩

theorem isDigit_iff (b : Byte) : isDigit b = true ↔ AsciiDigit b := by
  simp [isDigit, AsciiDigit]

/-- R4, R290: everything `I2S_FORMAT` can give. -/
theorem State.formatInt_cases (s : State) (v : Word) :
    (s.i2sFormat = .default ∧ s.formatInt v = decimalDigits 10 v.toNat) ∨
      ∃ h, s.i2sFormat = .replacedBy h ∧ s.formatInt v = Config.i2sFormat h v := by
  unfold State.formatInt
  cases s.i2sFormat <;> simp

/-- R4, R291: everything `S2I_PARSE` can give. -/
theorem State.scanInt_cases (s : State) (p : Word) :
    (s.s2iParse = .default ∧
        s.scanInt p = s.mem.scanDigits p.toNat 0 (s.memSize - p.toNat)) ∨
      ∃ h, s.s2iParse = .replacedBy h ∧ s.scanInt p = Config.s2iParse h s.mem s.memSize p := by
  unfold State.scanInt
  cases s.s2iParse <;> simp

/-- R283: a parse gives its value, or raises `InvalidAddress`. -/
theorem State.parseInt_cases (s : State) (p : Word) :
    (∃ v, s.scanInt p = some v ∧ s.parseInt p = .ok v) ∨
      (s.scanInt p = none ∧ s.parseInt p = .error .invalidAddress) := by
  unfold State.parseInt
  cases s.scanInt p <;> simp

/-- R291: the value of a run of digits that a non-digit ends within the fuel. -/
theorem Memory.scanDigits_of_bytesAt (m : Memory) (a n : Nat) (acc : Word) (bs : List Byte)
    (hd : ∀ b ∈ bs, AsciiDigit b) (h : BytesAt m a bs) (hn : bs.length < n)
    (he : ¬ AsciiDigit (m.read (a + bs.length))) :
    m.scanDigits a acc n =
      some (BitVec.ofNat 32 (bs.foldl (fun n b => n * 10 + (b.toNat - 0x30)) acc.toNat)) := by
  induction bs generalizing a n acc with
  | nil =>
    obtain ⟨n, rfl⟩ : ∃ k, n = k + 1 := ⟨n - 1, by simp at hn; omega⟩
    simp only [Memory.scanDigits]
    rw [if_neg (by rw [isDigit_iff]; simpa using he)]
    simp
  | cons b bs ih =>
    obtain ⟨n, rfl⟩ : ∃ k, n = k + 1 := ⟨n - 1, by simp at hn; omega⟩
    have hb : m.read a = b := h 0 (by simp)
    simp only [Memory.scanDigits]
    rw [if_pos (by rw [hb, isDigit_iff]; exact hd b (by simp)), hb, ih]
    · congr 1
      apply BitVec.eq_of_toNat_eq
      have key : ∀ (l : List Byte) (x y : Nat), x % 2 ^ 32 = y % 2 ^ 32 →
          l.foldl (fun n b => n * 10 + (b.toNat - 0x30)) x % 2 ^ 32 =
            l.foldl (fun n b => n * 10 + (b.toNat - 0x30)) y % 2 ^ 32 := by
        intro l
        induction l with
        | nil => exact fun x y h => h
        | cons c l ih =>
          intro x y h
          refine ih _ _ ?_
          show (x * 10 + _) % _ = (y * 10 + _) % _
          omega
      simp only [List.foldl_cons, BitVec.toNat_ofNat]
      apply key
      simp
    · exact fun c hc => hd c (by simp [hc])
    · intro k hk
      have := h (k + 1) (by simp; omega)
      rw [show a + 1 + k = a + (k + 1) by omega, this]
      simp
    · simp at hn; omega
    · rw [show a + 1 + bs.length = a + (b :: bs).length by simp; omega]
      exact he

theorem Memory.scanDigits_none (m : Memory) (a n : Nat) (acc : Word)
    (h : ∀ x, a ≤ x → x < a + n → AsciiDigit (m.read x)) : m.scanDigits a acc n = none := by
  induction n generalizing a acc with
  | zero => rfl
  | succ n ih =>
    simp only [Memory.scanDigits]
    rw [if_pos ((isDigit_iff _).mpr (h a (by omega) (by omega)))]
    exact ih _ _ (fun x h1 h2 => h x (by omega) (by omega))

/-- R290: the digits of a number the fuel suffices for: as many as it needs and no leading zero. -/
theorem decimalDigits_spec (fuel n : Nat) (h : n < 10 ^ fuel) (h0 : 0 < fuel) :
    IsDecimal (decimalDigits fuel n) n ∧ (decimalDigits fuel n).length ≤ fuel ∧
      (0 < n → (decimalDigits fuel n).head? ≠ some 0x30) := by
  have digit : ∀ k, k < 10 → (BitVec.ofNat 8 (0x30 + k)).toNat = 0x30 + k := by
    intro k hk
    rw [BitVec.toNat_ofNat, Nat.mod_eq_of_lt (by omega)]
  induction fuel generalizing n with
  | zero => omega
  | succ fuel ih =>
    simp only [decimalDigits]
    split
    · rename_i hn
      have hv := digit n hn
      refine ⟨⟨by simp, ?_, ?_, by simp⟩, by simp, fun hp e => ?_⟩
      · intro b hb
        rw [List.mem_singleton] at hb
        subst hb
        unfold AsciiDigit
        omega
      · simp only [decimalValue, List.foldl_cons, List.foldl_nil]
        omega
      · simp only [List.head?_cons, Option.some.injEq] at e
        rw [e] at hv
        simp at hv
        omega
    · rename_i hn
      have hf : 0 < fuel := by
        rcases Nat.eq_zero_or_pos fuel with rfl | hf
        · simp at h; omega
        · exact hf
      obtain ⟨⟨h1, h2, h3, h4⟩, h5, h6⟩ := ih (n / 10) (by rw [Nat.pow_succ] at h; omega) hf
      have hv := digit (n % 10) (by omega)
      have hne : (decimalDigits fuel (n / 10)).head? ≠ some 0x30 := h6 (by omega)
      have hh : ∀ l : List Byte, (decimalDigits fuel (n / 10) ++ l).head? =
          (decimalDigits fuel (n / 10)).head? := by
        intro l
        cases hd : decimalDigits fuel (n / 10) with
        | nil => exact absurd hd h1
        | cons => rfl
      refine ⟨⟨by simp, ?_, ?_, fun _ => by rw [hh]; exact hne⟩, by simp; omega,
        fun _ => by rw [hh]; exact hne⟩
      · intro b hb
        rcases List.mem_append.mp hb with hb | hb
        · exact h2 b hb
        · rw [List.mem_singleton] at hb
          subst hb
          unfold AsciiDigit
          omega
      · simp only [decimalValue] at h3
        simp only [decimalValue, List.foldl_append, h3, List.foldl_cons, List.foldl_nil]
        omega

/-! ### Accessors and callbacks -/

/-- R345: what an accessor can change: registers and memory, and nothing else. -/
theorem State.access_frame (s : State) (a : Accessor) :
    (s.access a).1 = { s with regs := (s.access a).1.regs, mem := (s.access a).1.mem } := by
  unfold State.access
  split
  · split <;> rfl
  · split <;> rfl
  · split <;> rfl
  · split <;> rfl
  · rename_i v
    rcases s.pushWord_cases v with ⟨_, e⟩ | ⟨_, _, e⟩ | ⟨_, _, e⟩ <;> simp only [e]
    rfl
  · rcases s.popWord_cases with ⟨_, e⟩ | ⟨_, _, _, e⟩ | ⟨_, _, e⟩ <;> simp only [e]
    rfl
  · split <;> rfl

/-- R331: an accessor a callback may use leaves `IP` alone. -/
theorem State.access_ip (s : State) (a : Accessor) (h : callbackMay a = true) :
    (s.access a).1.reg .ip = s.reg .ip := by
  unfold State.access
  split
  · split <;> rfl
  · rename_i i v
    unfold regOfIndex
    split
    · rename_i r hr
      split at hr
      · cases hr
        have hi : i ≠ Reg.ip.val := by simpa [callbackMay] using h
        exact (State.reg_setReg _ _ _ _).trans (if_neg fun e => hi (congrArg Fin.val e).symm)
      · cases hr
    · rfl
  · split <;> rfl
  · split <;> rfl
  · rename_i v
    rcases s.pushWord_cases v with ⟨_, e⟩ | ⟨_, _, e⟩ | ⟨_, _, e⟩ <;> simp [e]
  · rcases s.popWord_cases with ⟨_, e⟩ | ⟨_, _, _, e⟩ | ⟨_, _, e⟩ <;> simp [e]
  · split <;> rfl

/-- R345: an accessor keeps the canonical form of memory. -/
theorem State.access_wf (s : State) (a : Accessor) (h : s.mem.wf = true) :
    (s.access a).1.mem.wf = true := by
  unfold State.access
  split
  · split <;> exact h
  · split <;> exact h
  · split <;> exact h
  · split
    · exact Memory.write_wf _ _ h
    · exact h
  · rename_i v
    rcases s.pushWord_cases v with ⟨_, e⟩ | ⟨_, _, e⟩ | ⟨_, _, e⟩ <;> simp only [e]
    · exact h
    · exact h
    · exact Memory.writeBytes_wf _ _ h
  · rcases s.popWord_cases with ⟨_, e⟩ | ⟨_, _, _, e⟩ | ⟨_, _, e⟩ <;> simpa [e] using h
  · split <;> exact h

/-- R345: an accessor lists no byte outside the memory. -/
theorem State.access_below (s : State) (a : Accessor) (h : ∀ c ∈ s.mem, c.1 < s.memSize) :
    ∀ c ∈ (s.access a).1.mem, c.1 < s.memSize := by
  unfold State.access
  split
  · split <;> exact h
  · split <;> exact h
  · split <;> exact h
  · split
    · intro c hc
      rcases Memory.mem_write _ _ _ _ hc with e | e
      · omega
      · exact h c e
    · exact h
  · rename_i v
    rcases s.pushWord_cases v with ⟨_, e⟩ | ⟨_, _, e⟩ | ⟨h1, h2, e⟩ <;> simp only [e]
    · exact h
    · exact h
    · exact Memory.writeBytes_below _ _ _ _ h (by simp; omega)
  · rcases s.popWord_cases with ⟨_, e⟩ | ⟨_, _, _, e⟩ | ⟨_, _, e⟩ <;> simpa [e] using h
  · split <;> exact h

/-- A property of states that every accessor a callback may use keeps, a callback keeps. -/
theorem State.perform_induction (P : State → Prop) (acts : List Accessor) (s : State)
    (h : ∀ t a, callbackMay a = true → P t → P (t.access a).1) (hs : P s) : P (s.perform acts) := by
  induction acts generalizing s with
  | nil => exact hs
  | cons a acts ih =>
    simp only [State.perform]
    split
    · exact ih _ (h _ _ ‹_› hs)
    · exact ih _ hs

/-- R331: what the host's accessors inside a callback can change: registers and memory. -/
theorem State.perform_frame (acts : List Accessor) (s : State) :
    s.perform acts = { s with regs := (s.perform acts).regs, mem := (s.perform acts).mem } := by
  refine State.perform_induction (fun t => t = { s with regs := t.regs, mem := t.mem }) acts s ?_ rfl
  intro t a _ ht
  rw [State.access_frame t a]
  cases t
  simp only [State.mk.injEq] at ht ⊢
  exact ⟨trivial, trivial, ht.2.2⟩

/-- A transaction is traced and uses the host's next turn; beyond that it is `perform`. -/
theorem State.transact_frame (s : State) (x : Transaction) :
    (s.transact x).1 = s.callback x ∧
    (s.transact x).2 = { s with
      regs := (s.transact x).2.regs, mem := (s.transact x).2.mem,
      script := s.script.tail, trace := x :: s.trace } :=
  ⟨rfl, State.perform_frame _ _⟩

end Sys2Proof.Machine
end

