-- ==== Sys2Proof/Laws/Effects.lean ====
section
/-! SUPPORT. The ends of an instruction in the terms of Safety.lean, and what each meaning that is no
operand form answers on valid operands. -/

namespace Sys2Proof.Machine

/-! ### Literals -/

theorem bytes16_eq (a : Half) : bytes16 a = [a.extractLsb' 0 8, a.extractLsb' 8 8] := by
  have h0 : BitVec.ofNat 8 a.toNat = a.extractLsb' 0 8 := by
    apply BitVec.eq_of_toNat_eq; simp
  have h1 : BitVec.ofNat 8 (a.toNat / 256) = a.extractLsb' 8 8 := by
    apply BitVec.eq_of_toNat_eq; simp [Nat.shiftRight_eq_div_pow]
  simp [bytes16, leBytes, h0, h1]

theorem bytes32_eq (d : Word) :
    bytes32 d =
      [d.extractLsb' 0 8, d.extractLsb' 8 8, d.extractLsb' 16 8, d.extractLsb' 24 8] := by
  have h0 : BitVec.ofNat 8 d.toNat = d.extractLsb' 0 8 := by
    apply BitVec.eq_of_toNat_eq; simp
  have h1 : BitVec.ofNat 8 (d.toNat / 256) = d.extractLsb' 8 8 := by
    apply BitVec.eq_of_toNat_eq; simp [Nat.shiftRight_eq_div_pow]
  have h2 : BitVec.ofNat 8 (d.toNat / 256 / 256) = d.extractLsb' 16 8 := by
    apply BitVec.eq_of_toNat_eq; simp [Nat.shiftRight_eq_div_pow, Nat.div_div_eq_div_mul]
  have h3 : BitVec.ofNat 8 (d.toNat / 256 / 256 / 256) = d.extractLsb' 24 8 := by
    apply BitVec.eq_of_toNat_eq; simp [Nat.shiftRight_eq_div_pow, Nat.div_div_eq_div_mul]
  simp [bytes32, leBytes, h0, h1, h2, h3]

theorem zext16_eq (h : Half) : zext16 h = BitVec.ofNat 32 h.toNat := by
  apply BitVec.eq_of_toNat_eq; simp [zext16]

@[simp] theorem zext16_toNat (h : Half) : (zext16 h).toNat = h.toNat := by
  simp only [zext16, BitVec.toNat_setWidth]
  exact Nat.mod_eq_of_lt (lt_trans h.isLt (by decide))

theorem zext8_eq (b : Byte) : zext8 b = BitVec.ofNat 32 b.toNat := by
  apply BitVec.eq_of_toNat_eq; simp [zext8]

/-! ### Operands and the advance -/

/-- A register operand reads the working state (R14). -/
theorem reg_enter_operand (s : State) (f : Format) {L : Nat} (hL : L = f.length) (r : Reg) :
    (s.enter f).reg r = operand s L r := by
  subst hL
  simp [operand]

theorem operand_of_ne {s : State} {L : Nat} {r : Reg} (h : r ≠ .ip) : operand s L r = s.reg r :=
  if_neg h

/-- The address after an instruction (R14, R15). -/
theorem enter_ip_succ (s : State) (f : Format) {L : Nat} (hL : L = f.length) :
    (s.enter f).reg .ip + 1 = s.reg .ip + BitVec.ofNat 32 L := by
  subst hL
  cases f <;> simp [Format.length, BitVec.add_assoc]

/-- Advancing counts (R15, R321 to R323). -/
theorem counted_advance {s w : State} (hp : w.phase = s.phase) (hr : w.replies = s.replies) :
    Counted s w.advance := by
  unfold Counted State.advance
  have hp' : (w.setReg .ip (w.reg .ip + 1)).phase = s.phase := hp
  cases hs : s.phase with
  | idle =>
    simp only [State.count, hp', hs]
    exact ⟨trivial, hr⟩
  | running b c =>
    simp only [State.count, hp', hs, BitVec.le_def]
    split
    · exact ⟨rfl, by simp [hr]⟩
    · exact ⟨rfl, by simp [hr]⟩

theorem endsUnchanged_endRun (s : State) (e : ExecResult) : EndsUnchanged s e (s.endRun e) :=
  ⟨fun _ => rfl, fun _ => rfl, ⟨rfl, rfl, rfl, rfl, rfl, rfl, rfl⟩, ⟨rfl, rfl⟩, rfl, rfl⟩

theorem faults_of {i : Instr} {s : State} {e : ExecResult} (h : exec i s = .next (s.endRun e)) :
    Faults i s e := ⟨_, h, endsUnchanged_endRun s e⟩

/-- A register written in the working state, then the advance. -/
theorem writes_advance (s : State) (f : Format) {L : Nat} (hL : L = f.length) (d : Reg) (v : Word) :
    Writes s L d v ((s.enter f).setReg d v).advance := by
  refine ⟨?_, fun a => by simp, ⟨by simp, by simp, by simp, by simp, by simp⟩, ⟨by simp, by simp⟩,
    counted_advance rfl rfl⟩
  intro r
  simp only [State.reg_advance, State.reg_setReg]
  by_cases hr : r = .ip
  · subst hr
    by_cases hd : d = .ip
    · subst hd; simp
    · rw [if_pos rfl, if_pos rfl, if_neg (fun e => hd e.symm), if_neg hd, enter_ip_succ s f hL]
  · simp [hr]

/-- A working state that differs in registers only, then the advance. -/
theorem jumpsTo_advance {h w : State} {t : Word} (hw : w = { h with regs := w.regs })
    (hip : w.reg .ip + 1 = t) (hr : ∀ r, r ≠ .ip → w.reg r = h.reg r) : JumpsTo h t w.advance := by
  refine ⟨fun r => ?_, fun a => by rw [State.advance_mem, hw], ?_, ?_,
    counted_advance (by rw [hw]) (by rw [hw])⟩
  · rw [State.reg_advance]
    by_cases h' : r = .ip
    · rw [if_pos h', if_pos h', hip]
    · rw [if_neg h', if_neg h', hr r h']
  · rw [hw]; exact ⟨by simp, by simp, by simp, by simp, by simp⟩
  · rw [hw]; exact ⟨by simp, by simp⟩

/-- An instruction that only falls through. -/
theorem jumpsTo_enter (h : State) (f : Format) {L : Nat} (hL : L = f.length) :
    JumpsTo h (h.reg .ip + BitVec.ofNat 32 L) (h.enter f).advance :=
  jumpsTo_advance rfl (enter_ip_succ h f hL) fun r hr => by simp [hr]

/-- A transfer of control (R8, R15). -/
theorem jumpsTo_jump (h : State) (f : Format) (t : Word) :
    JumpsTo h t ((h.enter f).jump t).advance :=
  jumpsTo_advance rfl (by simp) fun r hr => by simp [hr]

/-- Only memory changed in the working state, then the advance. -/
theorem regsAfter_advance (s : State) (f : Format) {L : Nat} (hL : L = f.length) (m : Memory) :
    let t := State.advance { s.enter f with mem := m }
    RegsAfter s L t ∧ SameInstance s t ∧ NoTransaction s t ∧ Counted s t := by
  refine ⟨fun r => ?_, ⟨by simp, by simp, by simp, by simp, by simp⟩, ⟨by simp, by simp⟩,
    counted_advance rfl rfl⟩
  have e : ∀ q, State.reg { s.enter f with mem := m } q = (s.enter f).reg q := fun _ => rfl
  rw [State.reg_advance, e, e, enter_ip_succ s f hL]
  by_cases hr : r = .ip
  · rw [if_pos hr, if_pos hr]
  · rw [if_neg hr, if_neg hr, State.reg_enter, if_neg hr]

/-- A store in the working state, then the advance. -/
theorem stores_advance (s : State) (f : Format) {L : Nat} (hL : L = f.length) (a n : Nat)
    (v : Word) :
    Stores s L a n v
      (State.advance { s.enter f with mem := s.mem.writeBytes a (leBytes n v.toNat) }) := by
  obtain ⟨h1, h2, h3, h4⟩ := regsAfter_advance s f hL (s.mem.writeBytes a (leBytes n v.toNat))
  exact ⟨h1, memoryAfterStore_writeBytes _ _ _ _ _ (by simp), h2, h3, h4⟩

/-! ### Meanings that are no form, on valid operands -/

theorem execInt_empty {s : State} (code : Byte) (h : s.hook = none) :
    execInt code s = .next (s.endRun .unhandledInterrupt) := by
  simp [execInt, h, raise]

theorem execInt_continues {s : State} (code : Byte) {h : Nat} (hh : s.hook = some h)
    (hc : (s.callback (.interrupt h code)).continues = true) :
    execInt code s = .next ((afterCallback s (.interrupt h code)).enter .FB).advance := by
  simp [execInt, hh, State.transact, hc, attempt, afterCallback]

theorem execInt_stops {s : State} (code : Byte) {h : Nat} (hh : s.hook = some h)
    (hc : (s.callback (.interrupt h code)).continues = false) :
    execInt code s = .next ((afterCallback s (.interrupt h code)).endRun .finished) := by
  simp [execInt, hh, State.transact, hc, stopFinished, afterCallback]

theorem execPush_next {s w : State} (r : Reg)
    (h : (s.enter .FR).pushWord ((s.enter .FR).reg r) = .ok w) :
    execPush (regByte r) s = .next w.advance :=
  attempt_ok (by simp only [regOperand_regByte, ok_bind, h])

theorem execPush_raise {s : State} (r : Reg) {e : ExecResult}
    (h : (s.enter .FR).pushWord ((s.enter .FR).reg r) = .error e) :
    execPush (regByte r) s = .next (s.endRun e) :=
  attempt_error (by simp only [regOperand_regByte, ok_bind, h])

theorem execPop_next {s t : State} (d : Reg) {v : Word}
    (h : (s.enter .FR).popWord = .ok (v, t)) :
    execPop (regByte d) s = .next (t.setReg d v).advance :=
  attempt_ok (by simp only [regOperand_regByte, ok_bind, h, pure_eq_ok])

theorem execPop_raise {s : State} (d : Reg) {e : ExecResult}
    (h : (s.enter .FR).popWord = .error e) : execPop (regByte d) s = .next (s.endRun e) :=
  attempt_error (by simp only [regOperand_regByte, ok_bind, h, error_bind])

theorem execPop2_next {s t : State} (d1 d2 : Reg) {v1 v2 : Word}
    (h : (s.enter .FRR).popTwo = .ok (v1, v2, t)) :
    execPop2 (regByte d1) (regByte d2) s = .next ((t.setReg d1 v1).setReg d2 v2).advance :=
  attempt_ok (by simp only [regOperand_regByte, ok_bind, h, pure_eq_ok])

theorem execPop2_raise {s : State} (d1 d2 : Reg) {e : ExecResult}
    (h : (s.enter .FRR).popTwo = .error e) :
    execPop2 (regByte d1) (regByte d2) s = .next (s.endRun e) :=
  attempt_error (by simp only [regOperand_regByte, ok_bind, h, error_bind])

theorem execDup_next {s w : State} {v : Word} (ht : (s.enter .F0).topWord = .ok v)
    (h : (s.enter .F0).pushWord v = .ok w) : execDup s = .next w.advance :=
  attempt_ok (by simp only [ht, ok_bind, h])

theorem execDup_raise_top {s : State} {e : ExecResult} (ht : (s.enter .F0).topWord = .error e) :
    execDup s = .next (s.endRun e) :=
  attempt_error (by simp only [ht, error_bind])

theorem execDup_raise_push {s : State} {v : Word} {e : ExecResult}
    (ht : (s.enter .F0).topWord = .ok v) (h : (s.enter .F0).pushWord v = .error e) :
    execDup s = .next (s.endRun e) :=
  attempt_error (by simp only [ht, ok_bind, h])

theorem execCall_next (s : State) (addr : Half) :
    execCall addr s =
      .next (((s.enter .FH).setReg .ra (s.reg .ip + 3)).jump (zext16 addr)).advance :=
  attempt_ok rfl

theorem execRet_next (s : State) :
    execRet s = .next ((s.enter .F0).jump (s.reg .ra)).advance :=
  attempt_ok (by simp)

theorem execMemcpy_next {s w : State} {dst src len : Half}
    (h : (s.enter .FHHH).blockCopy (zext16 dst) (zext16 src) (zext16 len) = .ok w) :
    execMemcpy dst src len s = .next w.advance := attempt_ok h

theorem execMemcpy_raise {s : State} {dst src len : Half} {e : ExecResult}
    (h : (s.enter .FHHH).blockCopy (zext16 dst) (zext16 src) (zext16 len) = .error e) :
    execMemcpy dst src len s = .next (s.endRun e) := attempt_error h

theorem execMemcpyP_next {s w : State} (d r n : Reg)
    (h : (s.enter .FRRR).blockCopy ((s.enter .FRRR).reg d) ((s.enter .FRRR).reg r)
      ((s.enter .FRRR).reg n) = .ok w) :
    execMemcpyP (regByte d) (regByte r) (regByte n) s = .next w.advance :=
  attempt_ok (by simp only [regOperand_regByte, ok_bind, h])

theorem execMemcpyP_raise {s : State} (d r n : Reg) {e : ExecResult}
    (h : (s.enter .FRRR).blockCopy ((s.enter .FRRR).reg d) ((s.enter .FRRR).reg r)
      ((s.enter .FRRR).reg n) = .error e) :
    execMemcpyP (regByte d) (regByte r) (regByte n) s = .next (s.endRun e) :=
  attempt_error (by simp only [regOperand_regByte, ok_bind, h])

theorem execJmp_next (s : State) (addr : Half) :
    execJmp addr s = .next ((s.enter .FH).jump (zext16 addr)).advance := attempt_ok rfl

theorem execJr_next (s : State) (r : Reg) :
    execJr (regByte r) s = .next ((s.enter .FR).jump ((s.enter .FR).reg r)).advance :=
  attempt_ok (by simp only [regOperand_regByte, ok_bind, pure_eq_ok])

theorem execPrints_next {s : State} {addr : Half} (nl : Byte) {str : List Byte}
    (h : (s.enter .FHB).readString (zext16 addr) = .ok str) (hk : .outStr ∈ s.hostKinds) :
    execPrints addr nl s =
      .next ((afterCallback s (.request (.outStr str (newline nl)))).enter .FHB).advance :=
  attempt_ok (by
    simp only [h, ok_bind, requestAt_ok .FHB (q := .outStr str (newline nl)) hk, pure_eq_ok]
    rfl)

theorem execPrints_raise {s : State} {addr : Half} (nl : Byte) {e : ExecResult}
    (h : (s.enter .FHB).readString (zext16 addr) = .error e) :
    execPrints addr nl s = .next (s.endRun e) :=
  attempt_error (by simp only [h, error_bind])

theorem execPrints_unsupported {s : State} {addr : Half} (nl : Byte) {str : List Byte}
    (h : (s.enter .FHB).readString (zext16 addr) = .ok str) (hk : .outStr ∉ s.hostKinds) :
    execPrints addr nl s = .next (s.endRun .unsupportedOpcode) :=
  attempt_error (by
    simp only [h, ok_bind, requestAt_error .FHB (q := .outStr str (newline nl)) hk, error_bind])

theorem execReads_raise {s : State} {addr len : Half} (h : s.memSize < addr.toNat + len.toNat) :
    execReads addr len s = .next (s.endRun .invalidAddress) :=
  attempt_error (by rw [if_pos (by simpa using h)])

theorem execReads_empty {s : State} {addr : Half} (h : addr.toNat ≤ s.memSize) :
    execReads addr 0 s = .next (s.enter .FHH).advance :=
  attempt_ok (by rw [if_neg (by simpa using h), if_pos rfl])

theorem execReads_next {s : State} {addr len : Half} (h : addr.toNat + len.toNat ≤ s.memSize)
    (hl : len ≠ 0) (hk : .inLine ∈ s.hostKinds) :
    execReads addr len s =
      let t := (afterCallback s (.request (.inLine (len.toNat - 1)))).enter .FHH
      let c := s.callback (.request (.inLine (len.toNat - 1)))
      .next (State.advance { t with
        mem := t.mem.writeBytes addr.toNat (lineAnswer c (len.toNat - 1) ++ [0]) }) :=
  attempt_ok (by
    rw [if_neg (by simpa using h), if_neg hl]
    simp only [requestAt_ok .FHH (q := .inLine (len.toNat - 1)) hk, ok_bind, pure_eq_ok]
    rfl)

theorem execReads_unsupported {s : State} {addr len : Half}
    (h : addr.toNat + len.toNat ≤ s.memSize) (hl : len ≠ 0) (hk : .inLine ∉ s.hostKinds) :
    execReads addr len s = .next (s.endRun .unsupportedOpcode) :=
  attempt_error (by
    rw [if_neg (by simpa using h), if_neg hl]
    simp only [requestAt_error .FHH (q := .inLine (len.toNat - 1)) hk, error_bind])

theorem execI2s_next {s : State} {addr : Half} (r : Reg)
    (h : addr.toNat + (s.formatInt ((s.enter .FHR).reg r)).length + 1 ≤ s.memSize) :
    execI2s addr (regByte r) s =
      .next (State.advance { s.enter .FHR with
        mem := s.mem.writeBytes addr.toNat (s.formatInt ((s.enter .FHR).reg r) ++ [0]) }) :=
  attempt_ok (by
    simp only [regOperand_regByte, ok_bind, pure_eq_ok]
    rw [if_neg (by simpa using h)]
    rfl)

theorem execI2s_raise {s : State} {addr : Half} (r : Reg)
    (h : s.memSize < addr.toNat + (s.formatInt ((s.enter .FHR).reg r)).length + 1) :
    execI2s addr (regByte r) s = .next (s.endRun .invalidAddress) :=
  attempt_error (by
    simp only [regOperand_regByte, ok_bind, pure_eq_ok]
    rw [if_pos (by simpa using h)])

theorem execS2i_next {s : State} {addr : Half} (d : Reg) {v : Word}
    (h : s.scanInt (zext16 addr) = some v) :
    execS2i addr (regByte d) s = .next ((s.enter .FHR).setReg d v).advance :=
  attempt_ok (by
    simp only [regOperand_regByte, ok_bind, State.parseInt, State.enter_scanInt, h, pure_eq_ok])

theorem execS2i_raise {s : State} {addr : Half} (d : Reg) (h : s.scanInt (zext16 addr) = none) :
    execS2i addr (regByte d) s = .next (s.endRun .invalidAddress) :=
  attempt_error (by
    simp only [regOperand_regByte, ok_bind, State.parseInt, State.enter_scanInt, h, error_bind])

end Sys2Proof.Machine
end

