-- ==== Sys2Proof/Laws/Exec.lean ====
section
/-! SUPPORT. What any instruction, and so any step, can do, said once: it completes from a working state
and advances, it takes a fault and leaves everything, or it stops the run after the host's turn. -/

namespace Sys2Proof.Machine

/-- A transaction the datapath may start in a state (R270, R330). -/
def Allowed (s : State) (x : Transaction) : Prop :=
  match x with
  | .request q => q.kind ∈ s.hostKinds ∧
      (match q with
       | .outStr str _ => (0 : Byte) ∉ str
       | _ => True)
  | .interrupt _ _ => s.hook ≠ none

/-- What the body of an instruction can have done to the state it started from: the run, the replies and
the instance are as before, memory is still in canonical form and inside its bounds, and at most one
allowed transaction has been started. -/
structure Worked (s w : State) : Prop where
  phase : w.phase = s.phase
  replies : w.replies = s.replies
  same : SameInstance s w
  wf : s.mem.wf = true → w.mem.wf = true
  below : (∀ c ∈ s.mem, c.1 < s.memSize) → ∀ c ∈ w.mem, c.1 < s.memSize
  trace : w.trace = s.trace ∧ w.script = s.script ∨
    ∃ x, Allowed s x ∧ w.trace = x :: s.trace ∧ w.script = s.script.tail

/-- A state that differs from the start in registers only. -/
theorem Worked.of_regs {s w : State} (h : w = { s with regs := w.regs }) : Worked s w := by
  rw [h]
  exact ⟨rfl, rfl, ⟨rfl, rfl, rfl, rfl, rfl, rfl, rfl⟩, id, id, .inl ⟨rfl, rfl⟩⟩

theorem Worked.setReg {s w : State} (h : Worked s w) (r : Reg) (v : Word) :
    Worked s (w.setReg r v) := ⟨h.phase, h.replies, h.same, h.wf, h.below, h.trace⟩

theorem Worked.enter {s w : State} (h : Worked s w) (f : Format) : Worked s (w.enter f) :=
  ⟨h.phase, h.replies, h.same, h.wf, h.below, h.trace⟩

theorem Worked.jump {s w : State} (h : Worked s w) (t : Word) : Worked s (w.jump t) :=
  ⟨h.phase, h.replies, h.same, h.wf, h.below, h.trace⟩

theorem Worked.memSize {s w : State} (h : Worked s w) : w.memSize = s.memSize := by
  simp [State.memSize, h.same.2.1, h.same.2.2.1]

theorem Worked.refl (s : State) : Worked s s := .of_regs rfl

/-- Consecutive bytes written inside the memory. -/
theorem Worked.writeBytes {s w : State} (h : Worked s w) (a : Nat) (bs : List Byte)
    (hb : a + bs.length ≤ s.memSize) : Worked s { w with mem := w.mem.writeBytes a bs } :=
  ⟨h.phase, h.replies, h.same, fun hw => Memory.writeBytes_wf _ _ (h.wf hw),
    fun hw => Memory.writeBytes_below _ _ _ _ (h.below hw) hb, h.trace⟩

theorem Worked.memWrite {s w t : State} (h : Worked s w) {a v : Word} {n : Nat}
    (e : w.memWrite a n v = .ok t) : Worked s t := by
  rcases w.memWrite_cases a n v with ⟨hb, e'⟩ | ⟨_, e'⟩
  · rw [e'] at e
    cases e
    exact h.writeBytes _ _ (by rw [leBytes_length, ← h.memSize]; exact hb)
  · rw [e'] at e
    cases e

theorem Worked.blockCopy {s w t : State} (h : Worked s w) {d r n : Word}
    (e : w.blockCopy d r n = .ok t) : Worked s t := by
  rcases w.blockCopy_cases d r n with ⟨_, hb, e'⟩ | ⟨_, e'⟩
  · rw [e'] at e
    cases e
    exact ⟨h.phase, h.replies, h.same, fun hw => Memory.copyForward_wf _ _ _ (h.wf hw),
      fun hw => Memory.copyForward_below _ _ _ _ _ (h.below hw) (by rw [← h.memSize]; exact hb),
      h.trace⟩
  · rw [e'] at e
    cases e

theorem Worked.pushWord {s w t : State} (h : Worked s w) {v : Word}
    (e : w.pushWord v = .ok t) : Worked s t := by
  rcases w.pushWord_cases v with ⟨_, e'⟩ | ⟨_, _, e'⟩ | ⟨_, hb, e'⟩
  · rw [e'] at e; cases e
  · rw [e'] at e; cases e
  · rw [e'] at e
    cases e
    have := h.memSize
    exact (h.writeBytes _ _ (by rw [leBytes_length]; omega)).setReg _ _

/-- One transaction: `IP` is left alone, and only registers and memory change beside the trace. -/
theorem worked_transact {s : State} {x : Transaction} (hx : Allowed s x) :
    Worked s (s.transact x).2 ∧ (s.transact x).2.reg .ip = s.reg .ip := by
  have hf := (s.transact_frame x).2
  have hP : ∀ t : State, t.memSize = s.memSize ∧ t.reg .ip = s.reg .ip ∧
      (s.mem.wf = true → t.mem.wf = true) ∧
      ((∀ c ∈ s.mem, c.1 < s.memSize) → ∀ c ∈ t.mem, c.1 < s.memSize) →
      ∀ a, callbackMay a = true → (t.access a).1.memSize = s.memSize ∧
        (t.access a).1.reg .ip = s.reg .ip ∧
        (s.mem.wf = true → (t.access a).1.mem.wf = true) ∧
        ((∀ c ∈ s.mem, c.1 < s.memSize) → ∀ c ∈ (t.access a).1.mem, c.1 < s.memSize) := by
    rintro t ⟨h1, h2, h3, h4⟩ a ha
    refine ⟨?_, (t.access_ip a ha).trans h2, fun hw => t.access_wf a (h3 hw), fun hw => ?_⟩
    · rw [t.access_frame a]; exact h1
    · have := t.access_below a (by rw [h1]; exact h4 hw)
      rwa [h1] at this
  have := State.perform_induction
    (fun t => t.memSize = s.memSize ∧ t.reg .ip = s.reg .ip ∧
      (s.mem.wf = true → t.mem.wf = true) ∧
      ((∀ c ∈ s.mem, c.1 < s.memSize) → ∀ c ∈ t.mem, c.1 < s.memSize))
    (s.callback x).acts { s with script := s.script.tail, trace := x :: s.trace }
    (fun t a ha ht => hP t ht a ha) ⟨rfl, rfl, id, id⟩
  obtain ⟨_, h2, h3, h4⟩ := this
  refine ⟨?_, h2⟩
  refine ⟨?_, ?_, ⟨?_, ?_, ?_, ?_, ?_, ?_, ?_⟩, h3, h4, .inr ⟨x, hx, ?_, ?_⟩⟩ <;> rw [hf]

/-- A request answered: its state is worked, and the kind is supported. -/
theorem worked_requestAt {f : Format} {s t : State} {q : Request} {c : Callback}
    (hq : q.kind ∈ s.hostKinds → Allowed s (.request q))
    (e : requestAt f s q = .ok (c, t)) : Worked s t := by
  rcases request_cases s q with ⟨h, _⟩ | ⟨h, _⟩
  · rw [requestAt_ok f h] at e
    cases e
    exact (worked_transact (hq h)).1.enter f
  · rw [requestAt_error f h] at e
    cases e

/-- How an instruction can end. -/
inductive Ends (s : State) : Result → Prop
  | completes (w : State) (h : Worked s w) : Ends s (.next w.advance)
  | faults (e : ExecResult) (h : e.isFault = true) : Ends s (.next (s.endRun e))
  | stops (t : State) (h : Worked s t) (hip : t.reg .ip = s.reg .ip) :
      Ends s (.next (t.endRun .finished))

/-- How an instruction whose register operands are valid can end: a fault is then never
`InvalidRegister`. -/
def EndsWell (ok : Bool) (s : State) (x : Result) : Prop :=
  Ends s x ∧ (ok = true → x ≠ .next (s.endRun .invalidRegister))

/-- What a body may answer: a state of which `P` holds, or a fault, which is never `InvalidRegister`
when the register operands are valid. -/
def Sound {α : Type} (ok : Bool) (P : α → Prop) (x : Except ExecResult α) : Prop :=
  match x with
  | .ok a => P a
  | .error e => e.isFault = true ∧ (ok = true → e ≠ .invalidRegister)

theorem Sound.bind {α β : Type} {ok : Bool} {P : α → Prop} {Q : β → Prop}
    {x : Except ExecResult α} {k : α → Except ExecResult β} (h : Sound ok P x)
    (hk : ∀ a, P a → Sound ok Q (k a)) : Sound ok Q (x >>= k) := by
  cases x with
  | ok a => exact hk a h
  | error e => exact h

theorem sound_regOperand {ok : Bool} {b : RegByte} (h : ok = true → b.valid = true) :
    Sound ok (fun _ => True) (regOperand b) := by
  rcases regOperand_cases b with ⟨r, _, e, _⟩ | ⟨e, hv⟩
  · rw [e]; trivial
  · rw [e]
    exact ⟨rfl, fun ho => by rw [h ho] at hv; cases hv⟩

theorem sound_memRead {ok : Bool} (s : State) (a : Word) (n : Nat) :
    Sound ok (fun _ => True) (s.memRead a n) := by
  rcases s.memRead_cases a n with ⟨_, e⟩ | ⟨_, e⟩ <;> rw [e]
  · trivial
  · exact ⟨rfl, fun _ => nofun⟩

theorem sound_memWrite {ok : Bool} {s w : State} (h : Worked s w) (a : Word) (n : Nat) (v : Word) :
    Sound ok (Worked s) (w.memWrite a n v) := by
  rcases w.memWrite_cases a n v with ⟨_, e⟩ | ⟨_, e⟩
  · have := h.memWrite e
    rw [e]; exact this
  · rw [e]; exact ⟨rfl, fun _ => nofun⟩

theorem sound_blockCopy {ok : Bool} {s w : State} (h : Worked s w) (d r n : Word) :
    Sound ok (Worked s) (w.blockCopy d r n) := by
  rcases w.blockCopy_cases d r n with ⟨_, _, e⟩ | ⟨_, e⟩
  · have := h.blockCopy e
    rw [e]; exact this
  · rw [e]; exact ⟨rfl, fun _ => nofun⟩

theorem sound_pushWord {ok : Bool} {s w : State} (h : Worked s w) (v : Word) :
    Sound ok (Worked s) (w.pushWord v) := by
  rcases w.pushWord_cases v with ⟨_, e⟩ | ⟨_, _, e⟩ | ⟨_, _, e⟩
  · rw [e]; exact ⟨rfl, fun _ => nofun⟩
  · rw [e]; exact ⟨rfl, fun _ => nofun⟩
  · have := h.pushWord e
    rw [e]; exact this

theorem sound_topWord {ok : Bool} (w : State) : Sound ok (fun _ => True) w.topWord := by
  rcases w.topWord_cases with ⟨_, e⟩ | ⟨_, _, _, e⟩ | ⟨_, _, e⟩ <;> rw [e]
  · exact ⟨rfl, fun _ => nofun⟩
  · exact ⟨rfl, fun _ => nofun⟩
  · trivial

theorem sound_popWord {ok : Bool} {s w : State} (h : Worked s w) :
    Sound ok (fun p => Worked s p.2) w.popWord := by
  rcases w.popWord_cases with ⟨_, e⟩ | ⟨_, _, _, e⟩ | ⟨_, _, e⟩ <;> rw [e]
  · exact ⟨rfl, fun _ => nofun⟩
  · exact ⟨rfl, fun _ => nofun⟩
  · exact h.setReg _ _

theorem sound_popTwo {ok : Bool} {s w : State} (h : Worked s w) :
    Sound ok (fun p => Worked s p.2.2) w.popTwo := by
  unfold State.popTwo
  split
  · exact ⟨rfl, fun _ => nofun⟩
  split
  · exact ⟨rfl, fun _ => nofun⟩
  split
  · exact ⟨rfl, fun _ => nofun⟩
  · exact (sound_memRead _ _ _).bind fun _ _ => (sound_memRead _ _ _).bind fun _ _ => h.setReg _ _

theorem sound_requestAt {ok : Bool} (f : Format) (s : State) (q : Request)
    (hq : q.kind ∈ s.hostKinds → Allowed s (.request q)) :
    Sound ok (fun p => Worked s p.2) (requestAt f s q) := by
  rcases request_cases s q with ⟨h, _⟩ | ⟨h, _⟩
  · rw [requestAt_ok f h]
    exact (worked_transact (hq h)).1.enter f
  · rw [requestAt_error f h]; exact ⟨rfl, fun _ => nofun⟩

theorem attempt_ends (f : Format) (s : State) (body : State → Except ExecResult State) (ok : Bool)
    (h : Sound ok (Worked s) (body (s.enter f))) : EndsWell ok s (attempt f s body) := by
  rcases attempt_cases f s body with ⟨w, hw, e⟩ | ⟨e, hb, e'⟩
  · rw [hw] at h
    rw [e]
    refine ⟨.completes w h, fun _ h' => ?_⟩
    have hr : w.advance.replies = .result .invalidRegister :: s.replies := by
      rw [Host.Outcome.next.injEq] at h'
      rw [h']; rfl
    have hr' : w.replies = s.replies := h.replies
    rcases (w.setReg .ip (w.reg .ip + 1)).count_cases with ⟨hc, _⟩ | ⟨b, c, _, _, hc⟩ |
        ⟨b, c, _, _, hc⟩
    · rw [State.advance, hc, State.setReg_replies, hr'] at hr
      exact absurd hr (by simp)
    · rw [State.advance, hc, State.endRun_replies] at hr
      cases hr
    · rw [State.advance, hc, State.setReg_replies, hr'] at hr
      exact absurd hr (by simp)
  · rw [hb] at h
    rw [e']
    refine ⟨.faults e h.1, fun ho h' => ?_⟩
    rw [Host.Outcome.next.injEq] at h'
    have := congrArg State.replies h'
    simp only [State.endRun_replies, List.cons.injEq, HostReply.result.injEq, and_true] at this
    exact h.2 ho this

/-! ### The forms -/

section
variable {ok : Bool} {s : State}

theorem literalForm_ends {rd : RegByte} (h : ok = true → rd.valid = true) (f : Format) (v : Word) :
    EndsWell ok s (literalForm f v rd s) :=
  attempt_ends _ _ _ _ ((sound_regOperand h).bind fun _ _ => ((Worked.refl s).enter f).setReg _ _)

theorem inPlaceForm_ends {rd : RegByte} (h : ok = true → rd.valid = true) (op : Word → Word) :
    EndsWell ok s (inPlaceForm op rd s) :=
  attempt_ends _ _ _ _ ((sound_regOperand h).bind fun _ _ => ((Worked.refl s).enter _).setReg _ _)

theorem moveForm_ends {rd rs : RegByte} (h1 : ok = true → rd.valid = true)
    (h2 : ok = true → rs.valid = true) (op : Word → Word) : EndsWell ok s (moveForm op rd rs s) :=
  attempt_ends _ _ _ _ ((sound_regOperand h1).bind fun _ _ => (sound_regOperand h2).bind fun _ _ =>
    ((Worked.refl s).enter _).setReg _ _)

theorem accumulateForm_ends {rd rs : RegByte} (h1 : ok = true → rd.valid = true)
    (h2 : ok = true → rs.valid = true) (op : Word → Word → Except ExecResult Word)
    (h : ∀ a b, Sound ok (fun _ => True) (op a b)) : EndsWell ok s (accumulateForm op rd rs s) :=
  attempt_ends _ _ _ _ ((sound_regOperand h1).bind fun _ _ => (sound_regOperand h2).bind fun _ _ =>
    (h _ _).bind fun _ _ => ((Worked.refl s).enter _).setReg _ _)

theorem threeForm_ends {rd ra rb : RegByte} (h1 : ok = true → rd.valid = true)
    (h2 : ok = true → ra.valid = true) (h3 : ok = true → rb.valid = true)
    (op : Word → Word → Word) : EndsWell ok s (threeForm op rd ra rb s) :=
  attempt_ends _ _ _ _ ((sound_regOperand h1).bind fun _ _ => (sound_regOperand h2).bind fun _ _ =>
    (sound_regOperand h3).bind fun _ _ => ((Worked.refl s).enter _).setReg _ _)

theorem loadAbsForm_ends {rd : RegByte} (h : ok = true → rd.valid = true) (n : Nat) (addr : Half) :
    EndsWell ok s (loadAbsForm n rd addr s) :=
  attempt_ends _ _ _ _ ((sound_regOperand h).bind fun _ _ => (sound_memRead _ _ _).bind fun _ _ =>
    ((Worked.refl s).enter _).setReg _ _)

theorem loadIndForm_ends {rd rp : RegByte} (h1 : ok = true → rd.valid = true)
    (h2 : ok = true → rp.valid = true) (n : Nat) : EndsWell ok s (loadIndForm n rd rp s) :=
  attempt_ends _ _ _ _ ((sound_regOperand h1).bind fun _ _ => (sound_regOperand h2).bind fun _ _ =>
    (sound_memRead _ _ _).bind fun _ _ => ((Worked.refl s).enter _).setReg _ _)

theorem storeAbsForm_ends {rs : RegByte} (h : ok = true → rs.valid = true) (n : Nat) (addr : Half) :
    EndsWell ok s (storeAbsForm n rs addr s) :=
  attempt_ends _ _ _ _ ((sound_regOperand h).bind fun _ _ =>
    sound_memWrite ((Worked.refl s).enter _) _ _ _)

theorem storeIndForm_ends {rs rp : RegByte} (h1 : ok = true → rs.valid = true)
    (h2 : ok = true → rp.valid = true) (n : Nat) : EndsWell ok s (storeIndForm n rs rp s) :=
  attempt_ends _ _ _ _ ((sound_regOperand h1).bind fun _ _ => (sound_regOperand h2).bind fun _ _ =>
    sound_memWrite ((Worked.refl s).enter _) _ _ _)

theorem jumpOneForm_ends {ra : RegByte} (h : ok = true → ra.valid = true) (taken : Word → Bool)
    (addr : Half) : EndsWell ok s (jumpOneForm taken addr ra s) :=
  attempt_ends _ _ _ _ ((sound_regOperand h).bind fun _ _ => by
    show Worked s (ite _ _ _)
    split
    · exact ((Worked.refl s).enter _).jump _
    · exact (Worked.refl s).enter _)

theorem jumpTwoForm_ends {ra rb : RegByte} (h1 : ok = true → ra.valid = true)
    (h2 : ok = true → rb.valid = true) (c : Cond) (addr : Half) :
    EndsWell ok s (jumpTwoForm c addr ra rb s) :=
  attempt_ends _ _ _ _ ((sound_regOperand h1).bind fun _ _ => (sound_regOperand h2).bind fun _ _ => by
    show Worked s (ite _ _ _)
    split
    · exact ((Worked.refl s).enter _).jump _
    · exact (Worked.refl s).enter _)

theorem outputForm_ends {rs : RegByte} (h : ok = true → rs.valid = true)
    (q : Word → Bool → Request) (nl : Byte)
    (hq : ∀ v b, (q v b).kind ∈ s.hostKinds → Allowed s (.request (q v b))) :
    EndsWell ok s (outputForm q rs nl s) :=
  attempt_ends _ _ _ _ ((sound_regOperand h).bind fun _ _ =>
    (sound_requestAt _ _ _ (hq _ _)).bind fun _ hp => hp)

theorem inputForm_ends {rd : RegByte} (h : ok = true → rd.valid = true) (q : Request)
    (value : Callback → Word) (hq : q.kind ∈ s.hostKinds → Allowed s (.request q)) :
    EndsWell ok s (inputForm q value rd s) :=
  attempt_ends _ _ _ _ ((sound_regOperand h).bind fun _ _ =>
    (sound_requestAt _ _ _ hq).bind fun _ hp => hp.setReg _ _)

theorem pinReadForm_ends {rd rp : RegByte} (h1 : ok = true → rd.valid = true)
    (h2 : ok = true → rp.valid = true) (q : Word → Request)
    (hq : ∀ v, (q v).kind ∈ s.hostKinds → Allowed s (.request (q v))) :
    EndsWell ok s (pinReadForm q rd rp s) :=
  attempt_ends _ _ _ _ ((sound_regOperand h1).bind fun _ _ => (sound_regOperand h2).bind fun _ _ =>
    (sound_requestAt _ _ _ (hq _)).bind fun _ hp => hp.setReg _ _)

theorem pinWriteForm_ends {rp rv : RegByte} (h1 : ok = true → rp.valid = true)
    (h2 : ok = true → rv.valid = true) (q : Word → Word → Request)
    (hq : ∀ v u, (q v u).kind ∈ s.hostKinds → Allowed s (.request (q v u))) :
    EndsWell ok s (pinWriteForm q rp rv s) :=
  attempt_ends _ _ _ _ ((sound_regOperand h1).bind fun _ _ => (sound_regOperand h2).bind fun _ _ =>
    (sound_requestAt _ _ _ (hq _ _)).bind fun _ hp => hp)

/-! ### The remaining meanings -/

theorem endsWell_stop {t : State} (h : Worked s t) (hip : t.reg .ip = s.reg .ip) :
    EndsWell ok s (stopFinished t) := by
  refine ⟨.stops t h hip, fun _ h' => ?_⟩
  rw [stopFinished, Host.Outcome.next.injEq] at h'
  have := congrArg State.replies h'
  simp at this

theorem execInt_ends (code : Byte) : EndsWell ok s (execInt code s) := by
  unfold execInt
  split
  · refine ⟨.faults _ rfl, fun _ h' => ?_⟩
    rw [raise, Host.Outcome.next.injEq] at h'
    have := congrArg State.replies h'
    simp at this
  · rename_i h hh
    have hw := worked_transact (s := s) (x := .interrupt h code) (by simp [Allowed, hh])
    split
    rename_i c t e
    obtain rfl : t = (s.transact (.interrupt h code)).2 := by rw [e]
    split
    · rcases attempt_cases .FB (s.transact (.interrupt h code)).2 (fun w => return w) with
        ⟨w, hb, e'⟩ | ⟨_, hb, _⟩
      · have hw' : Worked s w := by
          cases hb
          exact hw.1.enter _
        have := attempt_ends .FB s (fun _ => return w) ok hw'
        rw [attempt_ok (w := w) rfl] at this
        rw [e']
        exact this
      · cases hb
    · exact endsWell_stop hw.1 hw.2

theorem execPush_ends {rs : RegByte} (h : ok = true → rs.valid = true) :
    EndsWell ok s (execPush rs s) :=
  attempt_ends _ _ _ _ ((sound_regOperand h).bind fun _ _ =>
    sound_pushWord ((Worked.refl s).enter _) _)

theorem execPop_ends {rd : RegByte} (h : ok = true → rd.valid = true) :
    EndsWell ok s (execPop rd s) :=
  attempt_ends _ _ _ _ ((sound_regOperand h).bind fun _ _ =>
    (sound_popWord ((Worked.refl s).enter _)).bind fun _ hp => hp.setReg _ _)

theorem execPop2_ends {rd1 rd2 : RegByte} (h1 : ok = true → rd1.valid = true)
    (h2 : ok = true → rd2.valid = true) : EndsWell ok s (execPop2 rd1 rd2 s) :=
  attempt_ends _ _ _ _ ((sound_regOperand h1).bind fun _ _ => (sound_regOperand h2).bind fun _ _ =>
    (sound_popTwo ((Worked.refl s).enter _)).bind fun _ hp => (hp.setReg _ _).setReg _ _)

theorem execDup_ends : EndsWell ok s (execDup s) :=
  attempt_ends _ _ _ _ ((sound_topWord _).bind fun _ _ =>
    sound_pushWord ((Worked.refl s).enter _) _)

theorem execMemcpyP_ends {rd rr rn : RegByte} (h1 : ok = true → rd.valid = true)
    (h2 : ok = true → rr.valid = true) (h3 : ok = true → rn.valid = true) :
    EndsWell ok s (execMemcpyP rd rr rn s) :=
  attempt_ends _ _ _ _ ((sound_regOperand h1).bind fun _ _ => (sound_regOperand h2).bind fun _ _ =>
    (sound_regOperand h3).bind fun _ _ => sound_blockCopy ((Worked.refl s).enter _) _ _ _)

theorem execPrints_ends (addr : Half) (nl : Byte) : EndsWell ok s (execPrints addr nl s) :=
  attempt_ends _ _ _ _ (by
    refine Sound.bind (P := fun str => (0 : Byte) ∉ str) ?_ fun str hs =>
      (sound_requestAt _ _ _ fun hk => ⟨hk, hs⟩).bind fun _ hp => hp
    unfold State.readString
    split
    · rename_i bs e
      exact Memory.scanString_no_zero _ _ _ _ e
    · exact ⟨rfl, fun _ => nofun⟩)

theorem length_lineAnswer (c : Callback) (n : Nat) : (lineAnswer c n).length ≤ n := by
  simp [lineAnswer]

theorem execReads_ends (addr len : Half) : EndsWell ok s (execReads addr len s) :=
  attempt_ends _ _ _ _ (by
    split
    · exact ⟨rfl, fun _ => nofun⟩
    · rename_i hb
      split
      · exact (Worked.refl s).enter _
      · rename_i hn
        refine (sound_requestAt _ _ _ fun hk => ⟨hk, trivial⟩).bind fun p hp => ?_
        refine hp.writeBytes _ _ ?_
        have h1 := length_lineAnswer p.1 (len.toNat - 1)
        have h2 : len.toNat ≠ 0 := fun e => hn (BitVec.eq_of_toNat_eq e)
        have h3 : (zext16 addr).toNat = addr.toNat := by simp [zext16]; omega
        have h4 : (zext16 len).toNat = len.toNat := by simp [zext16]; omega
        rw [h3, h4] at hb
        simp only [State.enter_memSize] at hb
        simp only [List.length_append, List.length_singleton]
        omega)

theorem execI2s_ends {rs : RegByte} (h : ok = true → rs.valid = true) (addr : Half) :
    EndsWell ok s (execI2s addr rs s) :=
  attempt_ends _ _ _ _ ((sound_regOperand h).bind fun r _ => by
    dsimp only
    split
    · exact ⟨rfl, fun _ => nofun⟩
    · rename_i hb
      refine ((Worked.refl s).enter .FHR).writeBytes _ _ ?_
      simp only [State.enter_memSize] at hb
      simp only [List.length_append, List.length_singleton]
      omega)

theorem execS2i_ends {rd : RegByte} (h : ok = true → rd.valid = true) (addr : Half) :
    EndsWell ok s (execS2i addr rd s) :=
  attempt_ends _ _ _ _ ((sound_regOperand h).bind fun _ _ => by
    refine Sound.bind (P := fun _ => True) ?_ fun _ _ => ((Worked.refl s).enter .FHR).setReg _ _
    rcases State.parseInt_cases (s.enter .FHR) (zext16 addr) with ⟨_, _, e⟩ | ⟨_, e⟩ <;> rw [e]
    · trivial
    · exact ⟨rfl, fun _ => nofun⟩)

theorem execNop_ends : EndsWell ok s (execNop s) :=
  attempt_ends _ _ _ _ (show Worked s _ from (Worked.refl s).enter _)

theorem execCall_ends (addr : Half) : EndsWell ok s (execCall addr s) :=
  attempt_ends _ _ _ _ (show Worked s _ from (((Worked.refl s).enter _).setReg _ _).jump _)

theorem execRet_ends : EndsWell ok s (execRet s) :=
  attempt_ends _ _ _ _ (show Worked s _ from ((Worked.refl s).enter _).jump _)

theorem execMemcpy_ends (d r n : Half) : EndsWell ok s (execMemcpy d r n s) :=
  attempt_ends _ _ _ _ (sound_blockCopy ((Worked.refl s).enter _) _ _ _)

theorem execJmp_ends (addr : Half) : EndsWell ok s (execJmp addr s) :=
  attempt_ends _ _ _ _ (show Worked s _ from ((Worked.refl s).enter _).jump _)

theorem execJr_ends {rs : RegByte} (h : ok = true → rs.valid = true) : EndsWell ok s (execJr rs s) :=
  attempt_ends _ _ _ _ ((sound_regOperand h).bind fun _ _ => show Worked s _ from
    ((Worked.refl s).enter _).jump _)

theorem sound_ok {α : Type} (a : α) : Sound ok (fun _ => True) (.ok a) := trivial

theorem sound_divisor (b : Word) (v : Word) :
    Sound ok (fun _ => True) (if b = 0 then .error .divisionByZero else .ok v) := by
  split
  · exact ⟨rfl, fun _ => nofun⟩
  · trivial

end

/-- R8, R313, R316: how any instruction ends in any state. -/
theorem exec_ends (i : Instr) (s : State) : EndsWell i.wellFormed s (exec i s) := by
  have one : ∀ {a : RegByte}, [a].all RegByte.valid = true → a.valid = true := by simp
  have two : ∀ {a b : RegByte}, [a, b].all RegByte.valid = true → a.valid = true ∧ b.valid = true := by
    simp
  have three : ∀ {a b c : RegByte}, [a, b, c].all RegByte.valid = true →
      a.valid = true ∧ b.valid = true ∧ c.valid = true := by simp
  cases i with
  | nop => exact execNop_ends
  | halt => exact endsWell_stop (.refl s) rfl
  | int code => exact execInt_ends code
  | lcons | lconsw | lconsb => exact literalForm_ends one _ _
  | mov => exact moveForm_ends (two · |>.1) (two · |>.2) _
  | push => exact execPush_ends one
  | pop => exact execPop_ends one
  | pop2 => exact execPop2_ends (two · |>.1) (two · |>.2)
  | dup => exact execDup_ends
  | call => exact execCall_ends _
  | ret => exact execRet_ends
  | stor | storw | storb => exact storeAbsForm_ends one _ _
  | storP | storwP | storbP => exact storeIndForm_ends (two · |>.1) (two · |>.2) _
  | load | loadw | loadb => exact loadAbsForm_ends one _ _
  | loadP | loadwP | loadbP => exact loadIndForm_ends (two · |>.1) (two · |>.2) _
  | memcpy => exact execMemcpy_ends _ _ _
  | memcpyP => exact execMemcpyP_ends (three · |>.1) (three · |>.2.1) (three · |>.2.2)
  | inc | dec | finc | fdec | not | u2i | i2u =>
    simp only [exec, execInc, execDec, execFinc, execFdec, execNot, execU2i, execI2u]
    exact inPlaceForm_ends one _
  | add | mul | and | or | xor | imul | fadd | fmul =>
    simp only [exec, execAdd, execMul, execAnd, execOr, execXor, execImul, execFadd, execFmul]
    exact threeForm_ends (three · |>.1) (three · |>.2.1) (three · |>.2.2) _
  | sub | shl | shr | ishr | fsub | fdiv =>
    simp only [exec, execSub, execShl, execShr, execIshr, execFsub, execFdiv]
    exact accumulateForm_ends (two · |>.1) (two · |>.2) _ fun _ _ => sound_ok _
  | div | mod | idiv | imod =>
    simp only [exec, execDiv, execMod, execIdiv, execImod]
    exact accumulateForm_ends (two · |>.1) (two · |>.2) _ fun _ _ => sound_divisor _ _
  | i2f | f2i => exact moveForm_ends (two · |>.1) (two · |>.2) _
  | jmp => exact execJmp_ends _
  | jr => exact execJr_ends one
  | jz | jnz =>
    simp only [exec, execJz, execJnz]
    exact jumpOneForm_ends one _ _
  | je | jne | ja | jg | jae | jge | jb | jl | jbe | jle =>
    simp only [exec, execJe, execJne, execJa, execJg, execJae, execJge, execJb, execJl, execJbe,
      execJle]
    exact jumpTwoForm_ends (two · |>.1) (two · |>.2) _ _
  | print | printi | printf | printc =>
    simp only [exec, execPrint, execPrinti, execPrintf, execPrintc]
    refine outputForm_ends one _ _ ?_
    exact fun _ _ hk => ⟨hk, trivial⟩
  | prints => exact execPrints_ends _ _
  | read | readi | readf | readc =>
    simp only [exec, execRead, execReadi, execReadf, execReadc]
    refine inputForm_ends one _ _ ?_
    exact fun hk => ⟨hk, trivial⟩
  | reads => exact execReads_ends _ _
  | i2s => exact execI2s_ends one _
  | s2i => exact execS2i_ends one _
  | dread | aread =>
    refine pinReadForm_ends (two · |>.1) (two · |>.2) _ ?_
    exact fun _ hk => ⟨hk, trivial⟩
  | dwrite | awrite | pinmode =>
    refine pinWriteForm_ends (two · |>.1) (two · |>.2) _ ?_
    exact fun _ _ hk => ⟨hk, trivial⟩

end Sys2Proof.Machine
end

