-- ==== Sys2Proof/Laws/Float32.lean ====
section
/-! SUPPORT. What rounding to binary32 gives, said once (45_float.md R211, R212, R221): the rounded
magnitude of `roundMag` is the nearest of all finite patterns, ties to even, or the infinity. -/

namespace Sys2Proof.Machine

/-- The units of 2^-149 that the low 31 bits of a finite pattern stand for. -/
def magOf (p : Nat) : Nat := if p < 2 ^ 23 then p else (p % 2 ^ 23 + 2 ^ 23) * 2 ^ (p / 2 ^ 23 - 1)

theorem withSign_toNat (neg : Bool) {p : Nat} (h : p < 2 ^ 31) :
    (withSign neg p).toNat = (if neg then 2 ^ 31 else 0) + p := by
  rw [withSign, BitVec.toNat_ofNat, Nat.mod_eq_of_lt]
  split <;> omega

theorem withSign_msb (neg : Bool) {p : Nat} (h : p < 2 ^ 31) : (withSign neg p).msb = neg := by
  rw [BitVec.msb_eq_decide, withSign_toNat neg h]
  cases neg <;> simp <;> omega

theorem f32_withSign (neg : Bool) {p : Nat} (h : p < 0x7F800000) :
    f32 (withSign neg p) = .fin neg (magOf p) := by
  have hp : p < 2 ^ 31 := by omega
  have he : ((withSign neg p).extractLsb' 23 8).toNat = p / 2 ^ 23 := by
    rw [BitVec.extractLsb'_toNat, withSign_toNat neg hp, Nat.shiftRight_eq_div_pow]
    split <;> omega
  have hf : ((withSign neg p).extractLsb' 0 23).toNat = p % 2 ^ 23 := by
    rw [BitVec.extractLsb'_toNat, withSign_toNat neg hp]
    split <;> simp <;> omega
  simp only [f32, he, hf, withSign_msb neg hp, magOf]
  rw [if_neg (by omega)]
  by_cases hs : p < 2 ^ 23
  · rw [if_pos (by omega), if_pos hs, Nat.mod_eq_of_lt hs]
  · rw [if_neg (by omega), if_neg hs]

theorem f32_fin {v : Word} {neg : Bool} {m : Nat} (h : f32 v = .fin neg m) :
    neg = v.msb ∧ ∃ p, p < 0x7F800000 ∧ m = magOf p ∧ v = withSign neg p := by
  obtain ⟨b, p, hp, rfl⟩ : ∃ b p, p < 2 ^ 31 ∧ v = withSign b p := by
    refine ⟨v.msb, v.toNat % 2 ^ 31, Nat.mod_lt _ (by decide), ?_⟩
    apply BitVec.eq_of_toNat_eq
    rw [withSign_toNat _ (Nat.mod_lt _ (by decide)), BitVec.msb_eq_decide]
    have := v.isLt
    by_cases hv : 2 ^ 31 ≤ v.toNat
    · rw [if_pos (by simpa using hv)]; omega
    · rw [if_neg (by simpa using hv)]; omega
  by_cases hl : p < 0x7F800000
  · rw [f32_withSign b hl] at h
    injection h with h1 h2
    subst h1
    exact ⟨(withSign_msb _ hp).symm, p, hl, h2.symm, rfl⟩
  · exfalso
    have he : ((withSign b p).extractLsb' 23 8).toNat = 255 := by
      rw [BitVec.extractLsb'_toNat, withSign_toNat b hp, Nat.shiftRight_eq_div_pow]
      split <;> omega
    simp only [f32, he, if_true] at h
    split at h <;> simp at h

theorem roundDiv_cases (num den : Nat) :
    (roundDiv num den = num / den ∧
      (2 * (num % den) < den ∨ 2 * (num % den) = den ∧ num / den % 2 = 0)) ∨
    (roundDiv num den = num / den + 1 ∧
      (den < 2 * (num % den) ∨ 2 * (num % den) = den ∧ num / den % 2 = 1)) := by
  unfold roundDiv
  simp only []
  split <;> omega

theorem roundDiv_near (num den z : Nat) (hd : 0 < den) :
    |(roundDiv num den * den : Int) - num| ≤ |(z * den : Int) - num| ∧
    (|(z * den : Int) - num| = |(roundDiv num den * den : Int) - num| →
      z ≠ roundDiv num den → roundDiv num den % 2 = 0) := by
  have e := Nat.div_add_mod num den
  have hr := Nat.mod_lt num hd
  have hc := roundDiv_cases num den
  set q := num / den with hq
  set r := num % den
  set c := roundDiv num den
  have hN : (num : Int) = q * den + r := by rw [← e]; push_cast; ring
  obtain ⟨X, hX⟩ : ∃ X : Int, X = (z - q) * den := ⟨_, rfl⟩
  have ez : (z * den : Int) - num = X - r := by rw [hN, hX]; ring
  have hx : (z = q ∧ X = 0) ∨ (z = q + 1 ∧ X = den) ∨ (z < q ∧ X ≤ -den) ∨
      (q + 1 < z ∧ 2 * (den : Int) ≤ X) := by
    rcases lt_trichotomy z q with h | h | h
    · exact .inr (.inr (.inl ⟨h, by rw [hX]; nlinarith⟩))
    · exact .inl ⟨h, by rw [hX, h]; ring⟩
    · rcases Nat.lt_or_ge (q + 1) z with h' | h'
      · exact .inr (.inr (.inr ⟨h', by rw [hX]; nlinarith⟩))
      · have : z = q + 1 := by omega
        exact .inr (.inl ⟨this, by rw [hX, this]; push_cast; ring⟩)
  rcases hc with ⟨hc, hb⟩ | ⟨hc, hb⟩
  · have ec : (c * den : Int) - num = -r := by rw [hN, hc]; ring
    rw [ez, ec, abs_of_nonpos (by omega : (-r : Int) ≤ 0)]
    rcases abs_cases (X - r) with ⟨ha, _⟩ | ⟨ha, _⟩ <;> rw [ha] <;> constructor <;> omega
  · have ec : (c * den : Int) - num = den - r := by rw [hN, hc]; push_cast; ring
    rw [ez, ec, abs_of_nonneg (by omega : (0 : Int) ≤ den - r)]
    rcases abs_cases (X - r) with ⟨ha, _⟩ | ⟨ha, _⟩ <;> rw [ha] <;> constructor <;> omega

theorem roundDiv_le (num den b : Nat) (h : num / den < b) : roundDiv num den ≤ b := by
  rcases roundDiv_cases num den with ⟨hc, _⟩ | ⟨hc, _⟩ <;> omega

theorem le_roundDiv (num den b : Nat) (h : b ≤ num / den) : b ≤ roundDiv num den := by
  rcases roundDiv_cases num den with ⟨hc, _⟩ | ⟨hc, _⟩ <;> omega

theorem magOf_eq {k m : Nat} (h : k = 0 ∨ 2 ^ 23 ≤ m) (hm : m ≤ 2 ^ 24) :
    magOf (k * 2 ^ 23 + m) = m * 2 ^ k := by
  unfold magOf
  rcases Nat.lt_or_ge (k * 2 ^ 23 + m) (2 ^ 23) with hs | hs
  · have : k = 0 := by omega
    subst this; rw [if_pos hs]; simp
  · rw [if_neg (by omega)]
    rcases Nat.lt_or_ge m (2 ^ 23) with h1 | h1
    · omega
    rcases Nat.eq_or_lt_of_le hm with h2 | h2
    · subst h2
      rw [show (k * 2 ^ 23 + 2 ^ 24) / 2 ^ 23 - 1 = k + 1 by omega,
        show (k * 2 ^ 23 + 2 ^ 24) % 2 ^ 23 = 0 by omega, Nat.pow_succ]
      ring
    · rw [show (k * 2 ^ 23 + m) / 2 ^ 23 - 1 = k by omega,
        show (k * 2 ^ 23 + m) % 2 ^ 23 + 2 ^ 23 = m by omega]

/-- A number of the format is a multiple of a spacing, or lies below the range of that spacing. -/
theorem magOf_dvd (p k : Nat) : (∃ z, magOf p = z * 2 ^ k) ∨ magOf p < 2 ^ 23 * 2 ^ k := by
  rcases Nat.lt_or_ge p (2 ^ 23) with h | h
  · have e : magOf p = p := by rw [magOf, if_pos h]
    rcases Nat.eq_zero_or_pos k with rfl | hk
    · exact .inl ⟨p, by simpa using e⟩
    · exact .inr (by rw [e]; exact lt_of_lt_of_le h (Nat.le_mul_of_pos_right _ (by positivity)))
  · rw [magOf, if_neg (by omega)]
    rcases Nat.lt_or_ge (p / 2 ^ 23 - 1) k with hk | hk
    · right
      obtain ⟨d, rfl⟩ : ∃ d, k = p / 2 ^ 23 - 1 + (d + 1) := ⟨k - (p / 2 ^ 23 - 1) - 1, by omega⟩
      have h1 : p % 2 ^ 23 < 2 ^ 23 := Nat.mod_lt _ (by positivity)
      rw [Nat.pow_add, ← mul_assoc, mul_comm (2 ^ 23) , mul_assoc, mul_comm]
      apply Nat.mul_lt_mul_of_pos_left _ (by positivity)
      have : 1 ≤ 2 ^ d := Nat.one_le_two_pow
      rw [Nat.pow_succ]; omega
    · left
      obtain ⟨d, hd⟩ : ∃ d, p / 2 ^ 23 - 1 = d + k := ⟨p / 2 ^ 23 - 1 - k, by omega⟩
      exact ⟨(p % 2 ^ 23 + 2 ^ 23) * 2 ^ d, by rw [hd, Nat.pow_add, mul_assoc]⟩

/-- The exponent and the significand that rounding chooses. -/
theorem roundMag_parts (num den : Nat) :
    ∃ k m, roundMag num den = min (k * 2 ^ 23 + m) 0x7F800000 ∧ m = roundDiv num (den * 2 ^ k) ∧
      num / den / 2 ^ k < 2 ^ 24 ∧ (k = 0 ∨ 2 ^ 23 ≤ num / den / 2 ^ k) := by
  refine ⟨Nat.log2 (num / den) - 23, _, rfl, rfl, ?_, ?_⟩
  all_goals set q := num / den
  · have h : q < 2 ^ (Nat.log2 q + 1) := Nat.lt_log2_self
    rw [Nat.div_lt_iff_lt_mul (by positivity), ← Nat.pow_add]
    exact lt_of_lt_of_le h (Nat.pow_le_pow_right (by decide) (by omega))
  · rcases Nat.eq_zero_or_pos (Nat.log2 q - 23) with h | h
    · exact .inl h
    · right
      have hq : q ≠ 0 := by rintro h0; rw [h0] at h; simp at h
      have : 2 ^ Nat.log2 q ≤ q := Nat.log2_self_le hq
      rw [Nat.le_div_iff_mul_le (by positivity), ← Nat.pow_add]
      exact le_trans (Nat.pow_le_pow_right (by decide) (by omega)) this

/-- R211, R221: what rounding a non-negative number to the format gives: the infinity pattern at or
beyond halfway past the largest finite number, else the nearest finite pattern, the even one of two
that are as near. -/
theorem roundMag_spec (num den : Nat) (hd : 0 < den) :
    ((2 ^ 25 - 1) * 2 ^ 252 * den ≤ num → roundMag num den = 0x7F800000) ∧
    (num < (2 ^ 25 - 1) * 2 ^ 252 * den → roundMag num den < 0x7F800000 ∧
      ∀ p, |(magOf (roundMag num den) * den : Int) - num| ≤ |(magOf p * den : Int) - num| ∧
        (|(magOf p * den : Int) - num| = |(magOf (roundMag num den) * den : Int) - num| →
          magOf p ≠ magOf (roundMag num den) → roundMag num den % 2 = 0)) := by
  obtain ⟨k, m, hr, hm, hq, hk⟩ := roundMag_parts num den
  have hd' : 0 < den * 2 ^ k := by positivity
  rw [Nat.div_div_eq_div_mul] at hq hk
  have hm1 : m ≤ 2 ^ 24 := hm ▸ roundDiv_le _ _ _ hq
  have hm2 : k = 0 ∨ 2 ^ 23 ≤ m := hk.imp_right fun h => hm ▸ le_roundDiv _ _ _ h
  have hc := roundDiv_cases num (den * 2 ^ k)
  rw [← hm] at hc
  have e := Nat.div_add_mod num (den * 2 ^ k)
  have hlt := Nat.mod_lt num hd'
  obtain ⟨c, hcdef⟩ : ∃ c : Nat, c = 2 ^ 252 := ⟨_, rfl⟩
  rw [← hcdef]
  have low : k < 253 → den * 2 ^ k * 2 ^ 24 ≤ den * c * 2 ^ 24 := fun h => by
    have : 2 ^ k ≤ c := hcdef ▸ Nat.pow_le_pow_right (by decide) (by omega)
    gcongr
  have mid : k = 253 → den * 2 ^ k = 2 * (den * c) := fun h => by
    rw [h, Nat.pow_succ, ← hcdef]; ring
  have high : 253 < k → 4 * (den * c) ≤ den * 2 ^ k := fun h => by
    have : 2 ^ 254 ≤ 2 ^ k := Nat.pow_le_pow_right (by decide) (by omega)
    have : 4 * c ≤ 2 ^ k := by rw [hcdef]; omega
    calc 4 * (den * c) = den * (4 * c) := by ring
      _ ≤ _ := by gcongr
  have above := (Nat.div_lt_iff_lt_mul hd').1 hq
  have below : k = 0 ∨ 2 ^ 23 * (den * 2 ^ k) ≤ num :=
    hk.imp_right fun h => (Nat.le_div_iff_mul_le hd').1 h
  rw [show (2 ^ 25 - 1) * c * den = (2 ^ 25 - 1) * (den * c) by ring]
  obtain ⟨C, hC⟩ : ∃ C, C = den * c := ⟨_, rfl⟩
  rw [← hC] at low mid high ⊢
  have fits : k * 2 ^ 23 + m < 0x7F800000 ↔ num < (2 ^ 25 - 1) * C := by
    obtain ⟨D, hD⟩ : ∃ D, D = den * 2 ^ k := ⟨_, rfl⟩
    rw [← hD] at low mid high above below hc e hlt hd' hk
    obtain ⟨q, hqd⟩ : ∃ q, q = num / D := ⟨_, rfl⟩
    obtain ⟨r, hrd⟩ : ∃ r, r = num % D := ⟨_, rfl⟩
    rw [← hqd] at hc e hk
    rw [← hrd] at hc e hlt
    rcases lt_trichotomy k 253 with h | h | h
    · have := low h
      constructor <;> omega
    · have := mid h
      have hq2 : q < 2 ^ 24 := by
        by_contra hcon
        have : D * 2 ^ 24 ≤ D * q := Nat.mul_le_mul_left _ (by omega)
        omega
      rcases Nat.lt_or_ge q (2 ^ 24 - 1) with h1 | h1
      · have : D * q ≤ D * (2 ^ 24 - 2) := Nat.mul_le_mul_left _ (by omega)
        constructor <;> omega
      · have : q = 2 ^ 24 - 1 := by omega
        subst this
        constructor <;> omega
    · have := high h
      constructor <;> omega
  refine ⟨fun h => ?_, fun h => ?_⟩
  · rw [hr]; omega
  · have hfin := fits.2 h
    rw [hr, Nat.min_eq_left hfin.le]
    refine ⟨hfin, fun p => ?_⟩
    rw [magOf_eq hm2 hm1]
    have ec : ((m * 2 ^ k : Nat) * den : Int) = m * ((den * 2 ^ k : Nat) : Int) := by push_cast; ring
    rw [ec]
    have par : (k * 2 ^ 23 + m) % 2 = m % 2 := by omega
    rw [par]
    rcases magOf_dvd p k with ⟨z, hz⟩ | hp
    · have := roundDiv_near num (den * 2 ^ k) z hd'
      rw [← hm] at this
      have ez : ((magOf p : Nat) * den : Int) = z * ((den * 2 ^ k : Nat) : Int) := by
        rw [hz]; push_cast; ring
      rw [ez]
      refine ⟨this.1, fun h1 h2 => this.2 h1 ?_⟩
      rintro rfl; exact h2 hz
    · rcases below with rfl | hb
      · have := roundDiv_near num (den * 2 ^ 0) (magOf p) hd'
        rw [← hm] at this
        have ez : ((magOf p : Nat) * den : Int) = magOf p * ((den * 2 ^ 0 : Nat) : Int) := by
          push_cast; ring
        rw [ez]
        refine ⟨this.1, fun h1 h2 => this.2 h1 ?_⟩
        rintro h3; exact h2 (by rw [h3]; ring)
      · have h1 := (roundDiv_near num (den * 2 ^ k) (2 ^ 23) hd').1
        rw [← hm] at h1
        have h2 : (magOf p : Int) * den < 2 ^ 23 * ((den * 2 ^ k : Nat) : Int) := by
          have : magOf p * den < 2 ^ 23 * 2 ^ k * den := by gcongr
          have e2 : 2 ^ 23 * 2 ^ k * den = 2 ^ 23 * (den * 2 ^ k) := by ring
          rw [e2] at this
          exact_mod_cast this
        have h3 : (2 ^ 23 : Int) * ((den * 2 ^ k : Nat) : Int) ≤ num := by exact_mod_cast hb
        rw [show (((2 ^ 23 : Nat) : Int)) = 2 ^ 23 by norm_num] at h1
        obtain ⟨D, hD⟩ : ∃ D : Int, D = ((den * 2 ^ k : Nat) : Int) := ⟨_, rfl⟩
        rw [← hD] at h1 h2 h3 ⊢
        rw [abs_of_nonpos (by omega : 2 ^ 23 * D - (num : Int) ≤ 0)] at h1
        rw [abs_of_nonpos (by omega : (magOf p : Int) * den - num ≤ 0)]
        constructor <;> omega

theorem abs_mul_of_pos (x : ℚ) {c : ℚ} (h : 0 < c) : |x * c| = |x| * c := by
  rw [abs_mul, abs_of_pos h]

theorem signed_dist (neg : Bool) (a num den : Nat) (hd : 0 < den) :
    |((signed neg a : Int) : ℚ) / 2 ^ 149 - ((signed neg num : Int) : ℚ) / den / 2 ^ 149| =
      ((|(a * den : Int) - num| : Int) : ℚ) / (den * 2 ^ 149) := by
  have h : (0 : ℚ) < den * 2 ^ 149 := by positivity
  rw [eq_div_iff h.ne', Int.cast_abs, ← abs_mul_of_pos _ h]
  have hd' : (den : ℚ) ≠ 0 := by positivity
  cases neg
  · congr 1; simp [signed]; field_simp
  · rw [← abs_neg]; congr 1; simp [signed]; field_simp; ring

theorem signed_dist_opposite (neg : Bool) (a num den : Nat) (hd : 0 < den) :
    |((signed (!neg) a : Int) : ℚ) / 2 ^ 149 - ((signed neg num : Int) : ℚ) / den / 2 ^ 149| =
      (((a * den : Int) + num : Int) : ℚ) / (den * 2 ^ 149) := by
  have h : (0 : ℚ) < den * 2 ^ 149 := by positivity
  have hd' : (den : ℚ) ≠ 0 := by positivity
  rw [eq_div_iff h.ne', ← abs_mul_of_pos _ h]
  have hn : (0 : ℚ) ≤ (((a * den : Int) + num : Int) : ℚ) := by push_cast; positivity
  rw [← abs_of_nonneg hn]
  cases neg
  · rw [← abs_neg]; congr 1; simp [signed]; field_simp; ring
  · congr 1; simp [signed]; field_simp; ring

theorem finiteValue_withSign (neg : Bool) {p : Nat} (h : p < 0x7F800000) :
    finiteValue (withSign neg p) = some (((signed neg (magOf p) : Int) : ℚ) / 2 ^ 149) := by
  rw [finiteValue, f32_withSign neg h]

theorem finiteValue_some {v : Word} {x : ℚ} (h : finiteValue v = some x) :
    ∃ neg p, p < 0x7F800000 ∧ v = withSign neg p ∧
      x = ((signed neg (magOf p) : Int) : ℚ) / 2 ^ 149 := by
  unfold finiteValue at h
  split at h
  · rename_i n m hv
    obtain ⟨-, p, hp, rfl, e⟩ := f32_fin hv
    exact ⟨n, p, hp, e, by simpa using h.symm⟩
  · simp at h
  · simp at h

theorem withSign_getLsbD_zero (neg : Bool) {p : Nat} (h : p < 2 ^ 31) (he : p % 2 = 0) :
    (withSign neg p).getLsbD 0 = false := by
  rw [BitVec.getLsbD, withSign_toNat neg h, Nat.testBit_zero]
  split <;> simp <;> omega

theorem roundMag_le (num den : Nat) : roundMag num den ≤ 0x7F800000 := Nat.min_le_right _ _

/-- R211, R221: the sign of a number and the rounded magnitude make the correctly rounded result. -/
theorem roundsTo_withSign (neg : Bool) (num den : Nat) (hd : 0 < den) (hn : 0 < num) :
    RoundsTo (((signed neg num : Int) : ℚ) / den / 2 ^ 149) (withSign neg (roundMag num den)) := by
  have hle : roundMag num den < 2 ^ 31 := lt_of_le_of_lt (roundMag_le num den) (by decide)
  have hdq : (0 : ℚ) < den := by positivity
  have hnq : (0 : ℚ) < num := by positivity
  have hpos : (0 : ℚ) < num / den / 2 ^ 149 := by positivity
  have hneg : (((signed neg num : Int) : ℚ) / den / 2 ^ 149 < 0) ↔ neg = true := by
    cases neg
    · simp [signed]; positivity
    · simp [signed]; rw [neg_div, neg_div]; linarith
  have habs : |((signed neg num : Int) : ℚ) / den / 2 ^ 149| = (num : ℚ) / den / 2 ^ 149 := by
    cases neg
    · simp only [signed, Bool.false_eq_true, if_false, Int.cast_natCast]
      exact abs_of_pos hpos
    · simp only [signed, if_true, Int.cast_neg, Int.cast_natCast, neg_div, abs_neg]
      exact abs_of_pos hpos
  have hthr : (2 ^ 25 - 1) * 2 ^ 103 ≤ ((num : ℚ) / den / 2 ^ 149) ↔
      (2 ^ 25 - 1) * 2 ^ 252 * den ≤ num := by
    rw [div_div, le_div_iff₀ (by positivity)]
    rw [← Nat.cast_le (α := ℚ)]
    push_cast
    have : ((2 : ℚ) ^ 25 - 1) * 2 ^ 103 * (den * 2 ^ 149) = (2 ^ 25 - 1) * 2 ^ 252 * den := by ring
    rw [this]
    norm_num
  obtain ⟨h1, h2⟩ := roundMag_spec num den hd
  refine ⟨?_, ?_⟩
  · rw [withSign_msb neg hle]; simp only [hneg]; simp
  rw [habs]
  split
  · rename_i h
    rw [h1 (hthr.1 h)]
    simp only [hneg]
    cases neg <;> rfl
  · rename_i h
    obtain ⟨hfin, near⟩ := h2 (by rw [hthr] at h; exact Nat.lt_of_not_le h)
    refine ⟨_, finiteValue_withSign neg hfin, fun w z hw => ?_⟩
    obtain ⟨n, p, hp, rfl, rfl⟩ := finiteValue_some hw
    obtain ⟨near1, near2⟩ := near p
    have hS : (0 : ℚ) < den * 2 ^ 149 := by positivity
    rw [signed_dist neg _ num den hd]
    by_cases hs : n = neg
    · subst hs
      rw [signed_dist n _ num den hd, div_le_div_iff_of_pos_right hS, Int.cast_le,
        div_left_inj' hS.ne', Int.cast_inj]
      refine ⟨near1, fun he hz => withSign_getLsbD_zero _ hle (near2 he ?_)⟩
      intro h3; rw [h3] at hz; exact hz rfl
    · obtain rfl : n = !neg := by cases n <;> cases neg <;> simp_all
      rw [signed_dist_opposite neg _ num den hd, div_le_div_iff_of_pos_right hS, Int.cast_le,
        div_left_inj' hS.ne', Int.cast_inj]
      have hm : (0 : Int) ≤ (magOf p : Int) * den := by positivity
      have hni : (0 : Int) < num := by exact_mod_cast hn
      have hb : |(magOf p * den : Int) - num| ≤ magOf p * den + num := by
        rw [abs_le]; constructor <;> linarith
      refine ⟨le_trans near1 hb, fun he hz => withSign_getLsbD_zero _ hle (near2 ?_ ?_)⟩
      · exact le_antisymm (he ▸ hb) near1
      · intro h3
        have h4 : (magOf p : Int) * den = 0 := by
          rw [← he] at near1
          rcases abs_cases ((magOf p * den : Int) - num) with ⟨h5, _⟩ | ⟨h5, _⟩ <;> omega
        have h5 : magOf p = 0 := by
          rcases mul_eq_zero.1 h4 with h | h
          · exact_mod_cast h
          · omega
        exact hz (by rw [← h3, h5]; cases neg <;> simp [signed])

/-! ### Infinities and NaNs -/

theorem f32_infinityBits (neg : Bool) : f32 (infinityBits neg) = .inf neg := by cases neg <;> rfl

theorem infinity_eq (neg : Bool) : infinity neg = infinityBits neg := by cases neg <;> rfl

theorem withSign_zero (neg : Bool) : withSign neg 0 = zeroBits neg := by cases neg <;> rfl

theorem f32_nan {v : Word} (h : IsNaN v) : f32 v = .nan := by
  obtain ⟨he, hf⟩ := h
  have hf' : (v.extractLsb' 0 23).toNat ≠ 0 := fun h0 => hf (BitVec.eq_of_toNat_eq h0)
  simp only [f32, he]
  rw [if_pos (by rfl), if_neg hf']

theorem roundMag_zero (den : Nat) : roundMag 0 den = 0 := by
  simp [roundMag, roundDiv]

/-- R212: the NaN result is a NaN pattern, whichever the parameter gives. -/
theorem isNaN_nanResult (op : FloatOp) (a b : Word) : IsNaN (nanResult op a b) := by
  have h : 0x7F800000 + ((Config.nanResult op a b).2.val + 1) < 2 ^ 31 := by omega
  constructor
  · apply BitVec.eq_of_toNat_eq
    rw [BitVec.extractLsb'_toNat, nanResult, withSign_toNat _ h, Nat.shiftRight_eq_div_pow]
    have := (Config.nanResult op a b).2.isLt
    simp only [BitVec.toNat_ofNat]
    split <;> omega
  · intro h0
    have h1 := congrArg BitVec.toNat h0
    rw [BitVec.extractLsb'_toNat, nanResult, withSign_toNat _ h, Nat.shiftRight_eq_div_pow] at h1
    have := (Config.nanResult op a b).2.isLt
    simp only [BitVec.toNat_ofNat] at h1
    split at h1 <;> omega

end Sys2Proof.Machine
end

