-- ==== Sys2Proof/Laws/PerInstr.lean ====
section
/-! SUPPORT. Per instruction: what the opcode map says of the instruction's encoding, and that the
bytes of the encoding build the instruction back (30_encoding.md R70 to R75, R80). -/

namespace Sys2Proof.Laws

theorem imm16_of_bytes {b : Nat → Byte} {k : Nat} {h : Half}
    (h0 : b k = BitVec.ofNat 8 h.toNat) (h1 : b (k + 1) = BitVec.ofNat 8 (h.toNat / 256)) :
    imm16 b k = h := by
  apply BitVec.eq_of_toNat_eq
  simp only [imm16, leNat, h0, h1, BitVec.toNat_ofNat]
  have := h.isLt
  omega

theorem imm32_of_bytes {b : Nat → Byte} {k : Nat} {d : Word}
    (h0 : b k = BitVec.ofNat 8 d.toNat) (h1 : b (k + 1) = BitVec.ofNat 8 (d.toNat / 256))
    (h2 : b (k + 2) = BitVec.ofNat 8 (d.toNat / 256 / 256))
    (h3 : b (k + 3) = BitVec.ofNat 8 (d.toNat / 256 / 256 / 256)) :
    imm32 b k = d := by
  apply BitVec.eq_of_toNat_eq
  simp only [imm32, leNat, h0, h1, h2, h3, BitVec.toNat_ofNat]
  have := d.isLt
  omega

end Sys2Proof.Laws

open Sys2Proof Sys2Proof.Laws

/-- The first byte of the encoding selects a shape of the encoding's length, and the bytes of the
encoding, whatever follows them, build the instruction. -/
def Sys2Proof.Laws.Encoding.Statement (i : Instr) : Prop :=
  ∃ op sh, (encode i).head? = some op ∧ shapeOf op = some sh ∧
    (encode i).length = sh.format.length ∧
    ∀ rest, sh.build (fun k => (encode i ++ rest).getD k 0) = i

theorem Sys2Proof.Laws.Encoding.nop : Statement .nop :=
  ⟨_, _, rfl, rfl, rfl, fun _ => rfl⟩

theorem Sys2Proof.Laws.Encoding.halt : Statement .halt :=
  ⟨_, _, rfl, rfl, rfl, fun _ => rfl⟩

theorem Sys2Proof.Laws.Encoding.int (code : Byte) : Statement (.int code) :=
  ⟨_, _, rfl, rfl, rfl, fun _ => rfl⟩

theorem Sys2Proof.Laws.Encoding.lcons (rd : RegByte) (imm : Word) : Statement (.lcons rd imm) :=
  ⟨_, _, rfl, rfl, rfl, fun _ => by
    simp only [Shape.build]
    congr 1
    all_goals first | rfl | exact imm32_of_bytes rfl rfl rfl rfl⟩

theorem Sys2Proof.Laws.Encoding.lconsw (rd : RegByte) (imm : Half) : Statement (.lconsw rd imm) :=
  ⟨_, _, rfl, rfl, rfl, fun _ => by
    simp only [Shape.build]
    congr 1
    all_goals first | rfl | exact imm16_of_bytes rfl rfl⟩

theorem Sys2Proof.Laws.Encoding.lconsb (rd : RegByte) (imm : Byte) : Statement (.lconsb rd imm) :=
  ⟨_, _, rfl, rfl, rfl, fun _ => rfl⟩

theorem Sys2Proof.Laws.Encoding.mov (rd rs : RegByte) : Statement (.mov rd rs) :=
  ⟨_, _, rfl, rfl, rfl, fun _ => rfl⟩

theorem Sys2Proof.Laws.Encoding.push (rs : RegByte) : Statement (.push rs) :=
  ⟨_, _, rfl, rfl, rfl, fun _ => rfl⟩

theorem Sys2Proof.Laws.Encoding.pop (rd : RegByte) : Statement (.pop rd) :=
  ⟨_, _, rfl, rfl, rfl, fun _ => rfl⟩

theorem Sys2Proof.Laws.Encoding.pop2 (rd1 rd2 : RegByte) : Statement (.pop2 rd1 rd2) :=
  ⟨_, _, rfl, rfl, rfl, fun _ => rfl⟩

theorem Sys2Proof.Laws.Encoding.dup : Statement .dup :=
  ⟨_, _, rfl, rfl, rfl, fun _ => rfl⟩

theorem Sys2Proof.Laws.Encoding.call (addr : Half) : Statement (.call addr) :=
  ⟨_, _, rfl, rfl, rfl, fun _ => by
    simp only [Shape.build]
    congr 1
    all_goals first | rfl | exact imm16_of_bytes rfl rfl⟩

theorem Sys2Proof.Laws.Encoding.ret : Statement .ret :=
  ⟨_, _, rfl, rfl, rfl, fun _ => rfl⟩

theorem Sys2Proof.Laws.Encoding.stor (rs : RegByte) (addr : Half) : Statement (.stor rs addr) :=
  ⟨_, _, rfl, rfl, rfl, fun _ => by
    simp only [Shape.build]
    congr 1
    all_goals first | rfl | exact imm16_of_bytes rfl rfl⟩

theorem Sys2Proof.Laws.Encoding.storw (rs : RegByte) (addr : Half) : Statement (.storw rs addr) :=
  ⟨_, _, rfl, rfl, rfl, fun _ => by
    simp only [Shape.build]
    congr 1
    all_goals first | rfl | exact imm16_of_bytes rfl rfl⟩

theorem Sys2Proof.Laws.Encoding.storb (rs : RegByte) (addr : Half) : Statement (.storb rs addr) :=
  ⟨_, _, rfl, rfl, rfl, fun _ => by
    simp only [Shape.build]
    congr 1
    all_goals first | rfl | exact imm16_of_bytes rfl rfl⟩

theorem Sys2Proof.Laws.Encoding.storP (rs rp : RegByte) : Statement (.storP rs rp) :=
  ⟨_, _, rfl, rfl, rfl, fun _ => rfl⟩

theorem Sys2Proof.Laws.Encoding.storwP (rs rp : RegByte) : Statement (.storwP rs rp) :=
  ⟨_, _, rfl, rfl, rfl, fun _ => rfl⟩

theorem Sys2Proof.Laws.Encoding.storbP (rs rp : RegByte) : Statement (.storbP rs rp) :=
  ⟨_, _, rfl, rfl, rfl, fun _ => rfl⟩

theorem Sys2Proof.Laws.Encoding.load (rd : RegByte) (addr : Half) : Statement (.load rd addr) :=
  ⟨_, _, rfl, rfl, rfl, fun _ => by
    simp only [Shape.build]
    congr 1
    all_goals first | rfl | exact imm16_of_bytes rfl rfl⟩

theorem Sys2Proof.Laws.Encoding.loadw (rd : RegByte) (addr : Half) : Statement (.loadw rd addr) :=
  ⟨_, _, rfl, rfl, rfl, fun _ => by
    simp only [Shape.build]
    congr 1
    all_goals first | rfl | exact imm16_of_bytes rfl rfl⟩

theorem Sys2Proof.Laws.Encoding.loadb (rd : RegByte) (addr : Half) : Statement (.loadb rd addr) :=
  ⟨_, _, rfl, rfl, rfl, fun _ => by
    simp only [Shape.build]
    congr 1
    all_goals first | rfl | exact imm16_of_bytes rfl rfl⟩

theorem Sys2Proof.Laws.Encoding.loadP (rd rp : RegByte) : Statement (.loadP rd rp) :=
  ⟨_, _, rfl, rfl, rfl, fun _ => rfl⟩

theorem Sys2Proof.Laws.Encoding.loadwP (rd rp : RegByte) : Statement (.loadwP rd rp) :=
  ⟨_, _, rfl, rfl, rfl, fun _ => rfl⟩

theorem Sys2Proof.Laws.Encoding.loadbP (rd rp : RegByte) : Statement (.loadbP rd rp) :=
  ⟨_, _, rfl, rfl, rfl, fun _ => rfl⟩

theorem Sys2Proof.Laws.Encoding.memcpy (dst src len : Half) : Statement (.memcpy dst src len) :=
  ⟨_, _, rfl, rfl, rfl, fun _ => by
    simp only [Shape.build]
    congr 1
    all_goals first | rfl | exact imm16_of_bytes rfl rfl⟩

theorem Sys2Proof.Laws.Encoding.memcpyP (rdst rsrc rlen : RegByte) :
    Statement (.memcpyP rdst rsrc rlen) :=
  ⟨_, _, rfl, rfl, rfl, fun _ => rfl⟩

theorem Sys2Proof.Laws.Encoding.inc (rd : RegByte) : Statement (.inc rd) :=
  ⟨_, _, rfl, rfl, rfl, fun _ => rfl⟩

theorem Sys2Proof.Laws.Encoding.dec (rd : RegByte) : Statement (.dec rd) :=
  ⟨_, _, rfl, rfl, rfl, fun _ => rfl⟩

theorem Sys2Proof.Laws.Encoding.finc (rd : RegByte) : Statement (.finc rd) :=
  ⟨_, _, rfl, rfl, rfl, fun _ => rfl⟩

theorem Sys2Proof.Laws.Encoding.fdec (rd : RegByte) : Statement (.fdec rd) :=
  ⟨_, _, rfl, rfl, rfl, fun _ => rfl⟩

theorem Sys2Proof.Laws.Encoding.add (rd ra rb : RegByte) : Statement (.add rd ra rb) :=
  ⟨_, _, rfl, rfl, rfl, fun _ => rfl⟩

theorem Sys2Proof.Laws.Encoding.sub (rd rs : RegByte) : Statement (.sub rd rs) :=
  ⟨_, _, rfl, rfl, rfl, fun _ => rfl⟩

theorem Sys2Proof.Laws.Encoding.mul (rd ra rb : RegByte) : Statement (.mul rd ra rb) :=
  ⟨_, _, rfl, rfl, rfl, fun _ => rfl⟩

theorem Sys2Proof.Laws.Encoding.div (rd rs : RegByte) : Statement (.div rd rs) :=
  ⟨_, _, rfl, rfl, rfl, fun _ => rfl⟩

theorem Sys2Proof.Laws.Encoding.mod (rd rs : RegByte) : Statement (.mod rd rs) :=
  ⟨_, _, rfl, rfl, rfl, fun _ => rfl⟩

theorem Sys2Proof.Laws.Encoding.shl (rd rs : RegByte) : Statement (.shl rd rs) :=
  ⟨_, _, rfl, rfl, rfl, fun _ => rfl⟩

theorem Sys2Proof.Laws.Encoding.shr (rd rs : RegByte) : Statement (.shr rd rs) :=
  ⟨_, _, rfl, rfl, rfl, fun _ => rfl⟩

theorem Sys2Proof.Laws.Encoding.and (rd ra rb : RegByte) : Statement (.and rd ra rb) :=
  ⟨_, _, rfl, rfl, rfl, fun _ => rfl⟩

theorem Sys2Proof.Laws.Encoding.or (rd ra rb : RegByte) : Statement (.or rd ra rb) :=
  ⟨_, _, rfl, rfl, rfl, fun _ => rfl⟩

theorem Sys2Proof.Laws.Encoding.xor (rd ra rb : RegByte) : Statement (.xor rd ra rb) :=
  ⟨_, _, rfl, rfl, rfl, fun _ => rfl⟩

theorem Sys2Proof.Laws.Encoding.not (rd : RegByte) : Statement (.not rd) :=
  ⟨_, _, rfl, rfl, rfl, fun _ => rfl⟩

theorem Sys2Proof.Laws.Encoding.imul (rd ra rb : RegByte) : Statement (.imul rd ra rb) :=
  ⟨_, _, rfl, rfl, rfl, fun _ => rfl⟩

theorem Sys2Proof.Laws.Encoding.idiv (rd rs : RegByte) : Statement (.idiv rd rs) :=
  ⟨_, _, rfl, rfl, rfl, fun _ => rfl⟩

theorem Sys2Proof.Laws.Encoding.imod (rd rs : RegByte) : Statement (.imod rd rs) :=
  ⟨_, _, rfl, rfl, rfl, fun _ => rfl⟩

theorem Sys2Proof.Laws.Encoding.ishr (rd rs : RegByte) : Statement (.ishr rd rs) :=
  ⟨_, _, rfl, rfl, rfl, fun _ => rfl⟩

theorem Sys2Proof.Laws.Encoding.fadd (rd ra rb : RegByte) : Statement (.fadd rd ra rb) :=
  ⟨_, _, rfl, rfl, rfl, fun _ => rfl⟩

theorem Sys2Proof.Laws.Encoding.fsub (rd rs : RegByte) : Statement (.fsub rd rs) :=
  ⟨_, _, rfl, rfl, rfl, fun _ => rfl⟩

theorem Sys2Proof.Laws.Encoding.fmul (rd ra rb : RegByte) : Statement (.fmul rd ra rb) :=
  ⟨_, _, rfl, rfl, rfl, fun _ => rfl⟩

theorem Sys2Proof.Laws.Encoding.fdiv (rd rs : RegByte) : Statement (.fdiv rd rs) :=
  ⟨_, _, rfl, rfl, rfl, fun _ => rfl⟩

theorem Sys2Proof.Laws.Encoding.u2i (rd : RegByte) : Statement (.u2i rd) :=
  ⟨_, _, rfl, rfl, rfl, fun _ => rfl⟩

theorem Sys2Proof.Laws.Encoding.i2u (rd : RegByte) : Statement (.i2u rd) :=
  ⟨_, _, rfl, rfl, rfl, fun _ => rfl⟩

theorem Sys2Proof.Laws.Encoding.i2f (rd rs : RegByte) : Statement (.i2f rd rs) :=
  ⟨_, _, rfl, rfl, rfl, fun _ => rfl⟩

theorem Sys2Proof.Laws.Encoding.f2i (rd rs : RegByte) : Statement (.f2i rd rs) :=
  ⟨_, _, rfl, rfl, rfl, fun _ => rfl⟩

theorem Sys2Proof.Laws.Encoding.jmp (addr : Half) : Statement (.jmp addr) :=
  ⟨_, _, rfl, rfl, rfl, fun _ => by
    simp only [Shape.build]
    congr 1
    all_goals first | rfl | exact imm16_of_bytes rfl rfl⟩

theorem Sys2Proof.Laws.Encoding.jr (rs : RegByte) : Statement (.jr rs) :=
  ⟨_, _, rfl, rfl, rfl, fun _ => rfl⟩

theorem Sys2Proof.Laws.Encoding.jz (addr : Half) (ra : RegByte) : Statement (.jz addr ra) :=
  ⟨_, _, rfl, rfl, rfl, fun _ => by
    simp only [Shape.build]
    congr 1
    all_goals first | rfl | exact imm16_of_bytes rfl rfl⟩

theorem Sys2Proof.Laws.Encoding.jnz (addr : Half) (ra : RegByte) : Statement (.jnz addr ra) :=
  ⟨_, _, rfl, rfl, rfl, fun _ => by
    simp only [Shape.build]
    congr 1
    all_goals first | rfl | exact imm16_of_bytes rfl rfl⟩

theorem Sys2Proof.Laws.Encoding.je (addr : Half) (ra rb : RegByte) : Statement (.je addr ra rb) :=
  ⟨_, _, rfl, rfl, rfl, fun _ => by
    simp only [Shape.build]
    congr 1
    all_goals first | rfl | exact imm16_of_bytes rfl rfl⟩

theorem Sys2Proof.Laws.Encoding.jne (addr : Half) (ra rb : RegByte) : Statement (.jne addr ra rb) :=
  ⟨_, _, rfl, rfl, rfl, fun _ => by
    simp only [Shape.build]
    congr 1
    all_goals first | rfl | exact imm16_of_bytes rfl rfl⟩

theorem Sys2Proof.Laws.Encoding.ja (addr : Half) (ra rb : RegByte) : Statement (.ja addr ra rb) :=
  ⟨_, _, rfl, rfl, rfl, fun _ => by
    simp only [Shape.build]
    congr 1
    all_goals first | rfl | exact imm16_of_bytes rfl rfl⟩

theorem Sys2Proof.Laws.Encoding.jg (addr : Half) (ra rb : RegByte) : Statement (.jg addr ra rb) :=
  ⟨_, _, rfl, rfl, rfl, fun _ => by
    simp only [Shape.build]
    congr 1
    all_goals first | rfl | exact imm16_of_bytes rfl rfl⟩

theorem Sys2Proof.Laws.Encoding.jae (addr : Half) (ra rb : RegByte) : Statement (.jae addr ra rb) :=
  ⟨_, _, rfl, rfl, rfl, fun _ => by
    simp only [Shape.build]
    congr 1
    all_goals first | rfl | exact imm16_of_bytes rfl rfl⟩

theorem Sys2Proof.Laws.Encoding.jge (addr : Half) (ra rb : RegByte) : Statement (.jge addr ra rb) :=
  ⟨_, _, rfl, rfl, rfl, fun _ => by
    simp only [Shape.build]
    congr 1
    all_goals first | rfl | exact imm16_of_bytes rfl rfl⟩

theorem Sys2Proof.Laws.Encoding.jb (addr : Half) (ra rb : RegByte) : Statement (.jb addr ra rb) :=
  ⟨_, _, rfl, rfl, rfl, fun _ => by
    simp only [Shape.build]
    congr 1
    all_goals first | rfl | exact imm16_of_bytes rfl rfl⟩

theorem Sys2Proof.Laws.Encoding.jl (addr : Half) (ra rb : RegByte) : Statement (.jl addr ra rb) :=
  ⟨_, _, rfl, rfl, rfl, fun _ => by
    simp only [Shape.build]
    congr 1
    all_goals first | rfl | exact imm16_of_bytes rfl rfl⟩

theorem Sys2Proof.Laws.Encoding.jbe (addr : Half) (ra rb : RegByte) : Statement (.jbe addr ra rb) :=
  ⟨_, _, rfl, rfl, rfl, fun _ => by
    simp only [Shape.build]
    congr 1
    all_goals first | rfl | exact imm16_of_bytes rfl rfl⟩

theorem Sys2Proof.Laws.Encoding.jle (addr : Half) (ra rb : RegByte) : Statement (.jle addr ra rb) :=
  ⟨_, _, rfl, rfl, rfl, fun _ => by
    simp only [Shape.build]
    congr 1
    all_goals first | rfl | exact imm16_of_bytes rfl rfl⟩

theorem Sys2Proof.Laws.Encoding.print (rs : RegByte) (nl : Byte) : Statement (.print rs nl) :=
  ⟨_, _, rfl, rfl, rfl, fun _ => rfl⟩

theorem Sys2Proof.Laws.Encoding.printi (rs : RegByte) (nl : Byte) : Statement (.printi rs nl) :=
  ⟨_, _, rfl, rfl, rfl, fun _ => rfl⟩

theorem Sys2Proof.Laws.Encoding.printf (rs : RegByte) (nl : Byte) : Statement (.printf rs nl) :=
  ⟨_, _, rfl, rfl, rfl, fun _ => rfl⟩

theorem Sys2Proof.Laws.Encoding.printc (rs : RegByte) (nl : Byte) : Statement (.printc rs nl) :=
  ⟨_, _, rfl, rfl, rfl, fun _ => rfl⟩

theorem Sys2Proof.Laws.Encoding.prints (addr : Half) (nl : Byte) : Statement (.prints addr nl) :=
  ⟨_, _, rfl, rfl, rfl, fun _ => by
    simp only [Shape.build]
    congr 1
    all_goals first | rfl | exact imm16_of_bytes rfl rfl⟩

theorem Sys2Proof.Laws.Encoding.read (rd : RegByte) : Statement (.read rd) :=
  ⟨_, _, rfl, rfl, rfl, fun _ => rfl⟩

theorem Sys2Proof.Laws.Encoding.readi (rd : RegByte) : Statement (.readi rd) :=
  ⟨_, _, rfl, rfl, rfl, fun _ => rfl⟩

theorem Sys2Proof.Laws.Encoding.readf (rd : RegByte) : Statement (.readf rd) :=
  ⟨_, _, rfl, rfl, rfl, fun _ => rfl⟩

theorem Sys2Proof.Laws.Encoding.readc (rd : RegByte) : Statement (.readc rd) :=
  ⟨_, _, rfl, rfl, rfl, fun _ => rfl⟩

theorem Sys2Proof.Laws.Encoding.reads (addr len : Half) : Statement (.reads addr len) :=
  ⟨_, _, rfl, rfl, rfl, fun _ => by
    simp only [Shape.build]
    congr 1
    all_goals first | rfl | exact imm16_of_bytes rfl rfl⟩

theorem Sys2Proof.Laws.Encoding.i2s (addr : Half) (rs : RegByte) : Statement (.i2s addr rs) :=
  ⟨_, _, rfl, rfl, rfl, fun _ => by
    simp only [Shape.build]
    congr 1
    all_goals first | rfl | exact imm16_of_bytes rfl rfl⟩

theorem Sys2Proof.Laws.Encoding.s2i (addr : Half) (rd : RegByte) : Statement (.s2i addr rd) :=
  ⟨_, _, rfl, rfl, rfl, fun _ => by
    simp only [Shape.build]
    congr 1
    all_goals first | rfl | exact imm16_of_bytes rfl rfl⟩

theorem Sys2Proof.Laws.Encoding.dread (rd rpin : RegByte) : Statement (.dread rd rpin) :=
  ⟨_, _, rfl, rfl, rfl, fun _ => rfl⟩

theorem Sys2Proof.Laws.Encoding.dwrite (rpin rval : RegByte) : Statement (.dwrite rpin rval) :=
  ⟨_, _, rfl, rfl, rfl, fun _ => rfl⟩

theorem Sys2Proof.Laws.Encoding.aread (rd rpin : RegByte) : Statement (.aread rd rpin) :=
  ⟨_, _, rfl, rfl, rfl, fun _ => rfl⟩

theorem Sys2Proof.Laws.Encoding.awrite (rpin rval : RegByte) : Statement (.awrite rpin rval) :=
  ⟨_, _, rfl, rfl, rfl, fun _ => rfl⟩

theorem Sys2Proof.Laws.Encoding.pinmode (rpin rmode : RegByte) : Statement (.pinmode rpin rmode) :=
  ⟨_, _, rfl, rfl, rfl, fun _ => rfl⟩
end

