-- ==== Sys2Proof/Tests/Slice0.lean ====
section
/-! SUPPORT. Tests: the well-formedness smoke test, one decoding per constructor, single steps on the
vectors of spec/95_test_vectors.md part 2, and, for every obligation with hypotheses, a state and
operands that meet them (`witness_…`). -/

namespace Sys2Proof.Tests

set_option Elab.async false

open Sys2Proof Sys2Proof.Machine

/-! ### A small machine -/

/-- The state spec/95_test_vectors.md starts from: after construction (R360), with bytes at the
instruction's address, some registers and some more bytes set, inside a run of budget 1. -/
def unit (progLen stackCap a : Nat) (bytes : List Byte) (regs : List (Reg × Word))
    (cells : List (Nat × List Byte)) : State :=
  let s : State := { State.reset with
    mem := cells.foldl (fun m c => m.writeBytes c.1 c.2) (Memory.writeBytes [] a bytes)
    phase := .running 1 0
    progLen := progLen
    stackCap := stackCap }
  let s := (s.setReg .sp (BitVec.ofNat 32 s.memSize)).setReg .ip (BitVec.ofNat 32 a)
  regs.foldl (fun t r => t.setReg r.1 r.2) s

/-- One step shows these registers and these bytes, and ends the run with the result: `Paused` when
the instruction completes, the budget being 1. -/
def ends (s : State) (regs : List (Reg × Word)) (cells : List (Nat × List Byte))
    (r : ExecResult) : Bool :=
  match step s with
  | .next t =>
    regs.all (fun p => t.reg p.1 == p.2) &&
      cells.all (fun c => t.mem.readBytes c.1 c.2.length == c.2) &&
      (t.phase == .idle) && (t.replies == [.result r]) && (t.trace == [] || s.hook.isSome)
  | _ => false

/-- A host that answers with a value and uses no accessor. -/
def answer (v : Word) : Callback := ⟨[], v, [], true⟩

/-- With a host that supports one kind of request and answers with `c`, one step issues exactly the
request `q`, completes, and shows these registers and bytes. -/
def asks (s : State) (k : RequestKind) (c : Callback) (q : Request) (regs : List (Reg × Word))
    (cells : List (Nat × List Byte)) : Bool :=
  match step { s with hostKinds := [k], script := [c] } with
  | .next t =>
    regs.all (fun p => t.reg p.1 == p.2) &&
      cells.all (fun b => t.mem.readBytes b.1 b.2.length == b.2) &&
      (t.replies == [.result .paused]) && (t.trace == [.request q]) && (t.script == [])
  | _ => false

/-! ### Well-formedness: each register position refuses a byte that names no register -/

theorem test_wellFormed_accepts :
    (Instr.add 0x00 0x0F 0x0C).wellFormed = true ∧ (Instr.int 0xFF).wellFormed = true ∧
    (Instr.jle 0xFFFF 0x0F 0x0E).wellFormed = true := by decide

theorem test_wellFormed_refuses_first :
    (Instr.push 0x10).wellFormed = false ∧ (Instr.lcons 0xFF 0).wellFormed = false ∧
    (Instr.jz 0 0x10).wellFormed = false ∧ (Instr.add 0x10 0 0).wellFormed = false := by decide

theorem test_wellFormed_refuses_second :
    (Instr.mov 0 0x10).wellFormed = false ∧ (Instr.je 0 0 0x80).wellFormed = false ∧
    (Instr.add 0 0x10 0).wellFormed = false := by decide

theorem test_wellFormed_refuses_third :
    (Instr.add 0 0 0x10).wellFormed = false ∧ (Instr.memcpyP 0 0 0x1F).wellFormed = false := by
  decide

/-! ### Decoding: the bytes of R72 and R80, operands 0x0F, 0x0C, 0x05 for registers -/

theorem test_decode_system :
    decode [0x00] = .ok .nop ∧
    decode [0x01] = .ok .halt ∧
    decode [0x02, 0xA7] = .ok (.int 0xA7) := by
  decide +kernel

theorem test_decode_data_movement :
    decode [0x03, 0x0F, 0x78, 0x56, 0x34, 0x12] = .ok (.lcons 0x0F 0x12345678) ∧
    decode [0x04, 0x0F, 0x34, 0x12] = .ok (.lconsw 0x0F 0x1234) ∧
    decode [0x05, 0x0F, 0xA7] = .ok (.lconsb 0x0F 0xA7) ∧
    decode [0x06, 0x0F, 0x0C] = .ok (.mov 0x0F 0x0C) := by
  decide +kernel

theorem test_decode_stack_call :
    decode [0x07, 0x0F] = .ok (.push 0x0F) ∧
    decode [0x08, 0x0F] = .ok (.pop 0x0F) ∧
    decode [0x09, 0x0F, 0x0C] = .ok (.pop2 0x0F 0x0C) ∧
    decode [0x0A] = .ok .dup ∧
    decode [0x0B, 0x34, 0x12] = .ok (.call 0x1234) ∧
    decode [0x0C] = .ok .ret := by
  decide +kernel

theorem test_decode_load_store :
    decode [0x0D, 0x0F, 0x34, 0x12] = .ok (.stor 0x0F 0x1234) ∧
    decode [0x0E, 0x0F, 0x34, 0x12] = .ok (.storw 0x0F 0x1234) ∧
    decode [0x0F, 0x0F, 0x34, 0x12] = .ok (.storb 0x0F 0x1234) ∧
    decode [0x10, 0x0F, 0x0C] = .ok (.storP 0x0F 0x0C) ∧
    decode [0x11, 0x0F, 0x0C] = .ok (.storwP 0x0F 0x0C) ∧
    decode [0x12, 0x0F, 0x0C] = .ok (.storbP 0x0F 0x0C) ∧
    decode [0x13, 0x0F, 0x34, 0x12] = .ok (.load 0x0F 0x1234) ∧
    decode [0x14, 0x0F, 0x34, 0x12] = .ok (.loadw 0x0F 0x1234) ∧
    decode [0x15, 0x0F, 0x34, 0x12] = .ok (.loadb 0x0F 0x1234) ∧
    decode [0x16, 0x0F, 0x0C] = .ok (.loadP 0x0F 0x0C) ∧
    decode [0x17, 0x0F, 0x0C] = .ok (.loadwP 0x0F 0x0C) ∧
    decode [0x18, 0x0F, 0x0C] = .ok (.loadbP 0x0F 0x0C) ∧
    decode [0x19, 0x34, 0x12, 0x78, 0x56, 0xBC, 0x9A] = .ok (.memcpy 0x1234 0x5678 0x9ABC) ∧
    decode [0x1A, 0x0F, 0x0C, 0x05] = .ok (.memcpyP 0x0F 0x0C 0x05) := by
  decide +kernel

theorem test_decode_integer_alu :
    decode [0x1B, 0x0F] = .ok (.inc 0x0F) ∧
    decode [0x1C, 0x0F] = .ok (.dec 0x0F) ∧
    decode [0x1F, 0x0F, 0x0C, 0x05] = .ok (.add 0x0F 0x0C 0x05) ∧
    decode [0x20, 0x0F, 0x0C] = .ok (.sub 0x0F 0x0C) ∧
    decode [0x21, 0x0F, 0x0C, 0x05] = .ok (.mul 0x0F 0x0C 0x05) ∧
    decode [0x22, 0x0F, 0x0C] = .ok (.div 0x0F 0x0C) ∧
    decode [0x23, 0x0F, 0x0C] = .ok (.mod 0x0F 0x0C) ∧
    decode [0x24, 0x0F, 0x0C] = .ok (.shl 0x0F 0x0C) ∧
    decode [0x25, 0x0F, 0x0C] = .ok (.shr 0x0F 0x0C) ∧
    decode [0x26, 0x0F, 0x0C, 0x05] = .ok (.and 0x0F 0x0C 0x05) ∧
    decode [0x27, 0x0F, 0x0C, 0x05] = .ok (.or 0x0F 0x0C 0x05) ∧
    decode [0x28, 0x0F, 0x0C, 0x05] = .ok (.xor 0x0F 0x0C 0x05) ∧
    decode [0x29, 0x0F] = .ok (.not 0x0F) ∧
    decode [0x2A, 0x0F, 0x0C, 0x05] = .ok (.imul 0x0F 0x0C 0x05) ∧
    decode [0x2B, 0x0F, 0x0C] = .ok (.idiv 0x0F 0x0C) ∧
    decode [0x2C, 0x0F, 0x0C] = .ok (.imod 0x0F 0x0C) ∧
    decode [0x2D, 0x0F, 0x0C] = .ok (.ishr 0x0F 0x0C) ∧
    decode [0x32, 0x0F] = .ok (.u2i 0x0F) ∧
    decode [0x33, 0x0F] = .ok (.i2u 0x0F) := by
  decide +kernel

theorem test_decode_float :
    decode [0x1D, 0x0F] = .ok (.finc 0x0F) ∧
    decode [0x1E, 0x0F] = .ok (.fdec 0x0F) ∧
    decode [0x2E, 0x0F, 0x0C, 0x05] = .ok (.fadd 0x0F 0x0C 0x05) ∧
    decode [0x2F, 0x0F, 0x0C] = .ok (.fsub 0x0F 0x0C) ∧
    decode [0x30, 0x0F, 0x0C, 0x05] = .ok (.fmul 0x0F 0x0C 0x05) ∧
    decode [0x31, 0x0F, 0x0C] = .ok (.fdiv 0x0F 0x0C) ∧
    decode [0x34, 0x0F, 0x0C] = .ok (.i2f 0x0F 0x0C) ∧
    decode [0x35, 0x0F, 0x0C] = .ok (.f2i 0x0F 0x0C) := by
  decide +kernel

theorem test_decode_jumps :
    decode [0x36, 0x34, 0x12] = .ok (.jmp 0x1234) ∧
    decode [0x37, 0x0F] = .ok (.jr 0x0F) ∧
    decode [0x38, 0x34, 0x12, 0x0F] = .ok (.jz 0x1234 0x0F) ∧
    decode [0x39, 0x34, 0x12, 0x0F] = .ok (.jnz 0x1234 0x0F) ∧
    decode [0x3A, 0x34, 0x12, 0x0F, 0x0C] = .ok (.je 0x1234 0x0F 0x0C) ∧
    decode [0x3B, 0x34, 0x12, 0x0F, 0x0C] = .ok (.jne 0x1234 0x0F 0x0C) ∧
    decode [0x3C, 0x34, 0x12, 0x0F, 0x0C] = .ok (.ja 0x1234 0x0F 0x0C) ∧
    decode [0x3D, 0x34, 0x12, 0x0F, 0x0C] = .ok (.jg 0x1234 0x0F 0x0C) ∧
    decode [0x3E, 0x34, 0x12, 0x0F, 0x0C] = .ok (.jae 0x1234 0x0F 0x0C) ∧
    decode [0x3F, 0x34, 0x12, 0x0F, 0x0C] = .ok (.jge 0x1234 0x0F 0x0C) ∧
    decode [0x40, 0x34, 0x12, 0x0F, 0x0C] = .ok (.jb 0x1234 0x0F 0x0C) ∧
    decode [0x41, 0x34, 0x12, 0x0F, 0x0C] = .ok (.jl 0x1234 0x0F 0x0C) ∧
    decode [0x42, 0x34, 0x12, 0x0F, 0x0C] = .ok (.jbe 0x1234 0x0F 0x0C) ∧
    decode [0x43, 0x34, 0x12, 0x0F, 0x0C] = .ok (.jle 0x1234 0x0F 0x0C) := by
  decide +kernel

theorem test_decode_host_io :
    decode [0x44, 0x0F, 0xA7] = .ok (.print 0x0F 0xA7) ∧
    decode [0x45, 0x0F, 0xA7] = .ok (.printi 0x0F 0xA7) ∧
    decode [0x46, 0x0F, 0xA7] = .ok (.printf 0x0F 0xA7) ∧
    decode [0x47, 0x0F, 0xA7] = .ok (.printc 0x0F 0xA7) ∧
    decode [0x48, 0x34, 0x12, 0xA7] = .ok (.prints 0x1234 0xA7) ∧
    decode [0x49, 0x0F] = .ok (.read 0x0F) ∧
    decode [0x4A, 0x0F] = .ok (.readi 0x0F) ∧
    decode [0x4B, 0x0F] = .ok (.readf 0x0F) ∧
    decode [0x4C, 0x0F] = .ok (.readc 0x0F) ∧
    decode [0x4D, 0x34, 0x12, 0x78, 0x56] = .ok (.reads 0x1234 0x5678) ∧
    decode [0x4E, 0x34, 0x12, 0x0F] = .ok (.i2s 0x1234 0x0F) ∧
    decode [0x4F, 0x34, 0x12, 0x0F] = .ok (.s2i 0x1234 0x0F) ∧
    decode [0x50, 0x0F, 0x0C] = .ok (.dread 0x0F 0x0C) ∧
    decode [0x51, 0x0F, 0x0C] = .ok (.dwrite 0x0F 0x0C) ∧
    decode [0x52, 0x0F, 0x0C] = .ok (.aread 0x0F 0x0C) ∧
    decode [0x53, 0x0F, 0x0C] = .ok (.awrite 0x0F 0x0C) ∧
    decode [0x54, 0x0F, 0x0C] = .ok (.pinmode 0x0F 0x0C) := by
  decide +kernel

/-! ### System (spec/95_test_vectors.md 2.1) -/

theorem test_nop :
    ends (unit 32 32 0 [0x00] [] [])
      [(.ip, 0x00000001)] [] .paused := by decide +kernel

theorem test_halt :
    ends (unit 32 32 0 [0x01] [] [])
      [(.ip, 0x00000000)] [] .finished := by decide +kernel

theorem test_int_no_hook :
    ends (unit 32 32 0 [0x02, 0x03] [] [])
      [(.ip, 0x00000000)] [] .unhandledInterrupt := by decide +kernel

theorem test_int_hook_continues :
    ends ({ unit 32 32 0 [0x02, 0x03] [] [] with
        hook := some 7, script := [⟨[.setRegister 0 5, .setRegister 12 9], 0, [], true⟩] })
      [(.ip, 0x02), (.r0, 5)] [] .paused := by decide +kernel

/-! ### Data movement (2.2) -/

theorem test_lcons :
    ends (unit 32 32 0 [0x03, 0x00, 0x78, 0x56, 0x34, 0x12] [] [])
      [(.r0, 0x12345678), (.ip, 0x00000006)] [] .paused := by decide +kernel

theorem test_lcons_ip :
    ends (unit 32 32 0 [0x03, 0x0C, 0x0F, 0x00, 0x00, 0x00] [] [])
      [(.ip, 0x00000010)] [] .paused := by decide +kernel

theorem test_lconsw :
    ends (unit 32 32 0 [0x04, 0x01, 0xFF, 0xFF] [] [])
      [(.r1, 0x0000FFFF), (.ip, 0x00000004)] [] .paused := by decide +kernel

theorem test_lconsb :
    ends (unit 32 32 0 [0x05, 0x02, 0xFF] [] [])
      [(.r2, 0x000000FF), (.ip, 0x00000003)] [] .paused := by decide +kernel

theorem test_lconsb_bad_register :
    ends (unit 32 32 0 [0x05, 0x10, 0x01] [] [])
      [(.ip, 0x00000000)] [] .invalidRegister := by decide +kernel

theorem test_mov_from_ip :
    ends (unit 32 32 4 [0x06, 0x00, 0x0C] [] [])
      [(.r0, 0x00000006), (.ip, 0x00000007)] [] .paused := by decide +kernel

theorem test_mov_to_ip :
    ends (unit 32 32 0 [0x06, 0x0C, 0x01] [(.r1, 0x0000000F)] [])
      [(.ip, 0x00000010)] [] .paused := by decide +kernel

/-! ### Stack, call and return (2.3) -/

theorem test_push_sp :
    ends (unit 32 32 0 [0x07, 0x0E] [] [])
      [(.sp, 0x0000003C), (.ip, 0x00000002)] [(0x3C, [0x40, 0x00, 0x00, 0x00])] .paused := by decide +kernel

theorem test_push_last_allowed :
    ends (unit 32 32 0 [0x07, 0x00] [(.sp, 0x00000025), (.r0, 0xAABBCCDD)] [])
      [(.sp, 0x00000021), (.ip, 0x00000002)] [(0x21, [0xDD, 0xCC, 0xBB, 0xAA])] .paused := by decide +kernel

theorem test_pop_into_sp :
    ends (unit 32 32 0 [0x08, 0x0E] [(.sp, 0x0000003C)] [(0x3C, [0x28, 0x00, 0x00, 0x00])])
      [(.sp, 0x00000028), (.ip, 0x00000002)] [] .paused := by decide +kernel

theorem test_pop_two_bytes_left :
    ends (unit 32 32 0 [0x08, 0x01] [(.sp, 0x0000003E)] [])
      [(.r1, 0x00000000), (.sp, 0x0000003E), (.ip, 0x00000000)] [] .invalidAddress := by decide +kernel

theorem test_pop2_same_register :
    ends (unit 32 32 0 [0x09, 0x02, 0x02] [(.sp, 0x00000038)] [(0x38, [0x02, 0x00, 0x00, 0x00, 0x01, 0x00, 0x00, 0x00])])
      [(.r2, 0x00000001), (.sp, 0x00000040), (.ip, 0x00000003)] [] .paused := by decide +kernel

theorem test_pop2_one_word :
    ends (unit 32 32 0 [0x09, 0x02, 0x03] [(.sp, 0x0000003C)] [(0x3C, [0x02, 0x00, 0x00, 0x00])])
      [(.r2, 0x00000000), (.r3, 0x00000000), (.sp, 0x0000003C), (.ip, 0x00000000)] [] .stackUnderflow := by decide +kernel

theorem test_dup :
    ends (unit 32 32 0 [0x0A] [(.sp, 0x0000003C)] [(0x3C, [0x2A, 0x00, 0x00, 0x00])])
      [(.sp, 0x00000038), (.ip, 0x00000001)] [(0x38, [0x2A, 0x00, 0x00, 0x00, 0x2A, 0x00, 0x00, 0x00])] .paused := by decide +kernel

theorem test_dup_no_room :
    ends (unit 32 32 0 [0x0A] [(.sp, 0x00000024)] [(0x24, [0x2A, 0x00, 0x00, 0x00])])
      [(.sp, 0x00000024), (.ip, 0x00000000)] [] .stackOverflow := by decide +kernel

theorem test_call :
    ends (unit 32 32 5 [0x0B, 0x10, 0x00] [] [])
      [(.ra, 0x00000008), (.ip, 0x00000010)] [] .paused := by decide +kernel

theorem test_ret :
    ends (unit 32 32 0 [0x0C] [(.ra, 0x00000008)] [])
      [(.ra, 0x00000008), (.ip, 0x00000008)] [] .paused := by decide +kernel

/-! ### Loads, stores and block copy (2.4) -/

theorem test_stor :
    ends (unit 32 64 0 [0x0D, 0x00, 0x40, 0x00] [(.r0, 0x11223344)] [(0x3E, [0xEE, 0xEE, 0xEE, 0xEE, 0xEE, 0xEE, 0xEE, 0xEE])])
      [(.ip, 0x00000004)] [(0x3E, [0xEE, 0xEE, 0x44, 0x33, 0x22, 0x11, 0xEE, 0xEE])] .paused := by decide +kernel

theorem test_stor_out_of_range :
    ends (unit 32 64 0 [0x0D, 0x00, 0x5D, 0x00] [(.r0, 0x11223344)] [])
      [(.ip, 0x00000000)] [(0x5C, [0x00, 0x00, 0x00, 0x00])] .invalidAddress := by decide +kernel

theorem test_storw :
    ends (unit 32 64 0 [0x0E, 0x00, 0x40, 0x00] [(.r0, 0x11223344)] [(0x3E, [0xEE, 0xEE, 0xEE, 0xEE, 0xEE, 0xEE, 0xEE, 0xEE])])
      [(.ip, 0x00000004)] [(0x3E, [0xEE, 0xEE, 0x44, 0x33, 0xEE, 0xEE, 0xEE, 0xEE])] .paused := by decide +kernel

theorem test_storb :
    ends (unit 32 64 0 [0x0F, 0x00, 0x40, 0x00] [(.r0, 0x11223344)] [(0x3E, [0xEE, 0xEE, 0xEE, 0xEE, 0xEE, 0xEE, 0xEE, 0xEE])])
      [(.ip, 0x00000004)] [(0x3E, [0xEE, 0xEE, 0x44, 0xEE, 0xEE, 0xEE, 0xEE, 0xEE])] .paused := by decide +kernel

theorem test_storb_last_byte :
    ends (unit 32 64 0 [0x0F, 0x00, 0x5F, 0x00] [(.r0, 0x11223344)] [])
      [(.ip, 0x00000004)] [(0x5C, [0x00, 0x00, 0x00, 0x44])] .paused := by decide +kernel

theorem test_storP :
    ends (unit 32 64 0 [0x10, 0x00, 0x01] [(.r0, 0xCAFEBABE), (.r1, 0x00000030)] [])
      [(.ip, 0x00000003)] [(0x30, [0xBE, 0xBA, 0xFE, 0xCA])] .paused := by decide +kernel

theorem test_storP_no_wrap :
    ends (unit 32 64 0 [0x10, 0x00, 0x01] [(.r0, 0x00000001), (.r1, 0xFFFFFFFE)] [])
      [(.ip, 0x00000000)] [] .invalidAddress := by decide +kernel

theorem test_storwP_unaligned :
    ends (unit 32 64 0 [0x11, 0x00, 0x01] [(.r0, 0xCAFEBABE), (.r1, 0x00000031)] [])
      [(.ip, 0x00000003)] [(0x30, [0x00, 0xBE, 0xBA, 0x00])] .paused := by decide +kernel

theorem test_storbP :
    ends (unit 32 64 0 [0x12, 0x00, 0x01] [(.r0, 0xCAFEBABE), (.r1, 0x00000030)] [])
      [(.ip, 0x00000003)] [(0x30, [0xBE, 0x00, 0x00, 0x00])] .paused := by decide +kernel

theorem test_load :
    ends (unit 32 64 0 [0x13, 0x01, 0x40, 0x00] [] [(0x40, [0x44, 0x33, 0x22, 0x11])])
      [(.r1, 0x11223344), (.ip, 0x00000004)] [] .paused := by decide +kernel

theorem test_loadw :
    ends (unit 32 64 0 [0x14, 0x01, 0x40, 0x00] [(.r1, 0xFFFFFFFF)] [(0x40, [0xFE, 0xFF])])
      [(.r1, 0x0000FFFE), (.ip, 0x00000004)] [] .paused := by decide +kernel

theorem test_loadb :
    ends (unit 32 64 0 [0x15, 0x01, 0x40, 0x00] [(.r1, 0xFFFFFFFF)] [(0x40, [0x80])])
      [(.r1, 0x00000080), (.ip, 0x00000004)] [] .paused := by decide +kernel

theorem test_loadP_same_register :
    ends (unit 32 64 0 [0x16, 0x01, 0x01] [(.r1, 0x00000030)] [(0x30, [0xBE, 0xBA, 0xFE, 0xCA])])
      [(.r1, 0xCAFEBABE), (.ip, 0x00000003)] [] .paused := by decide +kernel

theorem test_loadwP :
    ends (unit 32 64 0 [0x17, 0x02, 0x01] [(.r1, 0x00000030)] [(0x30, [0xBE, 0xBA, 0xFE, 0xCA])])
      [(.r2, 0x0000BABE), (.ip, 0x00000003)] [] .paused := by decide +kernel

theorem test_loadbP :
    ends (unit 32 64 0 [0x18, 0x02, 0x01] [(.r1, 0x00000030)] [(0x30, [0xBE, 0xBA, 0xFE, 0xCA])])
      [(.r2, 0x000000BE), (.ip, 0x00000003)] [] .paused := by decide +kernel

theorem test_loadbP_out_of_range :
    ends (unit 32 64 0 [0x18, 0x02, 0x01] [(.r1, 0x00000060)] [])
      [(.r2, 0x00000000), (.ip, 0x00000000)] [] .invalidAddress := by decide +kernel

theorem test_memcpy_overlap_up :
    ends (unit 32 64 0 [0x19, 0x41, 0x00, 0x40, 0x00, 0x04, 0x00] [] [(0x40, [0x01, 0x02, 0x03, 0x04, 0x05])])
      [(.ip, 0x00000007)] [(0x40, [0x01, 0x01, 0x01, 0x01, 0x01])] .paused := by decide +kernel

theorem test_memcpy_empty_beyond :
    ends (unit 32 64 0 [0x19, 0x61, 0x00, 0x00, 0x00, 0x00, 0x00] [] [])
      [(.ip, 0x00000000)] [] .invalidAddress := by decide +kernel

theorem test_memcpyP :
    ends (unit 32 64 0 [0x1A, 0x00, 0x01, 0x02] [(.r0, 0x00000030), (.r1, 0x00000040), (.r2, 0x00000004)] [(0x40, [0x01, 0x02, 0x03, 0x04])])
      [(.ip, 0x00000004)] [(0x30, [0x01, 0x02, 0x03, 0x04])] .paused := by decide +kernel

theorem test_memcpyP_huge :
    ends (unit 32 64 0 [0x1A, 0x00, 0x01, 0x02] [(.r0, 0x00000030), (.r1, 0x00000040), (.r2, 0xFFFFFFFF)] [])
      [(.ip, 0x00000000)] [] .invalidAddress := by decide +kernel

/-! ### Integer ALU (2.5) -/

theorem test_inc_wrap :
    ends (unit 32 32 0 [0x1B, 0x00] [(.r0, 0xFFFFFFFF)] [])
      [(.r0, 0x00000000), (.ip, 0x00000002)] [] .paused := by decide +kernel

theorem test_dec_wrap :
    ends (unit 32 32 0 [0x1C, 0x00] [(.r0, 0x00000000)] [])
      [(.r0, 0xFFFFFFFF), (.ip, 0x00000002)] [] .paused := by decide +kernel

theorem test_add :
    ends (unit 32 32 0 [0x1F, 0x00, 0x01, 0x02] [(.r1, 0x42F736B3), (.r2, 0x000F1179)] [])
      [(.r0, 0x4306482C), (.ip, 0x00000004)] [] .paused := by decide +kernel

theorem test_add_same_register :
    ends (unit 32 32 0 [0x1F, 0x00, 0x00, 0x00] [(.r0, 0x80000001)] [])
      [(.r0, 0x00000002), (.ip, 0x00000004)] [] .paused := by decide +kernel

theorem test_sub :
    ends (unit 32 32 0 [0x20, 0x00, 0x01] [(.r0, 0x42F736B3), (.r1, 0x000F1179)] [])
      [(.r0, 0x42E8253A), (.ip, 0x00000003)] [] .paused := by decide +kernel

theorem test_sub_wrap :
    ends (unit 32 32 0 [0x20, 0x00, 0x01] [(.r0, 0x00000000), (.r1, 0x00000001)] [])
      [(.r0, 0xFFFFFFFF), (.ip, 0x00000003)] [] .paused := by decide +kernel

theorem test_mul :
    ends (unit 32 32 0 [0x21, 0x00, 0x01, 0x02] [(.r1, 0x075BCD15), (.r2, 0x000003E8)] [])
      [(.r0, 0xBE991A08), (.ip, 0x00000004)] [] .paused := by decide +kernel

theorem test_div :
    ends (unit 32 32 0 [0x22, 0x00, 0x01] [(.r0, 0xFFFFFFFF), (.r1, 0x00000002)] [])
      [(.r0, 0x7FFFFFFF), (.ip, 0x00000003)] [] .paused := by decide +kernel

theorem test_div_by_zero :
    ends (unit 32 32 0 [0x22, 0x00, 0x01] [(.r0, 0x00000007), (.r1, 0x00000000)] [])
      [(.r0, 0x00000007), (.ip, 0x00000000)] [] .divisionByZero := by decide +kernel

theorem test_mod :
    ends (unit 32 32 0 [0x23, 0x00, 0x01] [(.r0, 0xFFFFFFFF), (.r1, 0x0000000A)] [])
      [(.r0, 0x00000005), (.ip, 0x00000003)] [] .paused := by decide +kernel

theorem test_shl :
    ends (unit 32 32 0 [0x24, 0x00, 0x01] [(.r0, 0x80000001), (.r1, 0x00000001)] [])
      [(.r0, 0x00000002), (.ip, 0x00000003)] [] .paused := by decide +kernel

theorem test_shl_by_33 :
    ends (unit 32 32 0 [0x24, 0x00, 0x01] [(.r0, 0x12345678), (.r1, 0x00000021)] [])
      [(.r0, 0x2468ACF0), (.ip, 0x00000003)] [] .paused := by decide +kernel

theorem test_shr :
    ends (unit 32 32 0 [0x25, 0x00, 0x01] [(.r0, 0x80000000), (.r1, 0x0000001F)] [])
      [(.r0, 0x00000001), (.ip, 0x00000003)] [] .paused := by decide +kernel

theorem test_shr_by_32 :
    ends (unit 32 32 0 [0x25, 0x00, 0x01] [(.r0, 0x80000000), (.r1, 0x00000020)] [])
      [(.r0, 0x80000000), (.ip, 0x00000003)] [] .paused := by decide +kernel

theorem test_and :
    ends (unit 32 32 0 [0x26, 0x00, 0x01, 0x02] [(.r1, 0xFF00FF00), (.r2, 0x0FF00FF0)] [])
      [(.r0, 0x0F000F00), (.ip, 0x00000004)] [] .paused := by decide +kernel

theorem test_or :
    ends (unit 32 32 0 [0x27, 0x00, 0x01, 0x02] [(.r1, 0xFF00FF00), (.r2, 0x0FF00FF0)] [])
      [(.r0, 0xFFF0FFF0), (.ip, 0x00000004)] [] .paused := by decide +kernel

theorem test_xor :
    ends (unit 32 32 0 [0x28, 0x00, 0x01, 0x02] [(.r1, 0xFF00FF00), (.r2, 0x0FF00FF0)] [])
      [(.r0, 0xF0F0F0F0), (.ip, 0x00000004)] [] .paused := by decide +kernel

theorem test_not :
    ends (unit 32 32 0 [0x29, 0x00] [(.r0, 0x0000FFFF)] [])
      [(.r0, 0xFFFF0000), (.ip, 0x00000002)] [] .paused := by decide +kernel

theorem test_imul :
    ends (unit 32 32 0 [0x2A, 0x00, 0x01, 0x02] [(.r1, 0xFFFFFFFE), (.r2, 0x00000003)] [])
      [(.r0, 0xFFFFFFFA), (.ip, 0x00000004)] [] .paused := by decide +kernel

theorem test_idiv_truncates :
    ends (unit 32 32 0 [0x2B, 0x00, 0x01] [(.r0, 0xFFFFFFF9), (.r1, 0x00000002)] [])
      [(.r0, 0xFFFFFFFD), (.ip, 0x00000003)] [] .paused := by decide +kernel

theorem test_idiv_overflow :
    ends (unit 32 32 0 [0x2B, 0x00, 0x01] [(.r0, 0x80000000), (.r1, 0xFFFFFFFF)] [])
      [(.r0, 0x80000000), (.ip, 0x00000003)] [] .paused := by decide +kernel

theorem test_imod_sign :
    ends (unit 32 32 0 [0x2C, 0x00, 0x01] [(.r0, 0xFFFFFFF9), (.r1, 0x00000002)] [])
      [(.r0, 0xFFFFFFFF), (.ip, 0x00000003)] [] .paused := by decide +kernel

theorem test_imod_negative_divisor :
    ends (unit 32 32 0 [0x2C, 0x00, 0x01] [(.r0, 0x00000007), (.r1, 0xFFFFFFFE)] [])
      [(.r0, 0x00000001), (.ip, 0x00000003)] [] .paused := by decide +kernel

theorem test_ishr :
    ends (unit 32 32 0 [0x2D, 0x00, 0x01] [(.r0, 0x80000000), (.r1, 0x00000004)] [])
      [(.r0, 0xF8000000), (.ip, 0x00000003)] [] .paused := by decide +kernel

theorem test_ishr_rounds_down :
    ends (unit 32 32 0 [0x2D, 0x00, 0x01] [(.r0, 0xFFFFFFF9), (.r1, 0x00000001)] [])
      [(.r0, 0xFFFFFFFC), (.ip, 0x00000003)] [] .paused := by decide +kernel

theorem test_u2i :
    ends (unit 32 32 0 [0x32, 0x00] [(.r0, 0xFFFFFFFF)] [])
      [(.r0, 0xFFFFFFFF), (.ip, 0x00000002)] [] .paused := by decide +kernel

theorem test_u2i_ip :
    ends (unit 32 32 0 [0x32, 0x0C] [] [])
      [(.ip, 0x00000002)] [] .paused := by decide +kernel

theorem test_i2u :
    ends (unit 32 32 0 [0x33, 0x00] [(.r0, 0x80000000)] [])
      [(.r0, 0x80000000), (.ip, 0x00000002)] [] .paused := by decide +kernel

/-! ### Floating-point ALU (2.6) -/

theorem test_finc :
    ends (unit 32 32 0 [0x1D, 0x00] [(.r0, 0x3F000000)] [])
      [(.r0, 0x3FC00000), (.ip, 0x00000002)] [] .paused := by decide +kernel

theorem test_finc_tie :
    ends (unit 32 32 0 [0x1D, 0x00] [(.r0, 0x4B800000)] [])
      [(.r0, 0x4B800000), (.ip, 0x00000002)] [] .paused := by decide +kernel

theorem test_fdec :
    ends (unit 32 32 0 [0x1E, 0x00] [(.r0, 0x00000000)] [])
      [(.r0, 0xBF800000), (.ip, 0x00000002)] [] .paused := by decide +kernel

theorem test_fdec_zero :
    ends (unit 32 32 0 [0x1E, 0x00] [(.r0, 0x3F800000)] [])
      [(.r0, 0x00000000), (.ip, 0x00000002)] [] .paused := by decide +kernel

theorem test_fadd :
    ends (unit 32 32 0 [0x2E, 0x00, 0x01, 0x02] [(.r1, 0x43B2AB85), (.r2, 0x4453CD71)] [])
      [(.r0, 0x4496919A), (.ip, 0x00000004)] [] .paused := by decide +kernel

theorem test_fadd_overflow :
    ends (unit 32 32 0 [0x2E, 0x00, 0x01, 0x02] [(.r1, 0x7F7FFFFF), (.r2, 0x7F7FFFFF)] [])
      [(.r0, 0x7F800000), (.ip, 0x00000004)] [] .paused := by decide +kernel

theorem test_fsub :
    ends (unit 32 32 0 [0x2F, 0x00, 0x01] [(.r0, 0x43B2AB85), (.r1, 0x4453CD71)] [])
      [(.r0, 0xC3F4EF5D), (.ip, 0x00000003)] [] .paused := by decide +kernel

theorem test_fsub_same :
    ends (unit 32 32 0 [0x2F, 0x00, 0x00] [(.r0, 0x43B2AB85)] [])
      [(.r0, 0x00000000), (.ip, 0x00000003)] [] .paused := by decide +kernel

theorem test_fmul :
    ends (unit 32 32 0 [0x30, 0x00, 0x01, 0x02] [(.r1, 0x43B2AB85), (.r2, 0x4453CD71)] [])
      [(.r0, 0x4893D2C1), (.ip, 0x00000004)] [] .paused := by decide +kernel

theorem test_fmul_negative_zero :
    ends (unit 32 32 0 [0x30, 0x00, 0x01, 0x02] [(.r1, 0x80000000), (.r2, 0x40A00000)] [])
      [(.r0, 0x80000000), (.ip, 0x00000004)] [] .paused := by decide +kernel

theorem test_fdiv :
    ends (unit 32 32 0 [0x31, 0x00, 0x01] [(.r0, 0x43B2AB85), (.r1, 0x4453CD71)] [])
      [(.r0, 0x3ED7F421), (.ip, 0x00000003)] [] .paused := by decide +kernel

theorem test_fdiv_subnormal_tie :
    ends (unit 32 32 0 [0x31, 0x00, 0x01] [(.r0, 0x00000001), (.r1, 0x40000000)] [])
      [(.r0, 0x00000000), (.ip, 0x00000003)] [] .paused := by decide +kernel

theorem test_i2f_tie :
    ends (unit 32 32 0 [0x34, 0x00, 0x01] [(.r1, 0x01000003)] [])
      [(.r0, 0x4B800002), (.ip, 0x00000003)] [] .paused := by decide +kernel

theorem test_i2f_min :
    ends (unit 32 32 0 [0x34, 0x00, 0x01] [(.r1, 0x80000000)] [])
      [(.r0, 0xCF000000), (.ip, 0x00000003)] [] .paused := by decide +kernel

theorem test_f2i_negative :
    ends (unit 32 32 0 [0x35, 0x00, 0x01] [(.r1, 0xC07F5C29)] [])
      [(.r0, 0xFFFFFFFD), (.ip, 0x00000003)] [] .paused := by decide +kernel

theorem test_f2i_min :
    ends (unit 32 32 0 [0x35, 0x00, 0x01] [(.r1, 0xCF000000)] [])
      [(.r0, 0x80000000), (.ip, 0x00000003)] [] .paused := by decide +kernel

/-! ### Jumps (2.7) -/

theorem test_jmp_zero :
    ends (unit 64 32 0 [0x36, 0x00, 0x00] [] [])
      [(.ip, 0x00000000)] [] .paused := by decide +kernel

theorem test_jmp :
    ends (unit 64 32 0 [0x36, 0xFF, 0xFF] [] [])
      [(.ip, 0x0000FFFF)] [] .paused := by decide +kernel

theorem test_jr :
    ends (unit 64 32 0 [0x37, 0x03] [(.r3, 0x00000040)] [])
      [(.ip, 0x00000040)] [] .paused := by decide +kernel

theorem test_jr_ip :
    ends (unit 64 32 6 [0x37, 0x0C] [] [])
      [(.ip, 0x00000007)] [] .paused := by decide +kernel

theorem test_jz_taken :
    ends (unit 64 32 0 [0x38, 0x10, 0x00, 0x00] [(.r0, 0x00000000)] [])
      [(.ip, 0x00000010)] [] .paused := by decide +kernel

theorem test_jz_not_taken :
    ends (unit 64 32 0 [0x38, 0x10, 0x00, 0x00] [(.r0, 0x00000005)] [])
      [(.ip, 0x00000004)] [] .paused := by decide +kernel

theorem test_jnz_taken :
    ends (unit 64 32 0 [0x39, 0x10, 0x00, 0x00] [(.r0, 0x00000005)] [])
      [(.ip, 0x00000010)] [] .paused := by decide +kernel

theorem test_jnz_not_taken :
    ends (unit 64 32 0 [0x39, 0x10, 0x00, 0x00] [(.r0, 0x00000000)] [])
      [(.ip, 0x00000004)] [] .paused := by decide +kernel

/-- Where the jump to 0x20 on R0 and R1 continues, from address 0. -/
def compared (op : Byte) (a b : Word) : Option Word :=
  match step (unit 64 32 0 [op, 0x20, 0x00, 0x00, 0x01] [(.r0, a), (.r1, b)] []) with
  | .next t => some (t.reg .ip)
  | _ => none

theorem test_je :
    compared 0x3A 0x00000007 0x00000007 = some 0x20 ∧
    compared 0x3A 0x00000007 0x00000008 = some 0x05 ∧
    compared 0x3A 0xFFFFFFFF 0x00000001 = some 0x05 ∧
    compared 0x3A 0x00000001 0xFFFFFFFF = some 0x05 ∧
    compared 0x3A 0xFFFFFF86 0xFFFFFF85 = some 0x05 ∧
    compared 0x3A 0xFFFFFF86 0x00000001 = some 0x05 ∧
    compared 0x3A 0x80000000 0x00000000 = some 0x05 ∧
    compared 0x3A 0x7FFFFFFF 0x80000000 = some 0x05 := by
  decide +kernel

theorem test_jne :
    compared 0x3B 0x00000007 0x00000007 = some 0x05 ∧
    compared 0x3B 0x00000007 0x00000008 = some 0x20 ∧
    compared 0x3B 0xFFFFFFFF 0x00000001 = some 0x20 ∧
    compared 0x3B 0x00000001 0xFFFFFFFF = some 0x20 ∧
    compared 0x3B 0xFFFFFF86 0xFFFFFF85 = some 0x20 ∧
    compared 0x3B 0xFFFFFF86 0x00000001 = some 0x20 ∧
    compared 0x3B 0x80000000 0x00000000 = some 0x20 ∧
    compared 0x3B 0x7FFFFFFF 0x80000000 = some 0x20 := by
  decide +kernel

theorem test_ja :
    compared 0x3C 0x00000007 0x00000007 = some 0x05 ∧
    compared 0x3C 0x00000007 0x00000008 = some 0x05 ∧
    compared 0x3C 0xFFFFFFFF 0x00000001 = some 0x20 ∧
    compared 0x3C 0x00000001 0xFFFFFFFF = some 0x05 ∧
    compared 0x3C 0xFFFFFF86 0xFFFFFF85 = some 0x20 ∧
    compared 0x3C 0xFFFFFF86 0x00000001 = some 0x20 ∧
    compared 0x3C 0x80000000 0x00000000 = some 0x20 ∧
    compared 0x3C 0x7FFFFFFF 0x80000000 = some 0x05 := by
  decide +kernel

theorem test_jg :
    compared 0x3D 0x00000007 0x00000007 = some 0x05 ∧
    compared 0x3D 0x00000007 0x00000008 = some 0x05 ∧
    compared 0x3D 0xFFFFFFFF 0x00000001 = some 0x05 ∧
    compared 0x3D 0x00000001 0xFFFFFFFF = some 0x20 ∧
    compared 0x3D 0xFFFFFF86 0xFFFFFF85 = some 0x20 ∧
    compared 0x3D 0xFFFFFF86 0x00000001 = some 0x05 ∧
    compared 0x3D 0x80000000 0x00000000 = some 0x05 ∧
    compared 0x3D 0x7FFFFFFF 0x80000000 = some 0x20 := by
  decide +kernel

theorem test_jae :
    compared 0x3E 0x00000007 0x00000007 = some 0x20 ∧
    compared 0x3E 0x00000007 0x00000008 = some 0x05 ∧
    compared 0x3E 0xFFFFFFFF 0x00000001 = some 0x20 ∧
    compared 0x3E 0x00000001 0xFFFFFFFF = some 0x05 ∧
    compared 0x3E 0xFFFFFF86 0xFFFFFF85 = some 0x20 ∧
    compared 0x3E 0xFFFFFF86 0x00000001 = some 0x20 ∧
    compared 0x3E 0x80000000 0x00000000 = some 0x20 ∧
    compared 0x3E 0x7FFFFFFF 0x80000000 = some 0x05 := by
  decide +kernel

theorem test_jge :
    compared 0x3F 0x00000007 0x00000007 = some 0x20 ∧
    compared 0x3F 0x00000007 0x00000008 = some 0x05 ∧
    compared 0x3F 0xFFFFFFFF 0x00000001 = some 0x05 ∧
    compared 0x3F 0x00000001 0xFFFFFFFF = some 0x20 ∧
    compared 0x3F 0xFFFFFF86 0xFFFFFF85 = some 0x20 ∧
    compared 0x3F 0xFFFFFF86 0x00000001 = some 0x05 ∧
    compared 0x3F 0x80000000 0x00000000 = some 0x05 ∧
    compared 0x3F 0x7FFFFFFF 0x80000000 = some 0x20 := by
  decide +kernel

theorem test_jb :
    compared 0x40 0x00000007 0x00000007 = some 0x05 ∧
    compared 0x40 0x00000007 0x00000008 = some 0x20 ∧
    compared 0x40 0xFFFFFFFF 0x00000001 = some 0x05 ∧
    compared 0x40 0x00000001 0xFFFFFFFF = some 0x20 ∧
    compared 0x40 0xFFFFFF86 0xFFFFFF85 = some 0x05 ∧
    compared 0x40 0xFFFFFF86 0x00000001 = some 0x05 ∧
    compared 0x40 0x80000000 0x00000000 = some 0x05 ∧
    compared 0x40 0x7FFFFFFF 0x80000000 = some 0x20 := by
  decide +kernel

theorem test_jl :
    compared 0x41 0x00000007 0x00000007 = some 0x05 ∧
    compared 0x41 0x00000007 0x00000008 = some 0x20 ∧
    compared 0x41 0xFFFFFFFF 0x00000001 = some 0x20 ∧
    compared 0x41 0x00000001 0xFFFFFFFF = some 0x05 ∧
    compared 0x41 0xFFFFFF86 0xFFFFFF85 = some 0x05 ∧
    compared 0x41 0xFFFFFF86 0x00000001 = some 0x20 ∧
    compared 0x41 0x80000000 0x00000000 = some 0x20 ∧
    compared 0x41 0x7FFFFFFF 0x80000000 = some 0x05 := by
  decide +kernel

theorem test_jbe :
    compared 0x42 0x00000007 0x00000007 = some 0x20 ∧
    compared 0x42 0x00000007 0x00000008 = some 0x20 ∧
    compared 0x42 0xFFFFFFFF 0x00000001 = some 0x05 ∧
    compared 0x42 0x00000001 0xFFFFFFFF = some 0x20 ∧
    compared 0x42 0xFFFFFF86 0xFFFFFF85 = some 0x05 ∧
    compared 0x42 0xFFFFFF86 0x00000001 = some 0x05 ∧
    compared 0x42 0x80000000 0x00000000 = some 0x05 ∧
    compared 0x42 0x7FFFFFFF 0x80000000 = some 0x20 := by
  decide +kernel

theorem test_jle :
    compared 0x43 0x00000007 0x00000007 = some 0x20 ∧
    compared 0x43 0x00000007 0x00000008 = some 0x20 ∧
    compared 0x43 0xFFFFFFFF 0x00000001 = some 0x20 ∧
    compared 0x43 0x00000001 0xFFFFFFFF = some 0x05 ∧
    compared 0x43 0xFFFFFF86 0xFFFFFF85 = some 0x05 ∧
    compared 0x43 0xFFFFFF86 0x00000001 = some 0x20 ∧
    compared 0x43 0x80000000 0x00000000 = some 0x20 ∧
    compared 0x43 0x7FFFFFFF 0x80000000 = some 0x05 := by
  decide +kernel

/-! ### Host I/O, conversion, hardware control (2.8) -/

theorem test_print :
    asks (unit 32 64 0 [0x44, 0x00, 0x01] [(.r0, 0xFFFFFFFF)] []) .outU32 (answer 0)
      (.outU32 0xFFFFFFFF true) [(.ip, 0x00000003)] [] := by decide +kernel

theorem test_printi :
    asks (unit 32 64 0 [0x45, 0x00, 0x00] [(.r0, 0xFFFFFFFF)] []) .outI32 (answer 0)
      (.outI32 0xFFFFFFFF false) [(.ip, 0x00000003)] [] := by decide +kernel

theorem test_printf :
    asks (unit 32 64 0 [0x46, 0x00, 0x01] [(.r0, 0x3FC00000)] []) .outF32 (answer 0)
      (.outF32 0x3FC00000 true) [(.ip, 0x00000003)] [] := by decide +kernel

theorem test_printc :
    asks (unit 32 64 0 [0x47, 0x00, 0x02] [(.r0, 0x00000141)] []) .outChar (answer 0)
      (.outChar 0x41 true) [(.ip, 0x00000003)] [] := by decide +kernel

theorem test_prints :
    asks (unit 32 64 0 [0x48, 0x40, 0x00, 0x01] [] [(0x40, [0x48, 0x69, 0x00])]) .outStr (answer 0)
      (.outStr [0x48, 0x69] true) [(.ip, 0x00000004)] [] := by decide +kernel

theorem test_print_unsupported :
    ends (unit 32 64 0 [0x44, 0x00, 0x01] [(.r0, 0x00000005)] [])
      [(.ip, 0x00000000)] [] .unsupportedOpcode := by decide +kernel

theorem test_prints_unterminated :
    ends (unit 32 64 0 [0x48, 0x5E, 0x00, 0x00] [] [(0x5E, [0x41, 0x42])])
      [(.ip, 0x00000000)] [] .invalidAddress := by decide +kernel

theorem test_read :
    asks (unit 32 64 0 [0x49, 0x00] [] []) .inU32 (answer 0x2A)
      .inU32 [(.r0, 0x0000002A), (.ip, 0x00000002)] [] := by decide +kernel

theorem test_readi :
    asks (unit 32 64 0 [0x4A, 0x00] [] []) .inI32 (answer 0xFFFFFFFF)
      .inI32 [(.r0, 0xFFFFFFFF), (.ip, 0x00000002)] [] := by decide +kernel

theorem test_readf :
    asks (unit 32 64 0 [0x4B, 0x00] [] []) .inF32 (answer 0x3FC00000)
      .inF32 [(.r0, 0x3FC00000), (.ip, 0x00000002)] [] := by decide +kernel

theorem test_readc :
    asks (unit 32 64 0 [0x4C, 0x00] [(.r0, 0xFFFFFFFF)] []) .inChar (answer 0x141)
      .inChar [(.r0, 0x00000041), (.ip, 0x00000002)] [] := by decide +kernel

theorem test_reads :
    asks (unit 32 64 0 [0x4D, 0x40, 0x00, 0x08, 0x00] [] [(0x40, [0xEE, 0xEE, 0xEE, 0xEE, 0xEE, 0xEE, 0xEE, 0xEE])]) .inLine ⟨[], 0, [0x61, 0x62, 0x63], true⟩
      (.inLine 7) [(.ip, 0x00000005)] [(0x40, [0x61, 0x62, 0x63, 0x00, 0xEE, 0xEE, 0xEE, 0xEE])] := by decide +kernel

theorem test_reads_out_of_range :
    ends (unit 32 64 0 [0x4D, 0x5C, 0x00, 0x08, 0x00] [] [])
      [(.ip, 0x00000000)] [] .invalidAddress := by decide +kernel

theorem test_i2s_max :
    ends (unit 32 64 0 [0x4E, 0x40, 0x00, 0x01] [(.r1, 0xFFFFFFFF)] [])
      [(.ip, 0x00000004)] [(0x40, [0x34, 0x32, 0x39, 0x34, 0x39, 0x36, 0x37, 0x32, 0x39, 0x35, 0x00])] .paused := by decide +kernel

theorem test_i2s_no_room :
    ends (unit 32 64 0 [0x4E, 0x5C, 0x00, 0x01] [(.r1, 0x000004D2)] [])
      [(.ip, 0x00000000)] [(0x5C, [0x00, 0x00, 0x00, 0x00])] .invalidAddress := by decide +kernel

theorem test_s2i_wrap :
    ends (unit 32 64 0 [0x4F, 0x40, 0x00, 0x02] [] [(0x40, [0x34, 0x32, 0x39, 0x34, 0x39, 0x36, 0x37, 0x32, 0x39, 0x36, 0x00])])
      [(.r2, 0x00000000), (.ip, 0x00000004)] [] .paused := by decide +kernel

theorem test_s2i_stops :
    ends (unit 32 64 0 [0x4F, 0x40, 0x00, 0x02] [] [(0x40, [0x31, 0x32, 0x61, 0x62, 0x00])])
      [(.r2, 0x0000000C), (.ip, 0x00000004)] [] .paused := by decide +kernel

theorem test_dread :
    asks (unit 32 64 0 [0x50, 0x00, 0x01] [(.r1, 0x0000000D)] []) .dRead (answer 1)
      (.dRead 0xD) [(.r0, 0x00000001), (.ip, 0x00000003)] [] := by decide +kernel

theorem test_dwrite :
    asks (unit 32 64 0 [0x51, 0x00, 0x01] [(.r0, 0x0000000D), (.r1, 0x00000001)] []) .dWrite (answer 0)
      (.dWrite 0xD 1) [(.ip, 0x00000003)] [] := by decide +kernel

theorem test_aread :
    asks (unit 32 64 0 [0x52, 0x00, 0x01] [(.r1, 0x00000000)] []) .aRead (answer 0x200)
      (.aRead 0) [(.r0, 0x00000200), (.ip, 0x00000003)] [] := by decide +kernel

theorem test_awrite :
    asks (unit 32 64 0 [0x53, 0x00, 0x01] [(.r0, 0x00000009), (.r1, 0x00000080)] []) .aWrite (answer 0)
      (.aWrite 9 0x80) [(.ip, 0x00000003)] [] := by decide +kernel

theorem test_pinmode :
    asks (unit 32 64 0 [0x54, 0x00, 0x01] [(.r0, 0x0000000D), (.r1, 0x00000001)] []) .pinMode (answer 0)
      (.pinMode 0xD 1) [(.ip, 0x00000003)] [] := by decide +kernel

theorem test_dread_unsupported :
    ends (unit 32 64 0 [0x50, 0x00, 0x01] [(.r0, 0x00000007), (.r1, 0x0000000D)] [])
      [(.r0, 0x00000007), (.ip, 0x00000000)] [] .unsupportedOpcode := by decide +kernel

theorem test_pinmode_bad_register :
    ends (unit 32 64 0 [0x54, 0x00, 0x10] [(.r0, 0x0000000D)] [])
      [(.ip, 0x00000000)] [] .invalidRegister := by decide +kernel

/-! ### Fetch and decode faults (2.9) -/

theorem test_unknown_opcode :
    ends (unit 32 32 0 [0x55] [] [])
      [(.ip, 0x00000000)] [] .unknownOpcode := by decide +kernel

theorem test_truncated :
    ends (unit 32 32 28 [0x03, 0x00, 0x01, 0x02, 0x03, 0x04] [] [])
      [(.r0, 0x00000000), (.ip, 0x0000001C)] [] .programOverrun := by decide +kernel

theorem test_exactly_fits :
    ends (unit 32 32 26 [0x03, 0x00, 0x01, 0x02, 0x03, 0x04] [] [])
      [(.r0, 0x04030201), (.ip, 0x00000020)] [] .paused := by decide +kernel

theorem test_unknown_at_last_byte :
    ends (unit 32 32 31 [0x99] [] [])
      [(.ip, 0x0000001F)] [] .unknownOpcode := by decide +kernel

theorem test_long_at_last_byte :
    ends (unit 32 32 31 [0x03, 0x10] [] [])
      [(.ip, 0x0000001F)] [] .programOverrun := by decide +kernel

theorem test_div_bad_register_first :
    ends (unit 32 32 0 [0x22, 0x10, 0x01] [(.r1, 0x00000000)] [])
      [(.ip, 0x00000000)] [] .invalidRegister := by decide +kernel

/-! ### Reset, and placing an instruction -/

/-- R22, R360. -/
theorem test_reset :
    State.reset.reg .ip = 0 ∧ State.reset.reg .sp = 0x10000 ∧ State.reset.reg .ra = 0 ∧
    State.reset.phase = .idle ∧ State.reset.hook = none ∧ State.reset.mem.wf = true := by
  decide +kernel

/-- The bits of `LCONSB R0, 0x7B` (R112), placed after reset, run as the first instruction. -/
theorem test_withFetchWord :
    decodeTableWord 24 0x7B0005 = some (.lconsb 0 0x7B) ∧
    (match step (State.reset.withFetchWord 24 0x7B0005) with
     | .next t => t.reg .r0 == 0x7B && t.reg .ip == 3 && t.phase == .running 0 1
     | _ => false) = true := by decide +kernel

/-! ### Witnesses: the hypotheses of each obligation are met -/

theorem witness_decodeOfEncode : (Instr.add 0x00 0x0F 0x0C).wellFormed = true := by decide

theorem witness_decodedBytes : decode [0x05, 0x0F, 0xFF, 0x33] = .ok (.lconsb 0x0F 0xFF) := by decide

theorem witness_decodeFaults :
    0x54 < (0x55 : Byte).toNat ∧ 0x54 < (0xFF : Byte).toNat ∧
    0 < 1 ∧ 1 < (encode (.lcons 0x10 0)).length ∧ 5 < (encode (.lcons 0 0)).length ∧
    (Instr.pop 0x10).wellFormed = false := by decide

/-- A unit inside a run at address 26 of a program region of 32 bytes. -/
def atEnd (bytes : List Byte) : State := unit 32 32 26 bytes [] []

theorem witness_step :
    (atEnd [3, 0, 1, 2, 3, 4]).phase = .running 1 0 ∧ (Instr.lcons 0 0x04030201).wellFormed = true ∧
    ((atEnd [3, 0, 1, 2, 3, 4]).reg .ip).toNat + (encode (.lcons 0 0x04030201)).length = 32 ∧
    (atEnd [3, 0, 1, 2, 3, 4]).progLen = 32 ∧
    BytesAt (atEnd [3, 0, 1, 2, 3, 4]).mem ((atEnd [3, 0, 1, 2, 3, 4]).reg .ip).toNat
      (encode (.lcons 0 0x04030201)) := by
  unfold BytesAt; decide +kernel

theorem witness_fetch_overrun :
    (unit 32 32 32 [] [] []).phase = .running 1 0 ∧
    (unit 32 32 32 [] [] []).progLen = ((unit 32 32 32 [] [] []).reg .ip).toNat := by
  decide +kernel

theorem witness_fetch_unknown :
    ((unit 32 32 31 [0x55] [] []).reg .ip).toNat < 32 ∧
    0x54 < ((unit 32 32 31 [0x55] [] []).mem.read 31).toNat := by decide +kernel

theorem witness_fetch_truncated :
    ((unit 32 32 27 [0x03] [] []).reg .ip).toNat < 32 ∧
    (encode (.lcons 0x10 0)).head? = some ((unit 32 32 27 [0x03] [] []).mem.read 27) ∧
    32 < 27 + (encode (.lcons 0x10 0)).length := by decide +kernel

theorem witness_fetch_bad_register :
    ((atEnd [3, 16, 0, 0, 0, 0]).reg .ip).toNat + (encode (.lcons 0x10 0)).length = 32 ∧
    BytesAt (atEnd [3, 16, 0, 0, 0, 0]).mem 26 (encode (.lcons 0x10 0)) ∧
    (Instr.lcons 0x10 0).wellFormed = false := by
  unfold BytesAt; decide +kernel

theorem witness_illFormed :
    (Instr.push 0x10).wellFormed = false ∧ (Instr.push 0x0F).wellFormed = true ∧
    ∃ t, exec (.push 0x0F) (atEnd []) = .next t := ⟨by decide, by decide, _, rfl⟩

/-- A stack machine of 32 bytes of program and 32 of stack, `SP` given. -/
def stack (sp : Word) : State := unit 32 32 0 [] [(.sp, sp)] []

theorem witness_faults_precise :
    ∃ t, exec (.push 0x00) (stack 36) = .next t ∧
      t.replies = .result .stackOverflow :: (stack 36).replies ∧
      ExecResult.stackOverflow.isFault = true := ⟨_, rfl, by decide +kernel, rfl⟩

theorem witness_counts :
    (stack 64).phase = .running 1 0 ∧ ∃ t, exec .nop (stack 64) = .next t := ⟨rfl, _, rfl⟩

theorem witness_invariant :
    (stack 64).Inv ∧ (∃ t, step (stack 64) = .next t) ∧ State.reset.Inv ∧
    ∃ t, step State.reset = .next t :=
  ⟨⟨rfl, by decide, by decide, .inr (by decide : 0 < 1)⟩, ⟨_, rfl⟩, ⟨rfl, by decide, by decide, trivial⟩, _, rfl⟩

/-- A unit whose trace holds a string output and a hook call. -/
def traced : State := { stack 64 with
  hook := some 1, hostKinds := [.outStr]
  trace := [.request (.outStr [0x48] true), .interrupt 0 3] }

theorem witness_portInvariant : traced.PortInv ∧ ∃ t, step traced = .next t := by
  refine ⟨?_, _, rfl⟩
  intro x hx
  rcases List.mem_cons.1 hx with rfl | hx
  · exact ⟨by decide, by decide⟩
  · rcases List.mem_cons.1 hx with rfl | hx
    · exact (by decide : some 1 ≠ (none : Option Nat))
    · exact absurd hx (by simp)

theorem witness_instance :
    (∃ t, step traced = .next t) ∧ traced.phase ≠ .idle ∧ traced.hook ≠ none := by
  exact ⟨⟨_, rfl⟩, by decide +kernel, by decide +kernel⟩

theorem witness_budget :
    SameButRun (stack 64) { stack 64 with phase := .running 0 9 } ∧
    (stack 64).phase = .running 1 0 ∧ ∃ t, step (stack 64) = .next t :=
  ⟨⟨rfl, rfl, ⟨rfl, rfl, rfl, rfl, rfl, rfl, rfl⟩, rfl, rfl⟩, rfl, _, rfl⟩

theorem witness_resumed :
    (stack 64).inbox = [] ∧
    (steps 1 ((stack 64).startRun (BitVec.ofNat 32 1))).replies =
      .result .paused :: (stack 64).replies := by decide +kernel

/-- An idle unit with one pending call of the host. -/
def called (c : HostCall) : State := { stack 60 with phase := .idle, inbox := [c] }

theorem witness_idle :
    (called .reset).phase = .idle ∧ (called .reset).inbox = [.reset] ∧
    (called (.run 5)).inbox = [.run 5] ∧ (called (.onInterrupt 2)).inbox = [.onInterrupt 2] ∧
    State.reset.inbox = [] ∧ State.reset.phase = .idle := by decide +kernel

theorem witness_accessors :
    (called (.access .pop)).phase = .idle ∧
    (called (.access (.getRegister 15))).inbox = [.access (.getRegister Reg.ra.val)] ∧
    (called (.access (.setRegister 16 1))).inbox = [.access (.setRegister 16 1)] ∧
    (called (.access (.readMemory 63))).memSize = 64 ∧
    (called (.access (.push 1))).inbox = [.access (.push 1)] ∧
    ((called (.access .count)).reg .sp).toNat ≤ (called (.access .count)).memSize ∧
    (called (.access .count)).progLen ≤ ((called (.access .count)).reg .sp).toNat := by
  decide +kernel

theorem witness_construction :
    2 ^ 32 ≤ ([] : List Byte).length + 2 ^ 32 ∧ [0x01#8].length + (2 ^ 32 - 2) < 2 ^ 32 := by decide

theorem witness_int :
    (stack 64).hook = none ∧ traced.hook = some 1 ∧
    ({ traced with script := [answer 0] }.callback (.interrupt 1 9)).continues = true ∧
    ({ traced with script := [⟨[], 0, [], false⟩] }.callback (.interrupt 1 9)).continues = false := by
  decide +kernel

theorem witness_push :
    ((stack 37).progLen + 4 < ((stack 37).reg .sp).toNat ∧
      ((stack 37).reg .sp).toNat ≤ (stack 37).memSize) ∧
    (stack 64).progLen + 4 < ((stack 64).reg .sp).toNat ∧
    ((stack 64).reg .sp).toNat = (stack 64).memSize := by decide +kernel

theorem witness_pop :
    (stack 60).memSize < 2 ^ 32 ∧ (stack 60).progLen ≤ ((stack 60).reg .sp).toNat ∧
    ((stack 60).reg .sp).toNat + 4 = (stack 60).memSize ∧
    (stack 32).progLen = ((stack 32).reg .sp).toNat := by decide +kernel

theorem witness_pop2 :
    (stack 56).memSize < 2 ^ 32 ∧ (stack 56).progLen ≤ ((stack 56).reg .sp).toNat ∧
    ((stack 56).reg .sp).toNat + 8 = (stack 56).memSize := by decide +kernel

theorem witness_dup :
    (stack 60).progLen + 4 < ((stack 60).reg .sp).toNat ∧
    ((stack 60).reg .sp).toNat + 4 = (stack 60).memSize := by decide +kernel

/-- A boundary value of `SP` for each clause, in the order of the clauses. -/
theorem witness_stack_faults :
    (stack 64).memSize < 2 ^ 32 ∧
    ((stack 36).reg .sp).toNat ≤ (stack 36).progLen + 4 ∧
    ((stack 65).progLen + 4 < ((stack 65).reg .sp).toNat ∧
      (stack 65).memSize < ((stack 65).reg .sp).toNat) ∧
    (stack 64).memSize ≤ ((stack 64).reg .sp).toNat ∧
    ((stack 31).reg .sp).toNat < (stack 31).progLen ∧
    ((stack 61).progLen ≤ ((stack 61).reg .sp).toNat ∧
      ((stack 61).reg .sp).toNat < (stack 61).memSize ∧
      (stack 61).memSize < ((stack 61).reg .sp).toNat + 4) ∧
    (stack 60).memSize ≤ ((stack 60).reg .sp).toNat + 4 ∧
    (((stack 59).reg .sp).toNat + 4 < (stack 59).memSize ∧
      (stack 59).memSize < ((stack 59).reg .sp).toNat + 8) ∧
    (((stack 36).reg .sp).toNat + 4 ≤ (stack 36).memSize ∧
      (stack 36).progLen ≤ ((stack 36).reg .sp).toNat) := by decide +kernel

theorem witness_push_then_pop :
    (stack 64).memSize < 2 ^ 32 ∧ (stack 64).progLen + 4 < ((stack 64).reg .sp).toNat ∧
    ((stack 64).reg .sp).toNat ≤ (stack 64).memSize ∧ Reg.r0 ≠ Reg.ip ∧ Reg.r0 ≠ Reg.sp := by
  decide +kernel

/-- The machine of 96 bytes, a pointer in `R1`. -/
def pointing (p : Word) : State := unit 32 64 0 [] [(.r1, p), (.r2, 4)] []

theorem witness_absolute :
    (0x5C : Half).toNat + 4 = (pointing 0).memSize ∧ (0x5E : Half).toNat + 2 = (pointing 0).memSize ∧
    (0x5F : Half).toNat + 1 = (pointing 0).memSize ∧ (0x5D : Half).toNat + 4 > (pointing 0).memSize ∧
    (0x5F : Half).toNat + 2 > (pointing 0).memSize ∧
    (0x60 : Half).toNat + 1 > (pointing 0).memSize ∧ Reg.r0 ≠ Reg.ip := by decide +kernel

theorem witness_indirect :
    (operand (pointing 0x5C) 3 .r1).toNat + 4 = (pointing 0x5C).memSize ∧
    (operand (pointing 0x5E) 3 .r1).toNat + 2 = (pointing 0x5E).memSize ∧
    (operand (pointing 0x5F) 3 .r1).toNat + 1 = (pointing 0x5F).memSize ∧
    (operand (pointing 0xFFFFFFFE) 3 .r1).toNat + 4 > (pointing 0xFFFFFFFE).memSize ∧
    (operand (pointing 0x5F) 3 .r1).toNat + 2 > (pointing 0x5F).memSize ∧
    (operand (pointing 0x60) 3 .r1).toNat + 1 > (pointing 0x60).memSize := by decide +kernel

theorem witness_copy :
    ((0x5C : Half).toNat + (4 : Half).toNat = (pointing 0x5C).memSize) ∧
    (operand (pointing 0x5C) 4 .r1).toNat + (operand (pointing 0x5C) 4 .r2).toNat =
      (pointing 0x5C).memSize ∧
    (pointing 0x5C).memSize < (0x61 : Half).toNat + (0 : Half).toNat ∧
    (pointing 0x5D).memSize <
      (operand (pointing 0x5D) 4 .r1).toNat + (operand (pointing 0x5D) 4 .r2).toNat := by
  decide +kernel

/-- A value in `R1` and one in `R2`. -/
def values (a b : Word) : State := unit 32 32 0 [] [(.r1, a), (.r2, b)] []

theorem witness_three_operands :
    (0xFFFFFFFF : Word) = operand (values 0xFFFFFFFF 1) 4 .r1 ∧
    (1 : Word) = operand (values 0xFFFFFFFF 1) 4 .r2 := by decide +kernel

theorem witness_one_operand : (7 : Word) = operand (values 7 1) 2 .r1 := by decide +kernel

theorem witness_two_operands :
    (0x80000000 : Word) = operand (values 0x80000000 0xFFFFFFFF) 3 .r1 ∧
    (0xFFFFFFFF : Word) = operand (values 0x80000000 0xFFFFFFFF) 3 .r2 ∧
    (0xFFFFFFFF : Word) ≠ 0 := by decide +kernel

theorem witness_divisor_zero : operand (values 7 0) 3 .r2 = 0 := by decide +kernel

theorem witness_compared :
    (7 : Word) = operand (values 7 7) 5 .r1 ∧ (7 : Word) = operand (values 7 7) 5 .r2 := by
  decide +kernel

theorem witness_i2f :
    operand (values 0 1) 3 .r1 = 0 ∧ operand (values 0 1) 3 .r2 ≠ 0 := by decide +kernel

/-- 1.0 is finite, an infinity and a NaN are not. -/
theorem witness_f2i :
    (∃ x, finiteValue (operand (values 0x3F800000 0) 3 .r1) = some x) ∧
    finiteValue (operand (values 0x7F800000 0) 3 .r1) = none ∧
    finiteValue (operand (values 0x7FC00000 0) 3 .r1) = none := ⟨⟨_, rfl⟩, rfl, rfl⟩

/-- A machine whose host supports every kind of request, with a string and digits in memory. -/
def hosted (cells : List (Nat × List Byte)) : State := { unit 32 64 0 [] [] cells with
  hostKinds := [.outU32, .outI32, .outF32, .outChar, .outStr, .inU32, .inI32, .inF32, .inChar,
    .inLine, .dRead, .dWrite, .aRead, .aWrite, .pinMode] }

/-- Every kind of request can be supported (R270). -/
theorem witness_supported : ∀ k : RequestKind, k ∈ (hosted []).hostKinds := by
  intro k; cases k <;> decide

/-- No kind of request need be supported (R270). -/
theorem witness_unsupported :
    (∀ k : RequestKind, k ∉ (unit 32 64 0 [] [] []).hostKinds) ∧ (1 : Half) ≠ 0 ∧
    (0x5F : Half).toNat + (1 : Half).toNat ≤ (unit 32 64 0 [] [] []).memSize ∧
    (∃ x, (0x5F : Half).toNat ≤ x ∧ x < (unit 32 64 0 [] [] []).memSize ∧
      (unit 32 64 0 [] [] []).mem.read x = 0) :=
  ⟨by intro k; cases k <;> decide, by decide, by decide, 0x5F, by decide, by decide, by decide⟩

theorem witness_prints :
    (0 : Byte) ∉ [0x48#8, 0x69#8] ∧
    BytesAt (hosted [(0x5D, [0x48, 0x69, 0])]).mem (0x5D : Half).toNat ([0x48, 0x69] ++ [0]) ∧
    (0x5D : Half).toNat + [0x48#8, 0x69#8].length < (hosted []).memSize ∧
    RequestKind.outStr ∈ (hosted []).hostKinds := by
  unfold BytesAt; decide +kernel

theorem witness_prints_unterminated :
    ∀ x, (0x5E : Half).toNat ≤ x → x < (hosted [(0x5E, [0x41, 0x42])]).memSize →
      (hosted [(0x5E, [0x41, 0x42])]).mem.read x ≠ 0 := by
  intro x h1 h2
  have h2' : x < 0x60 := h2
  have h1' : 0x5E ≤ x := h1
  interval_cases x <;> decide

theorem witness_reads :
    (hosted []).memSize < (0x5C : Half).toNat + (8 : Half).toNat ∧
    (0x60 : Half).toNat + (0 : Half).toNat ≤ (hosted []).memSize ∧
    (0x58 : Half).toNat + (8 : Half).toNat = (hosted []).memSize ∧ (8 : Half) ≠ 0 ∧
    RequestKind.inLine ∈ (hosted []).hostKinds := by decide +kernel

/-- `R1` holds 1234; the string just fits from 0x5B on, and does not from 0x5C on. -/
theorem witness_i2s :
    (values 1234 0).i2sFormat = .default ∧
    IsDecimal [0x31, 0x32, 0x33, 0x34] (operand (values 1234 0) 4 .r1).toNat ∧
    (0x5B : Half).toNat + 4 + 1 ≤ (pointing 0).memSize ∧
    ¬ (0x5C : Half).toNat + 4 + 1 ≤ (pointing 0).memSize := by
  unfold IsDecimal AsciiDigit; decide +kernel

/-- Whatever replaces `I2S_FORMAT`, there is an instance in which its string just fits. -/
theorem witness_i2s_replaced (h : Nat) :
    ∃ s : State, s.i2sFormat = .replacedBy h ∧
      (0 : Half).toNat + (s.formatInt (operand s 4 .r1)).length + 1 = s.memSize :=
  ⟨{ State.reset with
      i2sFormat := .replacedBy h, stackCap := (Config.i2sFormat h 0).length + 1 },
    rfl, by
      show 0 + (Config.i2sFormat h 0).length + 1 = 0 + ((Config.i2sFormat h 0).length + 1)
      omega⟩

theorem witness_s2i :
    (hosted []).s2iParse = .default ∧
    (∀ b ∈ [0x31#8, 0x32#8], AsciiDigit b) ∧
    BytesAt (hosted [(0x5D, [0x31, 0x32, 0x61])]).mem (0x5D : Half).toNat [0x31, 0x32] ∧
    (0x5D : Half).toNat + [0x31#8, 0x32#8].length < (hosted []).memSize ∧
    ¬ AsciiDigit ((hosted [(0x5D, [0x31, 0x32, 0x61])]).mem.read (0x5D + 2)) := by
  unfold BytesAt AsciiDigit; decide +kernel

theorem witness_s2i_scan :
    (hosted [(0x5D, [0x31, 0x32, 0x61])]).scanInt (BitVec.ofNat 32 (0x5D : Half).toNat) = some 12 ∧
    (hosted [(0x5E, [0x31, 0x39])]).scanInt (BitVec.ofNat 32 (0x5E : Half).toNat) = none := by
  decide +kernel

theorem witness_s2i_overrun :
    ∀ x, (0x5E : Half).toNat ≤ x → x < (hosted [(0x5E, [0x31, 0x39])]).memSize →
      AsciiDigit ((hosted [(0x5E, [0x31, 0x39])]).mem.read x) := by
  intro x h1 h2
  have h2' : x < 0x60 := h2
  have h1' : 0x5E ≤ x := h1
  unfold AsciiDigit
  interval_cases x <;> decide

theorem witness_i2s_and_back :
    (pointing 0).i2sFormat = .default ∧ (pointing 0).s2iParse = .default ∧
    (0x55 : Half).toNat + 11 = (pointing 0).memSize := by decide +kernel

theorem witness_faults_repeat :
    let s := unit 32 32 0 [0x07, 0x00] [(.sp, 36)] []
    s.phase = .running 1 0 ∧
      ∃ t, step s = .next t ∧ t.replies = .result .stackOverflow :: s.replies ∧
        ExecResult.stackOverflow.isFault = true := by
  refine ⟨rfl, _, rfl, ?_, rfl⟩
  decide +kernel

theorem witness_writes_only_named :
    (∃ t, exec (.push 0x00) (stack 64) = .next t) ∧ ¬ Transacts (.push 0x00) ∧
      regByte .r1 ∉ (Instr.push 0x00).regBytes ∧ Reg.r1 ≠ .ip ∧ Reg.r1 ≠ .sp ∧ Reg.r1 ≠ .ra :=
  ⟨⟨_, rfl⟩, by decide +kernel⟩

theorem witness_only_storing :
    (∃ t, exec (.add 0x00 0x01 0x02) (stack 64) = .next t) ∧ ¬ Transacts (.add 0x00 0x01 0x02) ∧
      opcodeOf (.add 0x00 0x01 0x02) ∉
        [0x07, 0x0A, 0x0D, 0x0E, 0x0F, 0x10, 0x11, 0x12, 0x19, 0x1A, 0x4E] :=
  ⟨⟨_, rfl⟩, by decide +kernel⟩

theorem witness_one_transaction :
    (∃ t, exec (.int 0xA7) (stack 64) = .next t) ∧ Transacts (.int 0xA7) :=
  ⟨⟨_, rfl⟩, by decide +kernel⟩

end Sys2Proof.Tests
end

section
/-! PROOFS. What one step can do, said once; and with it: every step keeps the invariant (O11) and the
parameters (O14). -/

namespace Sys2Proof.Machine

/-! ### What one step can do -/

/-- R79: decoding answers no `Finished` and no `Paused` in place of an instruction. -/
theorem isFault_of_decode_error {bs : List Byte} {e : ExecResult} (h : decode bs = .error e) :
    e.isFault = true := by
  unfold decode at h
  split at h
  · cases h; rfl
  · split at h
    · cases h; rfl
    · dsimp only at h
      split at h
      · cases h; rfl
      · split at h
        · cases h
        · cases h; rfl

/-- R321, R313, R316: one turn of the dispatch loop ends as an instruction can, a fault of the fetch
being one of the faults. -/
theorem step_ends_of_running {s : State} {budget icount : Word}
    (h : s.phase = .running budget icount) : Ends s (step s) := by
  have hstep : step s = s.dispatch exec := by rw [step, h]
  rw [hstep, State.dispatch]
  cases hf : s.fetch with
  | ok i => exact (exec_ends i s).1
  | error e => exact .faults e (isFault_of_decode_error hf)

/-- R326, R347: the idle unit serves the host's next call, or does nothing. -/
theorem step_eq_of_idle {s : State} (h : s.phase = .idle) :
    (s.inbox = [] ∧ step s = .next s) ∨
      ∃ c rest, s.inbox = c :: rest ∧
        step s = .next (State.hostCall { s with inbox := rest } c) := by
  have hstep : step s = s.serveHost := by rw [step, h]
  rw [hstep, State.serveHost]
  cases hb : s.inbox with
  | nil => exact .inl ⟨rfl, rfl⟩
  | cons c rest => exact .inr ⟨c, rest, rfl, rfl⟩

theorem Phase.idle_or_running (p : Phase) :
    p = .idle ∨ ∃ budget icount, p = .running budget icount := by
  cases p with
  | idle => exact .inl rfl
  | running budget icount => exact .inr ⟨budget, icount, rfl⟩

/-- Everything a step can answer: the end of an instruction or of its fetch inside a run, the state
itself or the host's next call served on the idle unit. -/
theorem step_cases {s t : State} (h : step s = .next t) :
    (s.phase ≠ .idle ∧ Ends s (.next t)) ∨
      (s.phase = .idle ∧
        (t = s ∨ ∃ c rest, t = State.hostCall { s with inbox := rest } c)) := by
  rcases s.phase.idle_or_running with hp | ⟨budget, icount, hp⟩
  · refine .inr ⟨hp, ?_⟩
    rcases step_eq_of_idle hp with ⟨_, e⟩ | ⟨c, rest, _, e⟩
    · rw [h, Host.Outcome.next.injEq] at e
      exact .inl e
    · rw [h, Host.Outcome.next.injEq] at e
      exact .inr ⟨c, rest, e⟩
  · exact .inl ⟨by rw [hp]; exact nofun, h ▸ step_ends_of_running hp⟩

/-! ### The invariant -/

/-- R321, R323: inside a run with a budget the count is still below it. -/
def Phase.BudgetLeft : Phase → Prop
  | .idle => True
  | .running budget icount => budget = 0 ∨ icount.toNat < budget.toNat

theorem State.inv_iff (s : State) :
    s.Inv ↔ s.mem.wf = true ∧ (∀ c ∈ s.mem, c.1 < s.memSize) ∧ s.memSize < 2 ^ 32 ∧
      s.phase.BudgetLeft := by
  unfold State.Inv
  cases s.phase <;> exact Iff.rfl

/-- A run starts with its whole budget left (R321). -/
theorem Phase.budgetLeft_start (budget : Word) : (Phase.running budget 0).BudgetLeft := by
  by_cases h : budget = 0
  · exact .inl h
  · refine .inr (Nat.pos_of_ne_zero fun e => h (BitVec.eq_of_toNat_eq e))

/-- An instruction that counts ends the run rather than use up the budget inside it. -/
theorem Counted.budgetLeft {s t : State} (h : Counted s t) : t.phase.BudgetLeft := by
  unfold Counted at h
  split at h
  · rw [h.1]; trivial
  · split at h
    · rw [h.1]; trivial
    · rename_i budget icount _ hb
      rw [h.1]
      by_cases h0 : budget = 0
      · exact .inl h0
      · exact .inr (Nat.lt_of_not_le fun hle => hb ⟨h0, hle⟩)

/-- Where a body worked from a state with the invariant, only the budget clause is left to show of a
state with the memory and the sizes it left. -/
theorem Worked.inv {s w t : State} (hw : Worked s w) (hs : s.Inv) (hm : t.mem = w.mem)
    (hsize : t.memSize = w.memSize) (hp : t.phase.BudgetLeft) : t.Inv := by
  obtain ⟨hwf, hbelow, hlt, _⟩ := hs
  rw [State.inv_iff, hm, hsize, hw.memSize]
  exact ⟨hw.wf hwf, hw.below hbelow, hlt, hp⟩

/-- However an instruction ends, it keeps the invariant. -/
theorem Ends.inv {s t : State} (h : Ends s (.next t)) (hs : s.Inv) : t.Inv := by
  cases h with
  | completes w hw =>
    exact hw.inv hs w.advance_mem w.advance_memSize (counted_advance hw.phase hw.replies).budgetLeft
  | faults e _ => exact (Worked.refl s).inv hs rfl rfl trivial
  | stops t' hw _ => exact hw.inv hs rfl rfl trivial

/-- A call the host makes keeps the invariant. -/
theorem State.hostCall_inv {s : State} (c : HostCall) (hs : s.Inv) :
    (s.hostCall c).Inv := by
  obtain ⟨hwf, hbelow, hlt, hleft⟩ := s.inv_iff.mp hs
  rw [State.inv_iff]
  cases c with
  | run budget => exact ⟨hwf, hbelow, hlt, Phase.budgetLeft_start budget⟩
  | reset => exact ⟨hwf, hbelow, hlt, hleft⟩
  | onInterrupt h => exact ⟨hwf, hbelow, hlt, hleft⟩
  | access a =>
    have hframe := s.access_frame a
    have hsize : (s.access a).1.memSize = s.memSize := by rw [hframe]; rfl
    have hphase : (s.access a).1.phase = s.phase := by rw [hframe]
    refine ⟨s.access_wf a hwf, ?_, ?_, ?_⟩
    · exact fun c hc => hsize ▸ s.access_below a hbelow c hc
    · exact hsize ▸ hlt
    · exact hphase ▸ hleft

/-- Settles O11, from what a step can do: inside a run by how an instruction ends, on the idle unit
by the host's call. -/
theorem stepKeepsTheInvariant : Obligations.StepKeepsTheInvariant := by
  intro s t hs h
  rcases step_cases h with ⟨_, hends⟩ | ⟨_, rfl | ⟨c, rest, rfl⟩⟩
  · exact hends.inv hs
  · exact hs
  · exact State.hostCall_inv c hs

/-! ### The parameters and the hook slot -/

/-- However an instruction ends, the parameters and the hook slot are as before (R4, R10, R18). -/
theorem Ends.sameInstance {s t : State} (h : Ends s (.next t)) : SameInstance s t := by
  cases h with
  | completes w hw =>
    obtain ⟨hook, progLen, stackCap, kinds, format, parse, inbox⟩ := hw.same
    exact ⟨w.advance_hook.trans hook, w.advance_progLen.trans progLen,
      w.advance_stackCap.trans stackCap, w.advance_hostKinds.trans kinds,
      w.advance_i2sFormat.trans format, w.advance_s2iParse.trans parse,
      w.advance_inbox.trans inbox⟩
  | faults e _ => exact (Worked.refl s).same
  | stops t' hw _ => exact hw.same

/-- R321, R330, R345, R361: a host call changes no parameter and, of `SameInstance`, at most
the hook slot. -/
theorem State.hostCall_sameInstance (s : State) (c : HostCall) :
    SameInstance { s with hook := (s.hostCall c).hook } (s.hostCall c) := by
  cases c with
  | access a =>
    have hframe : s.hostCall (.access a) =
        State.reply { s with regs := (s.access a).1.regs, mem := (s.access a).1.mem }
          (s.access a).2 :=
      congrArg (State.reply · (s.access a).2) (s.access_frame a)
    rw [hframe]
    exact ⟨rfl, rfl, rfl, rfl, rfl, rfl, rfl⟩
  | run budget => exact ⟨rfl, rfl, rfl, rfl, rfl, rfl, rfl⟩
  | reset => exact ⟨rfl, rfl, rfl, rfl, rfl, rfl, rfl⟩
  | onInterrupt h => exact ⟨rfl, rfl, rfl, rfl, rfl, rfl, rfl⟩

/-- R330: no host call unregisters a hook. -/
theorem State.hostCall_hook_ne_none {s : State} (c : HostCall) (h : s.hook ≠ none) :
    (s.hostCall c).hook ≠ none := by
  cases c with
  | run budget => exact h
  | reset => exact h
  | onInterrupt handle => exact nofun
  | access a =>
    have hhook : (s.access a).1.hook = s.hook := by rw [s.access_frame a]
    exact hhook ▸ h

/-- Settles O14, from what a step can do: no instruction touches the parameters or the hook slot, and
of the host's calls only `onInterrupt` does, which fills the slot. -/
theorem stepsKeepTheInstance : Obligations.StepsKeepTheInstance := by
  intro s t h
  rcases step_cases h with ⟨_, hends⟩ | ⟨hp, rfl | ⟨c, rest, rfl⟩⟩
  · obtain ⟨hook, progLen, stackCap, kinds, format, parse, _⟩ := hends.sameInstance
    exact ⟨progLen, stackCap, kinds, format, parse, fun _ => hook, fun hne => hook ▸ hne⟩
  · exact ⟨rfl, rfl, rfl, rfl, rfl, fun _ => rfl, id⟩
  · obtain ⟨_, progLen, stackCap, kinds, format, parse, _⟩ :=
      State.hostCall_sameInstance { s with inbox := rest } c
    exact ⟨progLen, stackCap, kinds, format, parse, fun hne => absurd hp hne,
      fun hne => State.hostCall_hook_ne_none c hne⟩

end Sys2Proof.Machine
end

section
/-! PROOFS. The state after construction (O24). -/

namespace Sys2Proof.Machine

/-- R22, R360: the register file after construction and after a warm reset. -/
theorem getElem_set_sp_replicate (v : Word) (r : Reg) :
    ((Vector.replicate numRegs (0 : Word)).set Reg.sp v)[r] = if r = .sp then v else 0 := by
  rw [Fin.getElem_fin, Vector.getElem_set]
  by_cases h : r = .sp
  · rw [if_pos (congrArg Fin.val h.symm), if_pos h]
  · rw [if_neg fun e => h (Fin.ext e.symm), if_neg h, Vector.getElem_replicate]

/-- Bytes written from address 0 on into a memory that lists nothing: each reads as it stands in the
list, and 0x00 is read beyond them (R360). -/
theorem Memory.read_writeBytes_nil (bs : List Byte) (a : Nat) :
    (Memory.writeBytes [] 0 bs).read a = bs.getD a 0 := by
  rw [Memory.read_writeBytes]
  by_cases h : a < bs.length
  · rw [if_pos ⟨a.zero_le, by omega⟩, Nat.sub_zero]
  · rw [if_neg (by omega), Memory.read_nil, List.getD_eq_default _ _ (by omega)]
    rfl

/-- A program image that fits below a bound lists nothing beyond it. -/
theorem Memory.writeBytes_nil_below (bs : List Byte) {n : Nat} (h : bs.length ≤ n) :
    ∀ c ∈ Memory.writeBytes [] 0 bs, c.1 < n :=
  Memory.writeBytes_below bs [] 0 n nofun (by omega)

/-- Settles O24: `State.construct`, field by field where the sizes meet R5, and where they do not. -/
theorem constructionState : Obligations.ConstructionState := by
  intro program stackCap kinds format parse
  refine ⟨fun hbig => if_neg (Nat.not_lt.mpr hbig), fun hfits => ⟨_, if_pos hfits, ?_⟩⟩
  refine ⟨fun r => getElem_set_sp_replicate _ r, fun a => Memory.read_writeBytes_nil program a,
    rfl, rfl, rfl, rfl, rfl, rfl, rfl, ?_⟩
  exact ⟨Memory.writeBytes_wf program 0 rfl,
    Memory.writeBytes_nil_below program (Nat.le_add_right _ _), hfits, trivial⟩

end Sys2Proof.Machine
end

section
/-! PROOFS. Decimal strings, the default conversions, and `I2S` and `S2I` (O57, O58). -/

namespace Sys2Proof.Machine

/-! ### Decimal strings (R290) -/

theorem decimalValue_concat (bs : List Byte) (b : Byte) :
    decimalValue (bs ++ [b]) = decimalValue bs * 10 + (b.toNat - 0x30) := by
  simp [decimalValue]

theorem AsciiDigit.eq_ofNat {b : Byte} (h : AsciiDigit b) :
    b = BitVec.ofNat 8 (0x30 + (b.toNat - 0x30)) := by
  rw [Nat.add_sub_cancel' h.1, BitVec.ofNat_toNat, BitVec.setWidth_eq]

theorem not_asciiDigit_zero : ¬ AsciiDigit 0 := fun h => absurd h.1 (by decide)

/-- Digits with no leading zero spell no zero. -/
theorem decimalValue_pos {bs : List Byte} (hne : bs ≠ []) (hd : ∀ b ∈ bs, AsciiDigit b)
    (h0 : bs.head? ≠ some 0x30) : 0 < decimalValue bs := by
  induction bs using List.reverseRecOn with
  | nil => exact absurd rfl hne
  | append_singleton xs x ih =>
    rw [decimalValue_concat]
    by_cases hx : xs = []
    · subst hx
      have hge : 0x30 ≤ x.toNat := (hd x (by simp)).1
      have hx0 : x.toNat ≠ 0x30 := fun e => h0 (by
        rw [List.nil_append, List.head?_cons, BitVec.eq_of_toNat_eq (y := (0x30 : Byte)) e])
      omega
    · rw [List.head?_append_of_ne_nil _ hx] at h0
      have := ih hx (fun b hb => hd b (by simp [hb])) h0
      omega

/-- R290: the shortest decimal representation is unique, and `decimalDigits` gives it. -/
theorem IsDecimal.eq_decimalDigits {bs : List Byte} {n fuel : Nat} (h : IsDecimal bs n)
    (hn : n < 10 ^ fuel) (hfuel : 0 < fuel) : bs = decimalDigits fuel n := by
  induction fuel generalizing bs n with
  | zero => omega
  | succ fuel ih =>
    obtain ⟨hne, hd, hv, hlead⟩ := h
    obtain ⟨xs, x, rfl⟩ := (List.eq_nil_or_concat' bs).resolve_left hne
    have hx : AsciiDigit x := hd x (by simp)
    have hlast := hx.eq_ofNat
    obtain ⟨hge, hle⟩ := hx
    rw [decimalValue_concat] at hv
    rw [decimalDigits]
    by_cases hxs : xs = []
    · subst hxs
      have hone : x.toNat - 0x30 = n := by simpa [decimalValue] using hv
      rw [if_pos (by omega), ← hone, ← hlast, List.nil_append]
    · have hlen : 1 < (xs ++ [x]).length := by
        have := List.length_pos_of_ne_nil hxs
        simp; omega
      have hlead' := hlead hlen
      rw [List.head?_append_of_ne_nil _ hxs] at hlead'
      have hxd : ∀ b ∈ xs, AsciiDigit b := fun b hb => hd b (by simp [hb])
      have hpos := decimalValue_pos hxs hxd hlead'
      have hinit : IsDecimal xs (n / 10) := ⟨hxs, hxd, by omega, fun _ => hlead'⟩
      have hfuel' : 0 < fuel := Nat.pos_of_ne_zero (by rintro rfl; omega)
      have hmod : x.toNat - 0x30 = n % 10 := by omega
      rw [if_neg (by omega), ← ih hinit (by rw [Nat.pow_succ] at hn; omega) hfuel', ← hmod, ← hlast]

/-- Every 32-bit value has at most ten decimal digits. -/
theorem toNat_lt_ten_pow (v : Word) : v.toNat < 10 ^ 10 := lt_trans v.isLt (by decide)

/-- R290: what the default `I2S_FORMAT` gives: the decimal representation, of at most ten digits. -/
theorem isDecimal_decimalDigits (v : Word) :
    IsDecimal (decimalDigits 10 v.toNat) v.toNat ∧ (decimalDigits 10 v.toNat).length ≤ 10 := by
  obtain ⟨hdec, hlen, _⟩ := decimalDigits_spec 10 v.toNat (toNat_lt_ten_pow v) (by decide)
  exact ⟨hdec, hlen⟩

/-! ### The default conversions -/

theorem State.formatInt_default {s : State} (h : s.i2sFormat = .default) (v : Word) :
    s.formatInt v = decimalDigits 10 v.toNat := by
  rw [State.formatInt, h]

theorem State.scanInt_default {s : State} (h : s.s2iParse = .default) (p : Word) :
    s.scanInt p = s.mem.scanDigits p.toNat 0 (s.memSize - p.toNat) := by
  rw [State.scanInt, h]

/-- R290: a string that is decimal for a register value is what the default format gives for it. -/
theorem State.formatInt_of_isDecimal {s : State} (h : s.i2sFormat = .default) {str : List Byte}
    {v : Word} (hd : IsDecimal str v.toNat) : s.formatInt v = str := by
  rw [s.formatInt_default h, ← hd.eq_decimalDigits (toNat_lt_ten_pow v) (by decide)]

/-- R291: digits that end below `MEM_SIZE` parse to the number they spell. -/
theorem State.scanInt_of_digits {s : State} (h : s.s2iParse = .default) {p : Word}
    {str : List Byte} (hd : ∀ b ∈ str, AsciiDigit b) (hat : BytesAt s.mem p.toNat str)
    (hlt : p.toNat + str.length < s.memSize)
    (hend : ¬ AsciiDigit (s.mem.read (p.toNat + str.length))) :
    s.scanInt p = some (BitVec.ofNat 32 (decimalValue str)) := by
  rw [s.scanInt_default h, Memory.scanDigits_of_bytesAt _ _ _ 0 str hd hat (by omega) hend]
  rfl

/-- R291: digits that run into the end of memory parse to no value. -/
theorem State.scanInt_of_overrun {s : State} (h : s.s2iParse = .default) {p : Word}
    (hd : ∀ x, p.toNat ≤ x → x < s.memSize → AsciiDigit (s.mem.read x)) : s.scanInt p = none := by
  rw [s.scanInt_default h]
  exact Memory.scanDigits_none _ _ _ _ fun x h1 h2 => hd x h1 (by omega)

/-! ### Bytes in memory -/

theorem bytesAt_writeBytes (m : Memory) (a : Nat) (bs : List Byte) :
    BytesAt (m.writeBytes a bs) a bs := by
  intro k hk
  rw [Memory.read_writeBytes, if_pos (by omega), Nat.add_sub_cancel_left,
    List.getD_eq_getElem _ _ hk]

theorem bytesAt_append {m : Memory} {a : Nat} {bs cs : List Byte} :
    BytesAt m a (bs ++ cs) ↔ BytesAt m a bs ∧ BytesAt m (a + bs.length) cs := by
  constructor
  · intro h
    refine ⟨fun k hk => ?_, fun k hk => ?_⟩
    · rw [h k (by simp; omega), List.getElem_append_left hk]
    · rw [Nat.add_assoc, h (bs.length + k) (by simp; omega),
        List.getElem_append_right (Nat.le_add_right _ _)]
      simp
  · rintro ⟨hb, hc⟩ k hk
    by_cases hlt : k < bs.length
    · rw [hb k hlt, List.getElem_append_left hlt]
    · rw [List.getElem_append_right (by omega), ← hc, Nat.add_assoc,
        Nat.add_sub_cancel' (by omega)]

/-- A byte outside the bytes written reads as before. -/
theorem Memory.read_writeBytes_outside (m : Memory) (a x : Nat) (bs : List Byte)
    (h : x < a ∨ a + bs.length ≤ x) : (m.writeBytes a bs).read x = m.read x := by
  rw [Memory.read_writeBytes, if_neg (by omega)]

/-! ### `I2S` and `S2I` -/

theorem encode_i2s (addr : Half) (r : RegByte) :
    encode (.i2s addr r) = [0x4E, addr.extractLsb' 0 8, addr.extractLsb' 8 8, r] := by
  simp [encode, bytes16_eq]

theorem encode_s2i (addr : Half) (r : RegByte) :
    encode (.s2i addr r) = [0x4F, addr.extractLsb' 0 8, addr.extractLsb' 8 8, r] := by
  simp [encode, bytes16_eq]

/-- The state after an `I2S` whose string and zero byte fit (R282). -/
def afterI2s (s : State) (addr : Half) (str : List Byte) : State :=
  State.advance { s.enter .FHR with mem := s.mem.writeBytes addr.toNat (str ++ [0]) }

@[simp] theorem afterI2s_mem (s : State) (addr : Half) (str : List Byte) :
    (afterI2s s addr str).mem = s.mem.writeBytes addr.toNat (str ++ [0]) := State.advance_mem _
@[simp] theorem afterI2s_s2iParse (s : State) (addr : Half) (str : List Byte) :
    (afterI2s s addr str).s2iParse = s.s2iParse := State.advance_s2iParse _
@[simp] theorem afterI2s_memSize (s : State) (addr : Half) (str : List Byte) :
    (afterI2s s addr str).memSize = s.memSize := State.advance_memSize _

/-- R282: `I2S` writes the string of `I2S_FORMAT`, where it and a zero byte fit. -/
theorem exec_i2s_of_fits {s : State} {addr : Half} {r : Reg} {str : List Byte}
    (hstr : s.formatInt (operand s 4 r) = str) (hfits : addr.toNat + str.length + 1 ≤ s.memSize) :
    exec (.i2s addr (regByte r)) s = .next (afterI2s s addr str) := by
  subst hstr
  rw [← reg_enter_operand s .FHR (L := 4) rfl] at hfits ⊢
  exact execI2s_next r hfits

/-- R282: `I2S` faults where they do not fit. -/
theorem exec_i2s_of_overrun {s : State} {addr : Half} {r : Reg} {str : List Byte}
    (hstr : s.formatInt (operand s 4 r) = str) (hover : s.memSize < addr.toNat + str.length + 1) :
    exec (.i2s addr (regByte r)) s = .next (s.endRun .invalidAddress) := by
  subst hstr
  rw [← reg_enter_operand s .FHR (L := 4) rfl] at hover
  exact execI2s_raise r hover

/-- R282: what `I2S` leaves beside the string: every other byte and all but `IP`. -/
theorem afterI2s_effect (s : State) (addr : Half) (str : List Byte) :
    BytesAt (afterI2s s addr str).mem addr.toNat (str ++ [0]) ∧
      (∀ x, x < addr.toNat ∨ addr.toNat + str.length + 1 ≤ x →
        (afterI2s s addr str).mem.read x = s.mem.read x) ∧
      RegsAfter s 4 (afterI2s s addr str) ∧ SameInstance s (afterI2s s addr str) ∧
      NoTransaction s (afterI2s s addr str) ∧ Counted s (afterI2s s addr str) := by
  rw [afterI2s_mem]
  exact ⟨bytesAt_writeBytes _ _ _,
    fun x hx => Memory.read_writeBytes_outside _ _ _ _ (by simpa [Nat.add_assoc] using hx),
    regsAfter_advance s .FHR rfl _⟩

/-- R283: `S2I` writes the value of `S2I_PARSE`. -/
theorem completes_s2i {s : State} {addr : Half} {r : Reg} {v : Word}
    (h : s.scanInt (zext16 addr) = some v) :
    Completes (.s2i addr (regByte r)) s (Writes s 4 r v) :=
  ⟨_, execS2i_next r h, writes_advance s .FHR rfl r v⟩

/-- R283: `S2I` faults where its parse gives no value. -/
theorem faults_s2i {s : State} {addr : Half} {r : Reg} (h : s.scanInt (zext16 addr) = none) :
    Faults (.s2i addr (regByte r)) s .invalidAddress := faults_of (execS2i_raise r h)

/-- Settles O57: `I2S` and `S2I` through the conversions the state has, and what the default ones
give. -/
theorem stringConversions : Obligations.StringConversions := by
  intro s addr r str
  rw [← zext16_eq]
  refine ⟨encode_i2s _ _, fun hstr => ?_, encode_s2i _ _, fun v => completes_s2i, faults_s2i,
    fun hdefault => ⟨fun hd hat hlt hend => completes_s2i ?_, fun hd => faults_s2i ?_⟩⟩
  · have hformat : s.formatInt (operand s 4 r) = str := by
      rcases hstr with rfl | ⟨hdefault, hdec⟩
      · rfl
      · exact s.formatInt_of_isDecimal hdefault hdec
    split
    case isTrue hfits => exact ⟨_, exec_i2s_of_fits hformat hfits, afterI2s_effect s addr str⟩
    case isFalse hover => exact faults_of (exec_i2s_of_overrun hformat (Nat.lt_of_not_le hover))
  · rw [← zext16_toNat] at hat hlt hend
    exact s.scanInt_of_digits hdefault hd hat hlt hend
  · rw [← zext16_toNat] at hd
    exact s.scanInt_of_overrun hdefault hd

/-- R282, R283: the string that an `I2S` with the default format left parses to the value it was
made of. -/
theorem scanInt_afterI2s {s : State} {addr : Half} {v : Word} (hparse : s.s2iParse = .default)
    (hfits : addr.toNat + 11 ≤ s.memSize) :
    (afterI2s s addr (decimalDigits 10 v.toNat)).scanInt (zext16 addr) = some v := by
  obtain ⟨⟨_, hd, hv, _⟩, hlen⟩ := isDecimal_decimalDigits v
  obtain ⟨hstr, hzero⟩ := bytesAt_append.mp
    (afterI2s_effect s addr (decimalDigits 10 v.toNat)).1
  have hend := hzero 0 (by simp)
  rw [← zext16_toNat] at hstr hend hfits
  rw [State.scanInt_of_digits (by simpa using hparse) hd hstr (by rw [afterI2s_memSize]; omega)
    (by rw [← Nat.add_zero (_ + _), hend]; exact not_asciiDigit_zero), hv, BitVec.ofNat_toNat,
    BitVec.setWidth_eq]

/-- Settles O58: the digits that `I2S` left are followed by its zero byte, so `S2I` reads exactly
them. -/
theorem integerToStringAndBack : Obligations.IntegerToStringAndBack := by
  refine ⟨fun v => ⟨_, isDecimal_decimalDigits v⟩, fun s addr rs rd hformat hparse hfits => ?_⟩
  have hlen := (isDecimal_decimalDigits (operand s 4 rs)).2
  have hi2s := exec_i2s_of_fits (addr := addr) (s.formatInt_default hformat (operand s 4 rs))
    (by omega)
  obtain ⟨u, hs2i, hregs, _⟩ := completes_s2i (r := rd) (scanInt_afterI2s hparse hfits)
  refine ⟨_, u, hi2s, hs2i, ?_⟩
  rw [hregs rd]
  by_cases hrd : rd = .ip
  · rw [if_pos hrd, if_pos hrd, if_pos hrd]
  · rw [if_neg hrd, if_pos rfl, if_neg hrd]

end Sys2Proof.Machine
end

section
/-! PROOFS. The run a state is in, its budget, count and replies, is invisible to an instruction
(O15): from one state, an instruction ends in the same way in every run. -/

namespace Sys2Proof.Machine

/-! ### The ends of a counted instruction -/

/-- R321, R323: counting gives no reply but `Paused`. -/
theorem Counted.replies_cases {s t : State} (h : Counted s t) :
    t.replies = s.replies ∨ t.replies = .result .paused :: s.replies := by
  unfold Counted at h
  split at h
  · exact .inl h.2
  · split at h
    · exact .inr h.2
    · exact .inl h.2

/-- So an end with another result is no end of a counted instruction. -/
theorem Counted.replies_ne {s t : State} (h : Counted s t) {r : ExecResult} (hr : r ≠ .paused) :
    t.replies ≠ .result r :: s.replies := by
  intro hrep
  rcases h.replies_cases with e | e <;> rw [hrep] at e
  · exact List.cons_ne_self _ _ e
  · simp only [List.cons.injEq, HostReply.result.injEq, and_true] at e
    exact hr e

/-! ### States placed in a run -/

/-- What of a state tells the run it is in: the phase, and the replies so far. -/
abbrev RunView := Phase × List HostReply

/-- The state placed in a run. -/
def State.inRun (ρ : RunView) (s : State) : State := { s with phase := ρ.1, replies := ρ.2 }

@[simp] theorem State.inRun_replies (ρ : RunView) (s : State) : (s.inRun ρ).replies = ρ.2 := rfl

@[simp] theorem State.reg_inRun (ρ : RunView) (s : State) (r : Reg) :
    (s.inRun ρ).reg r = s.reg r := rfl
@[simp] theorem State.inRun_progLen (ρ : RunView) (s : State) :
    (s.inRun ρ).progLen = s.progLen := rfl
@[simp] theorem State.inRun_memSize (ρ : RunView) (s : State) :
    (s.inRun ρ).memSize = s.memSize := rfl

/-- A state stands in the run it tells of. -/
theorem State.inRun_self (s : State) : s.inRun (s.phase, s.replies) = s := rfl

/-- States that are alike but for the run are one state placed in two runs. -/
theorem SameButRun.eq_inRun {s t : State} (h : SameButRun s t) :
    t = s.inRun (t.phase, t.replies) := by
  obtain ⟨regs, mem, ⟨hook, progLen, stackCap, kinds, format, parse, inbox⟩, trace, script⟩ := h
  cases t
  simp only at regs mem hook progLen stackCap kinds format parse inbox trace script
  subst regs mem hook progLen stackCap kinds format parse inbox trace script
  rfl

theorem sameButRun_inRun (s : State) (ρ σ : RunView) : SameButRun (s.inRun ρ) (s.inRun σ) :=
  ⟨rfl, rfl, ⟨rfl, rfl, rfl, rfl, rfl, rfl, rfl⟩, rfl, rfl⟩

theorem SameButRun.endRun {s t : State} (h : SameButRun s t) (r : ExecResult) :
    SameButRun (s.endRun r) (t.endRun r) := h

theorem State.advance_regs (w : State) :
    w.advance.regs = w.regs.set Reg.ip (w.reg .ip + 1) := by
  rw [State.advance, State.count_regs]
  rfl

theorem SameButRun.advance {s t : State} (h : SameButRun s t) :
    SameButRun s.advance t.advance := by
  rw [h.eq_inRun]
  refine ⟨?_, ?_, ⟨?_, ?_, ?_, ?_, ?_, ?_, ?_⟩, ?_, ?_⟩
  · rw [State.advance_regs, State.advance_regs]
    rfl
  all_goals simp [State.inRun]

/-! ### Answers that do not see the run -/

/-- An answer given in every run is blind to the run: it is one answer, with what it carries placed
in the run by `place`. -/
def RunBlind {α : Type} (place : RunView → α → α) (b : RunView → Except ExecResult α) : Prop :=
  ∃ x : Except ExecResult α, ∀ ρ, b ρ = x.map (place ρ)

/-- An answer that no run has a part in, such as an operand or a loaded value. -/
theorem RunBlind.const {α : Type} (x : Except ExecResult α) : RunBlind (fun _ => id) fun _ => x :=
  ⟨x, fun _ => (congrFun Except.map_id x).symm⟩

theorem RunBlind.ok {α : Type} {place : RunView → α → α} (a : α) :
    RunBlind place fun ρ => .ok (place ρ a) := ⟨.ok a, fun _ => rfl⟩

theorem RunBlind.error {α : Type} {place : RunView → α → α} (e : ExecResult) :
    RunBlind place fun _ => .error e := ⟨.error e, fun _ => rfl⟩

theorem RunBlind.bind {α β : Type} {place : RunView → α → α} {place' : RunView → β → β}
    {b : RunView → Except ExecResult α} {k : RunView → α → Except ExecResult β}
    (hb : RunBlind place b) (hk : ∀ a, RunBlind place' fun ρ => k ρ (place ρ a)) :
    RunBlind place' fun ρ => b ρ >>= k ρ := by
  obtain ⟨x, hx⟩ := hb
  cases x with
  | ok a =>
    obtain ⟨y, hy⟩ := hk a
    exact ⟨y, fun ρ => (congrArg (· >>= k ρ) (hx ρ)).trans (hy ρ)⟩
  | error e => exact ⟨.error e, fun ρ => congrArg (· >>= k ρ) (hx ρ)⟩

/-- The form of `bind` for an answer that no run has a part in. -/
theorem RunBlind.bind_const {α β : Type} {place : RunView → β → β} (x : Except ExecResult α)
    {k : RunView → α → Except ExecResult β} (hk : ∀ a, RunBlind place fun ρ => k ρ a) :
    RunBlind place fun ρ => x >>= k ρ := (RunBlind.const x).bind hk

theorem RunBlind.ite {α : Type} {place : RunView → α → α} (c : Prop) [Decidable c]
    {a b : RunView → Except ExecResult α} (ha : RunBlind place a) (hb : RunBlind place b) :
    RunBlind place fun ρ => if c then a ρ else b ρ := by
  split
  · exact ha
  · exact hb

/-- A value beside a state, the state placed in the run. -/
def placeSnd {α : Type} (ρ : RunView) (p : α × State) : α × State := (p.1, p.2.inRun ρ)

/-! ### The operations -/

theorem memWrite_runBlind (w : State) (a : Word) (n : Nat) (v : Word) :
    RunBlind State.inRun fun ρ => (w.inRun ρ).memWrite a n v :=
  .ite (a.toNat + n > w.memSize) (.error _)
    (.ok { w with mem := w.mem.writeBytes a.toNat (leBytes n v.toNat) })

theorem blockCopy_runBlind (w : State) (d r n : Word) :
    RunBlind State.inRun fun ρ => (w.inRun ρ).blockCopy d r n :=
  .ite (r.toNat + n.toNat > w.memSize) (.error _) <|
    .ite (d.toNat + n.toNat > w.memSize) (.error _) <|
      .ok { w with mem := w.mem.copyForward d.toNat r.toNat n.toNat }

theorem pushWord_runBlind (w : State) (v : Word) :
    RunBlind State.inRun fun ρ => (w.inRun ρ).pushWord v :=
  .ite ((w.reg .sp).toNat ≤ w.progLen + 4) (.error _) <|
    .ite (w.memSize < (w.reg .sp).toNat) (.error _) <|
      (memWrite_runBlind w (w.reg .sp - 4) 4 v).bind fun t => .ok (t.setReg .sp (w.reg .sp - 4))

theorem popWord_runBlind (w : State) : RunBlind placeSnd fun ρ => (w.inRun ρ).popWord :=
  .bind_const w.topWord fun v => .ok (v, w.setReg .sp (w.reg .sp + 4))

theorem popTwo_runBlind (w : State) :
    RunBlind (fun ρ p => (p.1, placeSnd ρ p.2)) fun ρ => (w.inRun ρ).popTwo :=
  .ite (w.memSize ≤ (w.reg .sp).toNat ∨ (w.reg .sp).toNat < w.progLen) (.error _) <|
    .ite (w.memSize ≤ (w.reg .sp).toNat + 4) (.error _) <|
      .ite (w.memSize < (w.reg .sp).toNat + 8) (.error _) <|
        .bind_const (w.memRead (w.reg .sp) 4) fun v1 =>
          .bind_const (w.memRead (w.reg .sp + 4) 4) fun v2 =>
            .ok (v1, v2, w.setReg .sp (w.reg .sp + 8))

/-- The answer in one run, from the answer in another. -/
theorem RunBlind.eq_map {α : Type} {place : RunView → α → α} {b : RunView → Except ExecResult α}
    (h : RunBlind place b) (hplace : ∀ ρ σ a, place ρ (place σ a) = place ρ a) (ρ σ : RunView) :
    b ρ = (b σ).map (place ρ) := by
  obtain ⟨x, hx⟩ := h
  rw [hx, hx]
  cases x with
  | ok a => exact congrArg Except.ok (hplace ρ σ a).symm
  | error e => rfl

/-- A jump on a condition that no run has a part in. -/
theorem branch_runBlind (taken : Bool) (w : State) (target : Word) :
    RunBlind State.inRun fun ρ => .ok (if taken then (w.inRun ρ).jump target else w.inRun ρ) := by
  cases taken with
  | true => exact .ok (w.jump target)
  | false => exact .ok w

/-! ### The host -/

/-- R345: an accessor leaves the same registers and memory in every run. Only the reply of `count`
may tell the run. -/
theorem State.access_inRun (s : State) (a : Accessor) (ρ : RunView) :
    ((s.inRun ρ).access a).1 = (s.access a).1.inRun ρ := by
  unfold State.access
  cases a with
  | getRegister i | setRegister i v => dsimp only; split <;> rfl
  | readMemory offset | writeMemory offset b | count =>
    simp only [State.inRun_memSize, State.inRun_progLen, State.reg_inRun]
    split <;> rename_i h <;> simp only [h, and_self, ↓reduceIte] <;> rfl
  | push v =>
    have hpush : (s.inRun ρ).pushWord v = (s.pushWord v).map (State.inRun ρ) :=
      (pushWord_runBlind s v).eq_map (fun _ _ _ => rfl) ρ (s.phase, s.replies)
    dsimp only
    rw [hpush]
    cases s.pushWord v <;> rfl
  | pop =>
    have hpop : (s.inRun ρ).popWord = s.popWord.map (placeSnd ρ) :=
      (popWord_runBlind s).eq_map (fun _ _ _ => rfl) ρ (s.phase, s.replies)
    dsimp only
    rw [hpop]
    cases s.popWord <;> rfl

/-- R331: so does a whole callback. -/
theorem State.perform_inRun (acts : List Accessor) (s : State) (ρ : RunView) :
    (s.inRun ρ).perform acts = (s.perform acts).inRun ρ := by
  induction acts generalizing s with
  | nil => rfl
  | cons a acts ih =>
    simp only [State.perform]
    split
    · rw [State.access_inRun, ih]
    · exact ih s

/-- R270: what the host answers depends on the ports, the registers and the memory only (log
entry 5). -/
theorem State.transact_inRun (s : State) (x : Transaction) (ρ : RunView) :
    (s.inRun ρ).transact x = placeSnd ρ (s.transact x) :=
  Prod.ext rfl (State.perform_inRun (s.callback x).acts
    { s with script := s.script.tail, trace := x :: s.trace } ρ)

theorem requestAt_runBlind (f : Format) (s : State) (q : Request) :
    RunBlind placeSnd fun ρ => requestAt f (s.inRun ρ) q := by
  rcases request_cases s q with ⟨h, _⟩ | ⟨h, _⟩
  · refine ⟨.ok (s.callback (.request q), (s.transact (.request q)).2.enter f), fun ρ => ?_⟩
    refine (requestAt_ok f (s := s.inRun ρ) h).trans ?_
    rw [State.transact_inRun]
    rfl
  · exact ⟨.error .unsupportedOpcode, fun ρ => requestAt_error f h⟩

/-! ### Instructions -/

/-- How an instruction ends, before the run has its say: it completes from a working state, or it
ends the run with a result. -/
inductive Ending where
  | completes (w : State)
  | stops (w : State) (r : ExecResult)

/-- What an ending is in a run. -/
def Ending.inRun (ρ : RunView) : Ending → Result
  | .completes w => .next (w.inRun ρ).advance
  | .stops w r => .next ((w.inRun ρ).endRun r)

/-- A result is the same ending in every run. -/
def EndsBlind (b : RunView → Result) : Prop := ∃ o : Ending, ∀ ρ, b ρ = o.inRun ρ

/-- An instruction whose body is blind to the run ends blind to it. -/
theorem attempt_blind {f : Format} {s : State} {body : RunView → State → Except ExecResult State}
    (h : RunBlind State.inRun fun ρ => body ρ ((s.enter f).inRun ρ)) :
    EndsBlind fun ρ => attempt f (s.inRun ρ) (body ρ) := by
  obtain ⟨x, hx⟩ := h
  cases x with
  | ok w => exact ⟨.completes w, fun ρ => attempt_ok (hx ρ)⟩
  | error e => exact ⟨.stops s e, fun ρ => attempt_error (hx ρ)⟩

section
variable (s : State)

theorem literalForm_blind (f : Format) (v : Word) (rd : RegByte) :
    EndsBlind fun ρ => literalForm f v rd (s.inRun ρ) :=
  attempt_blind (.bind_const (regOperand rd) fun d => .ok ((s.enter f).setReg d v))

theorem inPlaceForm_blind (op : Word → Word) (rd : RegByte) :
    EndsBlind fun ρ => inPlaceForm op rd (s.inRun ρ) :=
  attempt_blind (.bind_const (regOperand rd) fun d =>
    .ok ((s.enter .FR).setReg d (op ((s.enter .FR).reg d))))

theorem moveForm_blind (op : Word → Word) (rd rs : RegByte) :
    EndsBlind fun ρ => moveForm op rd rs (s.inRun ρ) :=
  attempt_blind (.bind_const (regOperand rd) fun d => .bind_const (regOperand rs) fun r =>
    .ok ((s.enter .FRR).setReg d (op ((s.enter .FRR).reg r))))

theorem accumulateForm_blind (op : Word → Word → Except ExecResult Word) (rd rs : RegByte) :
    EndsBlind fun ρ => accumulateForm op rd rs (s.inRun ρ) :=
  attempt_blind (.bind_const (regOperand rd) fun d => .bind_const (regOperand rs) fun r =>
    .bind_const (op ((s.enter .FRR).reg d) ((s.enter .FRR).reg r)) fun v =>
      .ok ((s.enter .FRR).setReg d v))

theorem threeForm_blind (op : Word → Word → Word) (rd ra rb : RegByte) :
    EndsBlind fun ρ => threeForm op rd ra rb (s.inRun ρ) :=
  attempt_blind (.bind_const (regOperand rd) fun d => .bind_const (regOperand ra) fun a =>
    .bind_const (regOperand rb) fun b =>
      .ok ((s.enter .FRRR).setReg d (op ((s.enter .FRRR).reg a) ((s.enter .FRRR).reg b))))

theorem loadAbsForm_blind (n : Nat) (rd : RegByte) (addr : Half) :
    EndsBlind fun ρ => loadAbsForm n rd addr (s.inRun ρ) :=
  attempt_blind (.bind_const (regOperand rd) fun d =>
    .bind_const ((s.enter .FRH).memRead (zext16 addr) n) fun v =>
      .ok ((s.enter .FRH).setReg d v))

theorem loadIndForm_blind (n : Nat) (rd rp : RegByte) :
    EndsBlind fun ρ => loadIndForm n rd rp (s.inRun ρ) :=
  attempt_blind (.bind_const (regOperand rd) fun d => .bind_const (regOperand rp) fun p =>
    .bind_const ((s.enter .FRR).memRead ((s.enter .FRR).reg p) n) fun v =>
      .ok ((s.enter .FRR).setReg d v))

theorem storeAbsForm_blind (n : Nat) (rs : RegByte) (addr : Half) :
    EndsBlind fun ρ => storeAbsForm n rs addr (s.inRun ρ) :=
  attempt_blind (.bind_const (regOperand rs) fun r =>
    memWrite_runBlind (s.enter .FRH) (zext16 addr) n ((s.enter .FRH).reg r))

theorem storeIndForm_blind (n : Nat) (rs rp : RegByte) :
    EndsBlind fun ρ => storeIndForm n rs rp (s.inRun ρ) :=
  attempt_blind (.bind_const (regOperand rs) fun r => .bind_const (regOperand rp) fun p =>
    memWrite_runBlind (s.enter .FRR) ((s.enter .FRR).reg p) n ((s.enter .FRR).reg r))

theorem jumpOneForm_blind (taken : Word → Bool) (addr : Half) (ra : RegByte) :
    EndsBlind fun ρ => jumpOneForm taken addr ra (s.inRun ρ) :=
  attempt_blind (.bind_const (regOperand ra) fun a =>
    branch_runBlind (taken ((s.enter .FHR).reg a)) (s.enter .FHR) (zext16 addr))

theorem jumpTwoForm_blind (c : Cond) (addr : Half) (ra rb : RegByte) :
    EndsBlind fun ρ => jumpTwoForm c addr ra rb (s.inRun ρ) :=
  attempt_blind (.bind_const (regOperand ra) fun a => .bind_const (regOperand rb) fun b =>
    branch_runBlind (condHolds c ((s.enter .FHRR).reg a) ((s.enter .FHRR).reg b)) (s.enter .FHRR)
      (zext16 addr))

theorem outputForm_blind (q : Word → Bool → Request) (rs : RegByte) (nl : Byte) :
    EndsBlind fun ρ => outputForm q rs nl (s.inRun ρ) :=
  attempt_blind (.bind_const (regOperand rs) fun r =>
    (requestAt_runBlind .FRB s (q ((s.enter .FRB).reg r) (newline nl))).bind fun p => .ok p.2)

theorem inputForm_blind (q : Request) (value : Callback → Word) (rd : RegByte) :
    EndsBlind fun ρ => inputForm q value rd (s.inRun ρ) :=
  attempt_blind (.bind_const (regOperand rd) fun d =>
    (requestAt_runBlind .FR s q).bind fun p => .ok (p.2.setReg d (value p.1)))

theorem pinReadForm_blind (q : Word → Request) (rd rpin : RegByte) :
    EndsBlind fun ρ => pinReadForm q rd rpin (s.inRun ρ) :=
  attempt_blind (.bind_const (regOperand rd) fun d => .bind_const (regOperand rpin) fun p =>
    (requestAt_runBlind .FRR s (q ((s.enter .FRR).reg p))).bind fun p =>
      .ok (p.2.setReg d p.1.value))

theorem pinWriteForm_blind (q : Word → Word → Request) (rpin rval : RegByte) :
    EndsBlind fun ρ => pinWriteForm q rpin rval (s.inRun ρ) :=
  attempt_blind (.bind_const (regOperand rpin) fun p => .bind_const (regOperand rval) fun v =>
    (requestAt_runBlind .FRR s (q ((s.enter .FRR).reg p) ((s.enter .FRR).reg v))).bind fun p =>
      .ok p.2)

theorem execInt_blind (code : Byte) : EndsBlind fun ρ => execInt code (s.inRun ρ) := by
  cases hh : s.hook with
  | none => exact ⟨.stops s .unhandledInterrupt, fun ρ => execInt_empty code hh⟩
  | some h =>
    have hafter (ρ : RunView) : afterCallback (s.inRun ρ) (.interrupt h code) =
        (afterCallback s (.interrupt h code)).inRun ρ :=
      congrArg Prod.snd (s.transact_inRun (.interrupt h code) ρ)
    cases hc : (s.callback (.interrupt h code)).continues with
    | true =>
      refine ⟨.completes ((afterCallback s (.interrupt h code)).enter .FB), fun ρ => ?_⟩
      refine (execInt_continues code (s := s.inRun ρ) hh hc).trans ?_
      rw [hafter]
      rfl
    | false =>
      refine ⟨.stops (afterCallback s (.interrupt h code)) .finished, fun ρ => ?_⟩
      refine (execInt_stops code (s := s.inRun ρ) hh hc).trans ?_
      rw [hafter]
      rfl

theorem execPush_blind (rs : RegByte) : EndsBlind fun ρ => execPush rs (s.inRun ρ) :=
  attempt_blind (.bind_const (regOperand rs) fun r =>
    pushWord_runBlind (s.enter .FR) ((s.enter .FR).reg r))

theorem execPop_blind (rd : RegByte) : EndsBlind fun ρ => execPop rd (s.inRun ρ) :=
  attempt_blind (.bind_const (regOperand rd) fun d =>
    (popWord_runBlind (s.enter .FR)).bind fun p => .ok (p.2.setReg d p.1))

theorem execPop2_blind (rd1 rd2 : RegByte) : EndsBlind fun ρ => execPop2 rd1 rd2 (s.inRun ρ) :=
  attempt_blind (.bind_const (regOperand rd1) fun d1 => .bind_const (regOperand rd2) fun d2 =>
    (popTwo_runBlind (s.enter .FRR)).bind fun p =>
      .ok ((p.2.2.setReg d1 p.1).setReg d2 p.2.1))

theorem execDup_blind : EndsBlind fun ρ => execDup (s.inRun ρ) :=
  attempt_blind (.bind_const (s.enter .F0).topWord fun v => pushWord_runBlind (s.enter .F0) v)

theorem execCall_blind (addr : Half) : EndsBlind fun ρ => execCall addr (s.inRun ρ) :=
  ⟨.completes (((s.enter .FH).setReg .ra (s.reg .ip + 3)).jump (zext16 addr)),
    fun ρ => execCall_next (s.inRun ρ) addr⟩

theorem execRet_blind : EndsBlind fun ρ => execRet (s.inRun ρ) :=
  ⟨.completes ((s.enter .F0).jump (s.reg .ra)), fun ρ => execRet_next (s.inRun ρ)⟩

theorem execMemcpy_blind (dst src len : Half) :
    EndsBlind fun ρ => execMemcpy dst src len (s.inRun ρ) :=
  attempt_blind (blockCopy_runBlind (s.enter .FHHH) (zext16 dst) (zext16 src) (zext16 len))

theorem execMemcpyP_blind (rdst rsrc rlen : RegByte) :
    EndsBlind fun ρ => execMemcpyP rdst rsrc rlen (s.inRun ρ) :=
  attempt_blind (.bind_const (regOperand rdst) fun d => .bind_const (regOperand rsrc) fun r =>
    .bind_const (regOperand rlen) fun n => blockCopy_runBlind (s.enter .FRRR)
      ((s.enter .FRRR).reg d) ((s.enter .FRRR).reg r) ((s.enter .FRRR).reg n))

theorem execJmp_blind (addr : Half) : EndsBlind fun ρ => execJmp addr (s.inRun ρ) :=
  ⟨.completes ((s.enter .FH).jump (zext16 addr)), fun ρ => execJmp_next (s.inRun ρ) addr⟩

theorem execJr_blind (rs : RegByte) : EndsBlind fun ρ => execJr rs (s.inRun ρ) :=
  attempt_blind (.bind_const (regOperand rs) fun r =>
    .ok ((s.enter .FR).jump ((s.enter .FR).reg r)))

theorem execPrints_blind (addr : Half) (nl : Byte) :
    EndsBlind fun ρ => execPrints addr nl (s.inRun ρ) :=
  attempt_blind (.bind_const ((s.enter .FHB).readString (zext16 addr)) fun str =>
    (requestAt_runBlind .FHB s (.outStr str (newline nl))).bind fun p => .ok p.2)

theorem execReads_blind (addr len : Half) : EndsBlind fun ρ => execReads addr len (s.inRun ρ) :=
  attempt_blind <|
    .ite ((zext16 addr).toNat + (zext16 len).toNat > (s.enter .FHH).memSize) (.error _) <|
      .ite (len = 0) (.ok (s.enter .FHH)) <|
        (requestAt_runBlind .FHH s (.inLine (len.toNat - 1))).bind fun p => .ok { p.2 with
          mem := p.2.mem.writeBytes addr.toNat (lineAnswer p.1 (len.toNat - 1) ++ [0]) }

theorem execI2s_blind (addr : Half) (rs : RegByte) :
    EndsBlind fun ρ => execI2s addr rs (s.inRun ρ) :=
  attempt_blind (.bind_const (regOperand rs) fun r =>
    .ite (addr.toNat + ((s.enter .FHR).formatInt ((s.enter .FHR).reg r)).length + 1 >
        (s.enter .FHR).memSize) (.error _) <|
      .ok { s.enter .FHR with
        mem := s.mem.writeBytes addr.toNat
          ((s.enter .FHR).formatInt ((s.enter .FHR).reg r) ++ [0]) })

theorem execS2i_blind (addr : Half) (rd : RegByte) :
    EndsBlind fun ρ => execS2i addr rd (s.inRun ρ) :=
  attempt_blind (.bind_const (regOperand rd) fun d =>
    .bind_const ((s.enter .FHR).parseInt (zext16 addr)) fun v => .ok ((s.enter .FHR).setReg d v))

end

/-- R322: how an instruction ends does not tell the run it ran in. -/
theorem exec_blind (i : Instr) (s : State) : EndsBlind fun ρ => exec i (s.inRun ρ) := by
  cases i with
  | nop => exact attempt_blind (.ok (s.enter .F0))
  | halt => exact ⟨.stops s .finished, fun _ => rfl⟩
  | int => exact execInt_blind s _
  | lcons | lconsw | lconsb => exact literalForm_blind s _ _ _
  | mov | i2f | f2i => exact moveForm_blind s _ _ _
  | push => exact execPush_blind s _
  | pop => exact execPop_blind s _
  | pop2 => exact execPop2_blind s _ _
  | dup => exact execDup_blind s
  | call => exact execCall_blind s _
  | ret => exact execRet_blind s
  | stor | storw | storb => exact storeAbsForm_blind s _ _ _
  | storP | storwP | storbP => exact storeIndForm_blind s _ _ _
  | load | loadw | loadb => exact loadAbsForm_blind s _ _ _
  | loadP | loadwP | loadbP => exact loadIndForm_blind s _ _ _
  | memcpy => exact execMemcpy_blind s _ _ _
  | memcpyP => exact execMemcpyP_blind s _ _ _
  | inc | dec | finc | fdec | not | u2i | i2u =>
    simp only [exec, execInc, execDec, execFinc, execFdec, execNot, execU2i, execI2u]
    exact inPlaceForm_blind s _ _
  | add | mul | and | or | xor | imul | fadd | fmul => exact threeForm_blind s _ _ _ _
  | div | mod | idiv | imod => exact accumulateForm_blind s _ _ _
  | sub | shl | shr | ishr | fsub | fdiv =>
    simp only [exec, execSub, execShl, execShr, execIshr, execFsub, execFdiv]
    exact accumulateForm_blind s _ _ _
  | jmp => exact execJmp_blind s _
  | jr => exact execJr_blind s _
  | jz | jnz =>
    simp only [exec, execJz, execJnz]
    exact jumpOneForm_blind s _ _ _
  | je | jne | ja | jg | jae | jge | jb | jl | jbe | jle => exact jumpTwoForm_blind s _ _ _ _
  | print | printi | printf => exact outputForm_blind s _ _ _
  | printc => exact outputForm_blind s (fun v => .outChar (v.setWidth 8)) _ _
  | prints => exact execPrints_blind s _ _
  | read | readi | readf => exact inputForm_blind s _ (·.value) _
  | readc => exact inputForm_blind s _ (fun c => zext8 (c.value.setWidth 8)) _
  | reads => exact execReads_blind s _ _
  | i2s => exact execI2s_blind s _ _
  | s2i => exact execS2i_blind s _ _
  | dread | aread => exact pinReadForm_blind s _ _ _
  | dwrite | awrite | pinmode => exact pinWriteForm_blind s _ _ _

/-! ### Steps -/

/-- So does one turn of the dispatch loop: the fetch reads `IP` and the program region only. -/
theorem dispatch_blind (s : State) : EndsBlind fun ρ => (s.inRun ρ).dispatch exec := by
  have hfetch (ρ : RunView) : (s.inRun ρ).fetch = s.fetch := rfl
  simp only [State.dispatch, hfetch]
  cases s.fetch with
  | ok i => exact exec_blind i s
  | error e => exact ⟨.stops s e, fun _ => rfl⟩

theorem step_eq_dispatch {s : State} {budget icount : Word} (h : s.phase = .running budget icount) :
    step s = s.dispatch exec := by rw [step, h]

/-- Settles O15: the two states are one state placed in two runs, and a step from it has one ending,
which each run counts or presents as its own. -/
theorem budgetAndCountAreInvisible : Obligations.BudgetAndCountAreInvisible := by
  intro s t s' budget icount budget' icount' hst hs ht hstep
  obtain ⟨ending, hend⟩ := dispatch_blind s
  have hends : step s = ending.inRun (s.phase, s.replies) :=
    (step_eq_dispatch hs).trans (hend (s.phase, s.replies))
  have hendt : step t = ending.inRun (t.phase, t.replies) :=
    (step_eq_dispatch ht).trans (hst.eq_inRun ▸ hend (t.phase, t.replies))
  rw [hstep] at hends
  cases ending with
  | completes w =>
    cases hends
    refine ⟨_, hendt, (sameButRun_inRun w _ _).advance, fun r hr hrep => ?_⟩
    have hcounted : Counted s (w.inRun (s.phase, s.replies)).advance := counted_advance rfl rfl
    exact absurd hrep (hcounted.replies_ne hr)
  | stops w e =>
    cases hends
    refine ⟨_, hendt, (sameButRun_inRun w _ _).endRun e, fun r _ hrep => ?_⟩
    obtain rfl : e = r := by simpa using hrep
    rfl

end Sys2Proof.Machine
end

section
/-! PROOFS. The registers an instruction leaves alone (O18). -/

namespace Sys2Proof.Machine

/-- Where the answer is a state, its register `r` reads `v`. -/
def Keeps (r : Reg) (v : Word) (x : Except ExecResult State) : Prop :=
  ∀ w, x = .ok w → w.reg r = v

/-- Where the result is a next state, its register `r` reads as before. -/
def LeavesReg (r : Reg) (s : State) (x : Result) : Prop := ∀ t, x = .next t → t.reg r = s.reg r

/-! ### The operations -/

section
variable {r : Reg} {v : Word} {w : State}

theorem keeps_ok (h : w.reg r = v) : Keeps r v (.ok w) := by
  intro t ht
  cases ht
  exact h

theorem keeps_error (e : ExecResult) : Keeps r v (.error e) := nofun

theorem Keeps.bind_of {α : Type} {x : Except ExecResult α} {k : α → Except ExecResult State}
    (hk : ∀ a, x = .ok a → Keeps r v (k a)) : Keeps r v (x >>= k) := by
  cases x with
  | ok a => exact hk a rfl
  | error e => exact keeps_error e

theorem Keeps.bind {α : Type} {x : Except ExecResult α} {k : α → Except ExecResult State}
    (hk : ∀ a, Keeps r v (k a)) : Keeps r v (x >>= k) := .bind_of fun a _ => hk a

/-- An operand byte that does not name `r` names another register. -/
theorem Keeps.bind_operand {b : RegByte} {k : Reg → Except ExecResult State} (hb : regByte r ≠ b)
    (hk : ∀ d, r ≠ d → Keeps r v (k d)) : Keeps r v (regOperand b >>= k) := by
  refine .bind_of fun d hd => hk d ?_
  rintro rfl
  rcases regOperand_cases b with ⟨q, rfl, hq, _⟩ | ⟨he, _⟩
  · rw [hd] at hq
    cases hq
    exact hb rfl
  · rw [hd] at he
    cases he

theorem reg_enter_of_ne (hip : r ≠ .ip) (s : State) (f : Format) :
    (s.enter f).reg r = s.reg r := by rw [State.reg_enter, if_neg hip]

theorem keeps_setReg {d : Reg} (hd : r ≠ d) (u : Word) (h : w.reg r = v) :
    Keeps r v (.ok (w.setReg d u)) := keeps_ok (by rw [State.reg_setReg, if_neg hd, h])

theorem keeps_jump (hip : r ≠ .ip) (target : Word) (h : w.reg r = v) :
    Keeps r v (.ok (w.jump target)) := keeps_ok (by rw [State.reg_jump, if_neg hip, h])

theorem keeps_branch (hip : r ≠ .ip) (taken : Bool) (target : Word) (h : w.reg r = v) :
    Keeps r v (.ok (if taken then w.jump target else w)) := by
  cases taken with
  | true => exact keeps_jump hip target h
  | false => exact keeps_ok h

theorem keeps_memWrite (a : Word) (n : Nat) (u : Word) (h : w.reg r = v) :
    Keeps r v (w.memWrite a n u) := by
  rcases w.memWrite_cases a n u with ⟨_, e⟩ | ⟨_, e⟩ <;> rw [e]
  · exact keeps_ok h
  · exact keeps_error _

theorem keeps_blockCopy (d q n : Word) (h : w.reg r = v) : Keeps r v (w.blockCopy d q n) := by
  rcases w.blockCopy_cases d q n with ⟨_, _, e⟩ | ⟨_, e⟩ <;> rw [e]
  · exact keeps_ok h
  · exact keeps_error _

theorem keeps_pushWord (hsp : r ≠ .sp) (u : Word) (h : w.reg r = v) :
    Keeps r v (w.pushWord u) := by
  rcases w.pushWord_cases u with ⟨_, e⟩ | ⟨_, _, e⟩ | ⟨_, _, e⟩ <;> rw [e]
  · exact keeps_error _
  · exact keeps_error _
  · exact keeps_ok (by rw [State.reg_pushed, if_neg hsp, h])

/-- R122: a pop that succeeds writes `SP` only. -/
theorem popWord_frame {w t : State} {u : Word} (h : w.popWord = .ok (u, t)) :
    t = w.setReg .sp (w.reg .sp + 4) := by
  rcases w.popWord_cases with ⟨_, e⟩ | ⟨_, _, _, e⟩ | ⟨_, _, e⟩ <;> rw [e] at h <;> cases h
  rfl

/-- R125: so does a double pop, whatever the size of memory. -/
theorem popTwo_frame {w t : State} {u1 u2 : Word} (h : w.popTwo = .ok (u1, u2, t)) :
    t = w.setReg .sp (w.reg .sp + 8) := by
  unfold State.popTwo at h
  split at h
  · cases h
  split at h
  · cases h
  split at h
  · cases h
  cases e1 : w.memRead (w.reg .sp) 4 with
  | error _ => rw [e1] at h; cases h
  | ok _ =>
    cases e2 : w.memRead (w.reg .sp + 4) 4 with
    | error _ => rw [e1, e2] at h; cases h
    | ok _ => rw [e1, e2] at h; cases h; rfl

end

/-! ### The forms -/

section
variable {r : Reg} {s : State}

/-- An instruction leaves what its body keeps, beside `IP`, which the advance writes. -/
theorem attempt_leaves (hip : r ≠ .ip) {f : Format} {body : State → Except ExecResult State}
    (h : Keeps r (s.reg r) (body (s.enter f))) : LeavesReg r s (attempt f s body) := by
  intro t ht
  rcases attempt_cases f s body with ⟨w, hw, e⟩ | ⟨_, _, e⟩ <;> rw [ht] at e <;> cases e
  · rw [State.reg_advance, if_neg hip, h w hw]
  · rfl

theorem literalForm_leaves (hip : r ≠ .ip) {rd : RegByte} (hd : regByte r ≠ rd) (f : Format)
    (v : Word) : LeavesReg r s (literalForm f v rd s) :=
  attempt_leaves hip (.bind_operand hd fun _ hne => keeps_setReg hne _ (reg_enter_of_ne hip s _))

theorem inPlaceForm_leaves (hip : r ≠ .ip) {rd : RegByte} (hd : regByte r ≠ rd)
    (op : Word → Word) : LeavesReg r s (inPlaceForm op rd s) :=
  attempt_leaves hip (.bind_operand hd fun _ hne => keeps_setReg hne _ (reg_enter_of_ne hip s _))

theorem moveForm_leaves (hip : r ≠ .ip) {rd : RegByte} (hd : regByte r ≠ rd) (op : Word → Word)
    (rs : RegByte) : LeavesReg r s (moveForm op rd rs s) :=
  attempt_leaves hip (.bind_operand hd fun _ hne => .bind fun _ =>
    keeps_setReg hne _ (reg_enter_of_ne hip s _))

theorem accumulateForm_leaves (hip : r ≠ .ip) {rd : RegByte} (hd : regByte r ≠ rd)
    (op : Word → Word → Except ExecResult Word) (rs : RegByte) :
    LeavesReg r s (accumulateForm op rd rs s) :=
  attempt_leaves hip (.bind_operand hd fun _ hne => .bind fun _ => .bind fun _ =>
    keeps_setReg hne _ (reg_enter_of_ne hip s _))

theorem threeForm_leaves (hip : r ≠ .ip) {rd : RegByte} (hd : regByte r ≠ rd)
    (op : Word → Word → Word) (ra rb : RegByte) : LeavesReg r s (threeForm op rd ra rb s) :=
  attempt_leaves hip (.bind_operand hd fun _ hne => .bind fun _ => .bind fun _ =>
    keeps_setReg hne _ (reg_enter_of_ne hip s _))

theorem loadAbsForm_leaves (hip : r ≠ .ip) {rd : RegByte} (hd : regByte r ≠ rd) (n : Nat)
    (addr : Half) : LeavesReg r s (loadAbsForm n rd addr s) :=
  attempt_leaves hip (.bind_operand hd fun _ hne => .bind fun _ =>
    keeps_setReg hne _ (reg_enter_of_ne hip s _))

theorem loadIndForm_leaves (hip : r ≠ .ip) {rd : RegByte} (hd : regByte r ≠ rd) (n : Nat)
    (rp : RegByte) : LeavesReg r s (loadIndForm n rd rp s) :=
  attempt_leaves hip (.bind_operand hd fun _ hne => .bind fun _ => .bind fun _ =>
    keeps_setReg hne _ (reg_enter_of_ne hip s _))

theorem storeAbsForm_leaves (hip : r ≠ .ip) (n : Nat) (rs : RegByte) (addr : Half) :
    LeavesReg r s (storeAbsForm n rs addr s) :=
  attempt_leaves hip (.bind fun _ => keeps_memWrite _ _ _ (reg_enter_of_ne hip s _))

theorem storeIndForm_leaves (hip : r ≠ .ip) (n : Nat) (rs rp : RegByte) :
    LeavesReg r s (storeIndForm n rs rp s) :=
  attempt_leaves hip (.bind fun _ => .bind fun _ =>
    keeps_memWrite _ _ _ (reg_enter_of_ne hip s _))

theorem jumpOneForm_leaves (hip : r ≠ .ip) (taken : Word → Bool) (addr : Half) (ra : RegByte) :
    LeavesReg r s (jumpOneForm taken addr ra s) :=
  attempt_leaves hip (.bind fun _ => keeps_branch hip _ _ (reg_enter_of_ne hip s _))

theorem jumpTwoForm_leaves (hip : r ≠ .ip) (c : Cond) (addr : Half) (ra rb : RegByte) :
    LeavesReg r s (jumpTwoForm c addr ra rb s) :=
  attempt_leaves hip (.bind fun _ => .bind fun _ =>
    keeps_branch hip _ _ (reg_enter_of_ne hip s _))

/-! ### The remaining meanings -/

theorem execPush_leaves (hip : r ≠ .ip) (hsp : r ≠ .sp) (rs : RegByte) :
    LeavesReg r s (execPush rs s) :=
  attempt_leaves hip (.bind fun _ => keeps_pushWord hsp _ (reg_enter_of_ne hip s _))

theorem execPop_leaves (hip : r ≠ .ip) (hsp : r ≠ .sp) {rd : RegByte} (hd : regByte r ≠ rd) :
    LeavesReg r s (execPop rd s) := by
  refine attempt_leaves hip (.bind_operand hd fun d hne => .bind_of fun p hp => ?_)
  refine keeps_setReg hne _ ?_
  rw [popWord_frame hp, State.reg_setReg, if_neg hsp, reg_enter_of_ne hip]

theorem execPop2_leaves (hip : r ≠ .ip) (hsp : r ≠ .sp) {rd1 rd2 : RegByte}
    (hd1 : regByte r ≠ rd1) (hd2 : regByte r ≠ rd2) : LeavesReg r s (execPop2 rd1 rd2 s) := by
  refine attempt_leaves hip (.bind_operand hd1 fun d1 hne1 => .bind_operand hd2 fun d2 hne2 =>
    .bind_of fun p hp => keeps_setReg hne2 _ ?_)
  rw [State.reg_setReg, if_neg hne1, popTwo_frame hp, State.reg_setReg, if_neg hsp,
    reg_enter_of_ne hip]

theorem execDup_leaves (hip : r ≠ .ip) (hsp : r ≠ .sp) : LeavesReg r s (execDup s) :=
  attempt_leaves hip (.bind fun _ => keeps_pushWord hsp _ (reg_enter_of_ne hip s _))

theorem execCall_leaves (hip : r ≠ .ip) (hra : r ≠ .ra) (addr : Half) :
    LeavesReg r s (execCall addr s) :=
  attempt_leaves hip <| keeps_jump hip _ <| by
    rw [State.reg_setReg, if_neg hra, reg_enter_of_ne hip]

theorem execRet_leaves (hip : r ≠ .ip) : LeavesReg r s (execRet s) :=
  attempt_leaves hip (keeps_jump hip _ (reg_enter_of_ne hip s _))

theorem execJmp_leaves (hip : r ≠ .ip) (addr : Half) : LeavesReg r s (execJmp addr s) :=
  attempt_leaves hip (keeps_jump hip _ (reg_enter_of_ne hip s _))

theorem execMemcpy_leaves (hip : r ≠ .ip) (dst src len : Half) :
    LeavesReg r s (execMemcpy dst src len s) :=
  attempt_leaves hip (keeps_blockCopy _ _ _ (reg_enter_of_ne hip s _))

theorem execMemcpyP_leaves (hip : r ≠ .ip) (rdst rsrc rlen : RegByte) :
    LeavesReg r s (execMemcpyP rdst rsrc rlen s) :=
  attempt_leaves hip (.bind fun _ => .bind fun _ => .bind fun _ =>
    keeps_blockCopy _ _ _ (reg_enter_of_ne hip s _))

theorem execJr_leaves (hip : r ≠ .ip) (rs : RegByte) : LeavesReg r s (execJr rs s) :=
  attempt_leaves hip (.bind fun _ => keeps_jump hip _ (reg_enter_of_ne hip s _))

theorem execI2s_leaves (hip : r ≠ .ip) (addr : Half) (rs : RegByte) :
    LeavesReg r s (execI2s addr rs s) := by
  refine attempt_leaves hip (.bind fun q => ?_)
  dsimp only
  split
  · exact keeps_error _
  · exact keeps_ok (reg_enter_of_ne hip s .FHR)

theorem execS2i_leaves (hip : r ≠ .ip) (addr : Half) {rd : RegByte} (hd : regByte r ≠ rd) :
    LeavesReg r s (execS2i addr rd s) :=
  attempt_leaves hip (.bind_operand hd fun _ hne => .bind fun _ =>
    keeps_setReg hne _ (reg_enter_of_ne hip s _))

end

/-- Settles O18, instruction by instruction: a form writes the register its first operand names, and
only the stack instructions and `CALL` write another. -/
theorem instructionsWriteOnlyWhatTheyName : Obligations.InstructionsWriteOnlyWhatTheyName := by
  intro i s t r ht hhost hnamed hip hsp hra
  suffices h : LeavesReg r s (exec i s) from h t ht
  have hfirst {b : RegByte} {bs : List RegByte} (h : regByte r ∉ b :: bs) : regByte r ≠ b :=
    List.ne_of_not_mem_cons h
  have hstack (n : Nat) (hop : opcodeOf i = n) (hn : 0x07 ≤ n ∧ n ≤ 0x0A) : r ≠ .sp :=
    fun e => hsp e (hop ▸ hn)
  have hcall (hop : opcodeOf i = 0x0B) : r ≠ .ra := fun e => hra e hop
  clear ht hsp hra
  cases i with
  | nop => exact attempt_leaves hip (keeps_ok (reg_enter_of_ne hip s _))
  | halt => exact fun t ht => by cases ht; rfl
  | lcons | lconsw | lconsb => exact literalForm_leaves hip (hfirst hnamed) _ _
  | mov | i2f | f2i => exact moveForm_leaves hip (hfirst hnamed) _ _
  | push => exact execPush_leaves hip (hstack 0x07 rfl (by decide)) _
  | pop => exact execPop_leaves hip (hstack 0x08 rfl (by decide)) (hfirst hnamed)
  | pop2 =>
    exact execPop2_leaves hip (hstack 0x09 rfl (by decide)) (hfirst hnamed)
      (hfirst (List.not_mem_of_not_mem_cons hnamed))
  | dup => exact execDup_leaves hip (hstack 0x0A rfl (by decide))
  | call => exact execCall_leaves hip (hcall rfl) _
  | ret => exact execRet_leaves hip
  | stor | storw | storb => exact storeAbsForm_leaves hip _ _ _
  | storP | storwP | storbP => exact storeIndForm_leaves hip _ _ _
  | load | loadw | loadb => exact loadAbsForm_leaves hip (hfirst hnamed) _ _
  | loadP | loadwP | loadbP => exact loadIndForm_leaves hip (hfirst hnamed) _ _
  | memcpy => exact execMemcpy_leaves hip _ _ _
  | memcpyP => exact execMemcpyP_leaves hip _ _ _
  | inc | dec | finc | fdec | not | u2i | i2u =>
    simp only [exec, execInc, execDec, execFinc, execFdec, execNot, execU2i, execI2u]
    exact inPlaceForm_leaves hip (hfirst hnamed) _
  | add | mul | and | or | xor | imul | fadd | fmul =>
    exact threeForm_leaves hip (hfirst hnamed) _ _ _
  | sub | div | mod | shl | shr | idiv | imod | ishr | fsub | fdiv =>
    simp only [exec, execSub, execDiv, execMod, execShl, execShr, execIdiv, execImod, execIshr,
      execFsub, execFdiv]
    exact accumulateForm_leaves hip (hfirst hnamed) _ _
  | jmp => exact execJmp_leaves hip _
  | jr => exact execJr_leaves hip _
  | jz | jnz =>
    simp only [exec, execJz, execJnz]
    exact jumpOneForm_leaves hip _ _ _
  | je | jne | ja | jg | jae | jge | jb | jl | jbe | jle => exact jumpTwoForm_leaves hip _ _ _ _
  | i2s => exact execI2s_leaves hip _ _
  | s2i => exact execS2i_leaves hip _ (hfirst hnamed)
  | int | print | printi | printf | printc | prints | read | readi | readf | readc | reads
  | dread | dwrite | aread | awrite | pinmode =>
    exact absurd (by simp [Transacts, opcodeOf, encode]) hhost

end Sys2Proof.Machine
end

section
/-! PROOFS. Register bytes that name no register (O7). -/

namespace Sys2Proof.Machine

/-- The answer is `InvalidRegister` whenever one of the operand bytes names no register. -/
def Refuses (bs : List RegByte) (x : Except ExecResult State) : Prop :=
  bs.all RegByte.valid = false → x = .error .invalidRegister

theorem refuses_nil (x : Except ExecResult State) : Refuses [] x := nofun

/-- R78: operand bytes are validated one after the other, before anything else. -/
theorem Refuses.operand {b : RegByte} {bs : List RegByte} {k : Reg → Except ExecResult State}
    (hk : ∀ r, Refuses bs (k r)) : Refuses (b :: bs) (regOperand b >>= k) := by
  intro h
  rcases regOperand_cases b with ⟨r, _, e, hv⟩ | ⟨e, _⟩ <;> rw [e]
  · rw [List.all_cons, hv, Bool.true_and] at h
    exact hk r h
  · rfl

/-- The result is the fault `InvalidRegister` whenever an operand byte names no register. -/
def FaultsOn (bs : List RegByte) (s : State) (x : Result) : Prop :=
  bs.all RegByte.valid = false → x = .next (s.endRun .invalidRegister)

theorem attempt_faultsOn {f : Format} {s : State} {bs : List RegByte}
    {body : State → Except ExecResult State} (h : Refuses bs (body (s.enter f))) :
    FaultsOn bs s (attempt f s body) := fun hbs => attempt_error (h hbs)

section
variable (s : State)

theorem literalForm_faultsOn (f : Format) (v : Word) (rd : RegByte) :
    FaultsOn [rd] s (literalForm f v rd s) :=
  attempt_faultsOn (.operand fun _ => refuses_nil _)

theorem inPlaceForm_faultsOn (op : Word → Word) (rd : RegByte) :
    FaultsOn [rd] s (inPlaceForm op rd s) :=
  attempt_faultsOn (.operand fun _ => refuses_nil _)

theorem moveForm_faultsOn (op : Word → Word) (rd rs : RegByte) :
    FaultsOn [rd, rs] s (moveForm op rd rs s) :=
  attempt_faultsOn (.operand fun _ => .operand fun _ => refuses_nil _)

theorem accumulateForm_faultsOn (op : Word → Word → Except ExecResult Word) (rd rs : RegByte) :
    FaultsOn [rd, rs] s (accumulateForm op rd rs s) :=
  attempt_faultsOn (.operand fun _ => .operand fun _ => refuses_nil _)

theorem threeForm_faultsOn (op : Word → Word → Word) (rd ra rb : RegByte) :
    FaultsOn [rd, ra, rb] s (threeForm op rd ra rb s) :=
  attempt_faultsOn (.operand fun _ => .operand fun _ => .operand fun _ => refuses_nil _)

theorem loadAbsForm_faultsOn (n : Nat) (rd : RegByte) (addr : Half) :
    FaultsOn [rd] s (loadAbsForm n rd addr s) :=
  attempt_faultsOn (.operand fun _ => refuses_nil _)

theorem loadIndForm_faultsOn (n : Nat) (rd rp : RegByte) :
    FaultsOn [rd, rp] s (loadIndForm n rd rp s) :=
  attempt_faultsOn (.operand fun _ => .operand fun _ => refuses_nil _)

theorem storeAbsForm_faultsOn (n : Nat) (rs : RegByte) (addr : Half) :
    FaultsOn [rs] s (storeAbsForm n rs addr s) :=
  attempt_faultsOn (.operand fun _ => refuses_nil _)

theorem storeIndForm_faultsOn (n : Nat) (rs rp : RegByte) :
    FaultsOn [rs, rp] s (storeIndForm n rs rp s) :=
  attempt_faultsOn (.operand fun _ => .operand fun _ => refuses_nil _)

theorem jumpOneForm_faultsOn (taken : Word → Bool) (addr : Half) (ra : RegByte) :
    FaultsOn [ra] s (jumpOneForm taken addr ra s) :=
  attempt_faultsOn (.operand fun _ => refuses_nil _)

theorem jumpTwoForm_faultsOn (c : Cond) (addr : Half) (ra rb : RegByte) :
    FaultsOn [ra, rb] s (jumpTwoForm c addr ra rb s) :=
  attempt_faultsOn (.operand fun _ => .operand fun _ => refuses_nil _)

theorem outputForm_faultsOn (q : Word → Bool → Request) (rs : RegByte) (nl : Byte) :
    FaultsOn [rs] s (outputForm q rs nl s) :=
  attempt_faultsOn (.operand fun _ => refuses_nil _)

theorem inputForm_faultsOn (q : Request) (value : Callback → Word) (rd : RegByte) :
    FaultsOn [rd] s (inputForm q value rd s) :=
  attempt_faultsOn (.operand fun _ => refuses_nil _)

theorem pinReadForm_faultsOn (q : Word → Request) (rd rpin : RegByte) :
    FaultsOn [rd, rpin] s (pinReadForm q rd rpin s) :=
  attempt_faultsOn (.operand fun _ => .operand fun _ => refuses_nil _)

theorem pinWriteForm_faultsOn (q : Word → Word → Request) (rpin rval : RegByte) :
    FaultsOn [rpin, rval] s (pinWriteForm q rpin rval s) :=
  attempt_faultsOn (.operand fun _ => .operand fun _ => refuses_nil _)

theorem execPush_faultsOn (rs : RegByte) : FaultsOn [rs] s (execPush rs s) :=
  attempt_faultsOn (.operand fun _ => refuses_nil _)

theorem execPop_faultsOn (rd : RegByte) : FaultsOn [rd] s (execPop rd s) :=
  attempt_faultsOn (.operand fun _ => refuses_nil _)

theorem execPop2_faultsOn (rd1 rd2 : RegByte) : FaultsOn [rd1, rd2] s (execPop2 rd1 rd2 s) :=
  attempt_faultsOn (.operand fun _ => .operand fun _ => refuses_nil _)

theorem execMemcpyP_faultsOn (rdst rsrc rlen : RegByte) :
    FaultsOn [rdst, rsrc, rlen] s (execMemcpyP rdst rsrc rlen s) :=
  attempt_faultsOn (.operand fun _ => .operand fun _ => .operand fun _ => refuses_nil _)

theorem execJr_faultsOn (rs : RegByte) : FaultsOn [rs] s (execJr rs s) :=
  attempt_faultsOn (.operand fun _ => refuses_nil _)

theorem execI2s_faultsOn (addr : Half) (rs : RegByte) : FaultsOn [rs] s (execI2s addr rs s) :=
  attempt_faultsOn (.operand fun _ => refuses_nil _)

theorem execS2i_faultsOn (addr : Half) (rd : RegByte) : FaultsOn [rd] s (execS2i addr rd s) :=
  attempt_faultsOn (.operand fun _ => refuses_nil _)

end

/-- R78: `exec` validates every register byte of an instruction. -/
theorem exec_faultsOn (i : Instr) (s : State) : FaultsOn i.regBytes s (exec i s) := by
  cases i with
  | nop | halt | int | dup | call | ret | memcpy | jmp | prints | reads => exact nofun
  | lcons | lconsw | lconsb => exact literalForm_faultsOn s _ _ _
  | mov | i2f | f2i => exact moveForm_faultsOn s _ _ _
  | push => exact execPush_faultsOn s _
  | pop => exact execPop_faultsOn s _
  | pop2 => exact execPop2_faultsOn s _ _
  | stor | storw | storb => exact storeAbsForm_faultsOn s _ _ _
  | storP | storwP | storbP => exact storeIndForm_faultsOn s _ _ _
  | load | loadw | loadb => exact loadAbsForm_faultsOn s _ _ _
  | loadP | loadwP | loadbP => exact loadIndForm_faultsOn s _ _ _
  | memcpyP => exact execMemcpyP_faultsOn s _ _ _
  | inc | dec | finc | fdec | not | u2i | i2u =>
    simp only [exec, execInc, execDec, execFinc, execFdec, execNot, execU2i, execI2u]
    exact inPlaceForm_faultsOn s _ _
  | add | mul | and | or | xor | imul | fadd | fmul => exact threeForm_faultsOn s _ _ _ _
  | div | mod | idiv | imod => exact accumulateForm_faultsOn s _ _ _
  | sub | shl | shr | ishr | fsub | fdiv =>
    simp only [exec, execSub, execShl, execShr, execIshr, execFsub, execFdiv]
    exact accumulateForm_faultsOn s _ _ _
  | jr => exact execJr_faultsOn s _
  | jz | jnz =>
    simp only [exec, execJz, execJnz]
    exact jumpOneForm_faultsOn s _ _ _
  | je | jne | ja | jg | jae | jge | jb | jl | jbe | jle => exact jumpTwoForm_faultsOn s _ _ _ _
  | print | printi | printf => exact outputForm_faultsOn s _ _ _
  | printc => exact outputForm_faultsOn s (fun v => .outChar (v.setWidth 8)) _ _
  | read | readi | readf => exact inputForm_faultsOn s _ (·.value) _
  | readc => exact inputForm_faultsOn s _ (fun c => zext8 (c.value.setWidth 8)) _
  | i2s => exact execI2s_faultsOn s _ _
  | s2i => exact execS2i_faultsOn s _ _
  | dread | aread => exact pinReadForm_faultsOn s _ _ _
  | dwrite | awrite | pinmode => exact pinWriteForm_faultsOn s _ _ _

/-- R78: an instruction whose register bytes all name registers ends no run with
`InvalidRegister`. -/
theorem replies_ne_invalidRegister {i : Instr} {s t : State} (h : i.wellFormed = true)
    (ht : exec i s = .next t) : t.replies ≠ .result .invalidRegister :: s.replies := by
  obtain ⟨hends, hvalid⟩ := exec_ends i s
  have hne := hvalid h
  rw [ht] at hends hne
  cases hends with
  | completes w hw => exact (counted_advance hw.phase hw.replies).replies_ne nofun
  | faults e _ =>
    intro hrep
    obtain rfl : e = .invalidRegister := by simpa using hrep
    exact hne rfl
  | stops u hu _ => simp

/-- Settles O7: a byte that names no register is found before anything else happens, and with valid
bytes no instruction ends with that fault. -/
theorem illFormedInstructionsRaiseInvalidRegister :
    Obligations.IllFormedInstructionsRaiseInvalidRegister := fun i s =>
  ⟨fun h => faults_of (exec_faultsOn i s h), fun h _ ht => replies_ne_invalidRegister h ht⟩

end Sys2Proof.Machine
end

section
/-! PROOFS. The state after construction has both invariants (O13). -/

namespace Sys2Proof.Machine

/-- Settles O13: nothing is listed or traced and the unit is idle, so only `MEM_SIZE` is left to bound;
and construction from an empty image writes no byte. -/
theorem resetMeetsTheInvariants : Obligations.ResetMeetsTheInvariants :=
  ⟨⟨rfl, nofun, by decide, trivial⟩, nofun, rfl⟩

end Sys2Proof.Machine
end

section
/-! PROOFS. The decoder on the bytes of an encoding, and the faults of a fetch (O6). -/

namespace Sys2Proof.Machine

open Sys2Proof.Laws

/-! ### The decoder -/

/-- The opcode map and the encoder agree on every instruction (R70, R72, R80). -/
theorem encoding_statement : ∀ i : Instr, Encoding.Statement i
  | .nop => Encoding.nop | .halt => Encoding.halt | .int _ => Encoding.int _
  | .lcons _ _ => Encoding.lcons _ _ | .lconsw _ _ => Encoding.lconsw _ _
  | .lconsb _ _ => Encoding.lconsb _ _ | .mov _ _ => Encoding.mov _ _ | .push _ => Encoding.push _
  | .pop _ => Encoding.pop _ | .pop2 _ _ => Encoding.pop2 _ _ | .dup => Encoding.dup
  | .call _ => Encoding.call _ | .ret => Encoding.ret | .stor _ _ => Encoding.stor _ _
  | .storw _ _ => Encoding.storw _ _ | .storb _ _ => Encoding.storb _ _
  | .storP _ _ => Encoding.storP _ _ | .storwP _ _ => Encoding.storwP _ _
  | .storbP _ _ => Encoding.storbP _ _ | .load _ _ => Encoding.load _ _
  | .loadw _ _ => Encoding.loadw _ _ | .loadb _ _ => Encoding.loadb _ _
  | .loadP _ _ => Encoding.loadP _ _ | .loadwP _ _ => Encoding.loadwP _ _
  | .loadbP _ _ => Encoding.loadbP _ _ | .memcpy _ _ _ => Encoding.memcpy _ _ _
  | .memcpyP _ _ _ => Encoding.memcpyP _ _ _ | .inc _ => Encoding.inc _
  | .dec _ => Encoding.dec _ | .finc _ => Encoding.finc _
  | .fdec _ => Encoding.fdec _ | .add _ _ _ => Encoding.add _ _ _ | .sub _ _ => Encoding.sub _ _
  | .mul _ _ _ => Encoding.mul _ _ _ | .div _ _ => Encoding.div _ _ | .mod _ _ => Encoding.mod _ _
  | .shl _ _ => Encoding.shl _ _ | .shr _ _ => Encoding.shr _ _ | .and _ _ _ => Encoding.and _ _ _
  | .or _ _ _ => Encoding.or _ _ _ | .xor _ _ _ => Encoding.xor _ _ _ | .not _ => Encoding.not _
  | .imul _ _ _ => Encoding.imul _ _ _ | .idiv _ _ => Encoding.idiv _ _
  | .imod _ _ => Encoding.imod _ _ | .ishr _ _ => Encoding.ishr _ _
  | .fadd _ _ _ => Encoding.fadd _ _ _ | .fsub _ _ => Encoding.fsub _ _
  | .fmul _ _ _ => Encoding.fmul _ _ _ | .fdiv _ _ => Encoding.fdiv _ _ | .u2i _ => Encoding.u2i _
  | .i2u _ => Encoding.i2u _ | .i2f _ _ => Encoding.i2f _ _ | .f2i _ _ => Encoding.f2i _ _
  | .jmp _ => Encoding.jmp _ | .jr _ => Encoding.jr _ | .jz _ _ => Encoding.jz _ _
  | .jnz _ _ => Encoding.jnz _ _ | .je _ _ _ => Encoding.je _ _ _
  | .jne _ _ _ => Encoding.jne _ _ _ | .ja _ _ _ => Encoding.ja _ _ _
  | .jg _ _ _ => Encoding.jg _ _ _ | .jae _ _ _ => Encoding.jae _ _ _
  | .jge _ _ _ => Encoding.jge _ _ _ | .jb _ _ _ => Encoding.jb _ _ _
  | .jl _ _ _ => Encoding.jl _ _ _ | .jbe _ _ _ => Encoding.jbe _ _ _
  | .jle _ _ _ => Encoding.jle _ _ _ | .print _ _ => Encoding.print _ _
  | .printi _ _ => Encoding.printi _ _ | .printf _ _ => Encoding.printf _ _
  | .printc _ _ => Encoding.printc _ _ | .prints _ _ => Encoding.prints _ _
  | .read _ => Encoding.read _ | .readi _ => Encoding.readi _ | .readf _ => Encoding.readf _
  | .readc _ => Encoding.readc _ | .reads _ _ => Encoding.reads _ _ | .i2s _ _ => Encoding.i2s _ _
  | .s2i _ _ => Encoding.s2i _ _ | .dread _ _ => Encoding.dread _ _
  | .dwrite _ _ => Encoding.dwrite _ _ | .aread _ _ => Encoding.aread _ _
  | .awrite _ _ => Encoding.awrite _ _ | .pinmode _ _ => Encoding.pinmode _ _

/-- R74, R81: the opcode map ends at `MAX_OPCODE`. -/
theorem shapeOf_eq_none {op : Byte} (h : 0x54 < op.toNat) : shapeOf op = none := by
  unfold shapeOf
  split
  case h_86 => rfl
  all_goals omega

theorem decode_unknown {op : Byte} (bs : List Byte) (h : shapeOf op = none) :
    decode (op :: bs) = .error .unknownOpcode := by
  simp only [decode, h]

theorem decode_truncated {op : Byte} {bs : List Byte} {sh : Shape} (h : shapeOf op = some sh)
    (hlen : (op :: bs).length < sh.format.length) :
    decode (op :: bs) = .error .programOverrun := by
  simp only [decode, h, if_pos hlen]

theorem decode_complete {op : Byte} {bs : List Byte} {sh : Shape} (h : shapeOf op = some sh)
    (hlen : sh.format.length ≤ (op :: bs).length) :
    decode (op :: bs) =
      if (sh.build fun k => (op :: bs).getD k 0).wellFormed then
        .ok (sh.build fun k => (op :: bs).getD k 0)
      else .error .invalidRegister := by
  simp only [decode, h, if_neg (Nat.not_lt.mpr hlen)]

/-- R72, R78: the bytes of an instruction, whatever follows them, decode to it, or to
`InvalidRegister` when a register byte names no register. -/
theorem decode_encode_append (i : Instr) (rest : List Byte) :
    decode (encode i ++ rest) = if i.wellFormed then .ok i else .error .invalidRegister := by
  obtain ⟨op, sh, hop, hsh, hlen, hbuild⟩ := encoding_statement i
  obtain ⟨bs, hbs⟩ := List.head?_eq_some_iff.mp hop
  have hi : sh.build (fun k => (op :: (bs ++ rest)).getD k 0) = i := by
    simpa only [hbs, List.cons_append] using hbuild rest
  have hle : sh.format.length ≤ (op :: (bs ++ rest)).length := by
    rw [← hlen, hbs, ← List.cons_append, List.length_append]
    exact Nat.le_add_right _ _
  rw [hbs, List.cons_append, decode_complete hsh hle, hi]

/-- R71: no instruction is longer than `maxLength`. -/
theorem length_encode_le (i : Instr) : (encode i).length ≤ maxLength := by
  obtain ⟨_, sh, _, _, hlen, _⟩ := encoding_statement i
  rw [hlen]
  cases sh.format <;> decide

/-! ### The bytes a fetch sees -/

theorem Memory.readBytes_add (m : Memory) (a j k : Nat) :
    m.readBytes a (j + k) = m.readBytes a j ++ m.readBytes (a + j) k := by
  induction j generalizing a with
  | zero => simp [Memory.readBytes]
  | succ j ih =>
    rw [Nat.succ_add, Memory.readBytes, Memory.readBytes, ih, Nat.succ_add_eq_add_succ,
      List.cons_append]

theorem Memory.readBytes_of_bytesAt {m : Memory} {a : Nat} {bs : List Byte} (h : BytesAt m a bs) :
    m.readBytes a bs.length = bs := by
  induction bs generalizing a with
  | nil => rfl
  | cons b bs ih =>
    obtain ⟨hb, hbs⟩ := bytesAt_append (bs := [b]).mp h
    have hb : m.read a = b := hb 0 Nat.one_pos
    have hbs : m.readBytes (a + 1) bs.length = bs := ih hbs
    rw [List.length_cons, Memory.readBytes, hb, hbs]

/-- R73: at or beyond `PROG_LEN` the program region offers no byte. -/
theorem State.programBytes_eq_nil {s : State} (h : s.progLen ≤ (s.reg .ip).toNat) :
    s.programBytes = [] := by
  rw [State.programBytes, Nat.sub_eq_zero_of_le h, Nat.min_zero]
  rfl

@[simp] theorem State.length_programBytes (s : State) :
    s.programBytes.length = min maxLength (s.progLen - (s.reg .ip).toNat) :=
  Memory.length_readBytes _ _ _

/-- R46: below `PROG_LEN` the first byte offered is the byte at `IP`. -/
theorem State.programBytes_eq_cons {s : State} (h : (s.reg .ip).toNat < s.progLen) :
    ∃ bs, s.programBytes = s.mem.read (s.reg .ip).toNat :: bs := by
  obtain ⟨n, hn⟩ := Nat.exists_eq_add_one.mpr
    (Nat.lt_min.mpr ⟨show 0 < maxLength by decide, Nat.sub_pos_of_lt h⟩)
  exact ⟨_, by rw [State.programBytes, hn, Memory.readBytes]⟩

/-- R46: bytes at `IP` inside the program region, no more than the longest instruction has, are the
first the fetch sees. -/
theorem State.programBytes_of_bytesAt {s : State} {bs : List Byte} (hmax : bs.length ≤ maxLength)
    (hlen : (s.reg .ip).toNat + bs.length ≤ s.progLen)
    (h : BytesAt s.mem (s.reg .ip).toNat bs) : ∃ rest, s.programBytes = bs ++ rest := by
  obtain ⟨n, hn⟩ := Nat.exists_eq_add_of_le (Nat.le_min.mpr ⟨hmax, Nat.le_sub_of_add_le' hlen⟩)
  exact ⟨_, by rw [State.programBytes, hn, Memory.readBytes_add, Memory.readBytes_of_bytesAt h]⟩

/-! ### The faults of a fetch -/

theorem fetch_beyond_program {s : State} (h : s.progLen ≤ (s.reg .ip).toNat) :
    s.fetch = .error .programOverrun := by
  rw [State.fetch, State.programBytes_eq_nil h]
  rfl

theorem fetch_unknown_opcode {s : State} (h : (s.reg .ip).toNat < s.progLen)
    (hop : 0x54 < (s.mem.read (s.reg .ip).toNat).toNat) : s.fetch = .error .unknownOpcode := by
  obtain ⟨bs, hbs⟩ := State.programBytes_eq_cons h
  rw [State.fetch, hbs, decode_unknown bs (shapeOf_eq_none hop)]

/-- R74: the opcode byte alone fixes the length that must lie inside the program region. -/
theorem fetch_truncated {s : State} {i : Instr} (h : (s.reg .ip).toNat < s.progLen)
    (hop : (encode i).head? = some (s.mem.read (s.reg .ip).toNat))
    (hlen : s.progLen < (s.reg .ip).toNat + (encode i).length) :
    s.fetch = .error .programOverrun := by
  obtain ⟨op, sh, hop', hsh, hlen', _⟩ := encoding_statement i
  obtain rfl : op = s.mem.read (s.reg .ip).toNat := Option.some.inj (hop'.symm.trans hop)
  obtain ⟨bs, hbs⟩ := State.programBytes_eq_cons h
  rw [State.fetch, hbs, decode_truncated hsh]
  rw [← hbs, State.length_programBytes, ← hlen']
  omega

/-- R72, R78: where the bytes of an instruction lie at `IP` inside the program region, the fetch answers
it, or `InvalidRegister` when a register byte names no register. -/
theorem fetch_of_bytesAt {s : State} {i : Instr}
    (hlen : (s.reg .ip).toNat + (encode i).length ≤ s.progLen)
    (h : BytesAt s.mem (s.reg .ip).toNat (encode i)) :
    s.fetch = if i.wellFormed then .ok i else .error .invalidRegister := by
  obtain ⟨rest, hrest⟩ := State.programBytes_of_bytesAt (length_encode_le i) hlen h
  rw [State.fetch, hrest, decode_encode_append]

/-- R313: a fault of the fetch ends the run, precisely. -/
theorem step_of_fetch_error {s : State} {budget icount : Word} {e : ExecResult}
    (hp : s.phase = .running budget icount) (h : s.fetch = .error e) :
    ∃ t, step s = .next t ∧ EndsUnchanged s e t :=
  ⟨_, by simp only [step, hp, State.dispatch, h, raise], endsUnchanged_endRun s e⟩

/-- Settles O6: each condition is a fault of the fetch, and a fault of the fetch is precise. -/
theorem fetchFaultsEndTheRun : Obligations.FetchFaultsEndTheRun := by
  intro s budget icount hp
  refine ⟨fun h => ?_, fun h hop => ?_, fun i h hop hlen => ?_, fun i hlen hat hwf => ?_⟩ <;>
    apply step_of_fetch_error hp
  · exact fetch_beyond_program h
  · exact fetch_unknown_opcode h hop
  · exact fetch_truncated h hop hlen
  · rw [fetch_of_bytesAt hlen hat, hwf]
    rfl

end Sys2Proof.Machine
end

section
/-! PROOFS. The memory an instruction leaves alone (O19). -/

namespace Sys2Proof.Machine

/-- Where the answer is a state, its memory is `m`. -/
def KeepsMem (m : Memory) (x : Except ExecResult State) : Prop := ∀ w, x = .ok w → w.mem = m

/-- Where the result is a next state, its memory is as before. -/
def LeavesMem (s : State) (x : Result) : Prop := ∀ t, x = .next t → t.mem = s.mem

theorem keepsMem_ok {m : Memory} {w : State} (h : w.mem = m) : KeepsMem m (.ok w) := by
  intro t ht
  cases ht
  exact h

theorem KeepsMem.bind_of {α : Type} {m : Memory} {x : Except ExecResult α}
    {k : α → Except ExecResult State} (hk : ∀ a, x = .ok a → KeepsMem m (k a)) :
    KeepsMem m (x >>= k) := by
  cases x with
  | ok a => exact hk a rfl
  | error e => exact nofun

theorem KeepsMem.bind {α : Type} {m : Memory} {x : Except ExecResult α}
    {k : α → Except ExecResult State} (hk : ∀ a, KeepsMem m (k a)) : KeepsMem m (x >>= k) :=
  .bind_of fun a _ => hk a

theorem keepsMem_setReg {m : Memory} {w : State} (h : w.mem = m) (d : Reg) (v : Word) :
    KeepsMem m (.ok (w.setReg d v)) := keepsMem_ok h

theorem keepsMem_jump {m : Memory} {w : State} (h : w.mem = m) (target : Word) :
    KeepsMem m (.ok (w.jump target)) := keepsMem_ok h

theorem keepsMem_branch {m : Memory} {w : State} (h : w.mem = m) (taken : Bool) (target : Word) :
    KeepsMem m (.ok (if taken then w.jump target else w)) := by
  cases taken with
  | true => exact keepsMem_jump h target
  | false => exact keepsMem_ok h

/-- Neither the advance nor a fault touches memory, so an instruction leaves what its body keeps. -/
theorem attempt_leavesMem {s : State} {f : Format} {body : State → Except ExecResult State}
    (h : KeepsMem s.mem (body (s.enter f))) : LeavesMem s (attempt f s body) := by
  intro t ht
  rcases attempt_cases f s body with ⟨w, hw, e⟩ | ⟨_, _, e⟩ <;> rw [ht] at e <;> cases e
  · rw [State.advance_mem, h w hw]
  · rfl

/-! ### The forms that store nothing -/

section
variable {s : State}

theorem literalForm_leavesMem (f : Format) (v : Word) (rd : RegByte) :
    LeavesMem s (literalForm f v rd s) :=
  attempt_leavesMem (.bind fun _ => keepsMem_setReg (s.enter_mem _) _ _)

theorem inPlaceForm_leavesMem (op : Word → Word) (rd : RegByte) :
    LeavesMem s (inPlaceForm op rd s) :=
  attempt_leavesMem (.bind fun _ => keepsMem_setReg (s.enter_mem _) _ _)

theorem moveForm_leavesMem (op : Word → Word) (rd rs : RegByte) :
    LeavesMem s (moveForm op rd rs s) :=
  attempt_leavesMem (.bind fun _ => .bind fun _ => keepsMem_setReg (s.enter_mem _) _ _)

theorem accumulateForm_leavesMem (op : Word → Word → Except ExecResult Word) (rd rs : RegByte) :
    LeavesMem s (accumulateForm op rd rs s) :=
  attempt_leavesMem (.bind fun _ => .bind fun _ => .bind fun _ =>
    keepsMem_setReg (s.enter_mem _) _ _)

theorem threeForm_leavesMem (op : Word → Word → Word) (rd ra rb : RegByte) :
    LeavesMem s (threeForm op rd ra rb s) :=
  attempt_leavesMem (.bind fun _ => .bind fun _ => .bind fun _ =>
    keepsMem_setReg (s.enter_mem _) _ _)

theorem loadAbsForm_leavesMem (n : Nat) (rd : RegByte) (addr : Half) :
    LeavesMem s (loadAbsForm n rd addr s) :=
  attempt_leavesMem (.bind fun _ => .bind fun _ => keepsMem_setReg (s.enter_mem _) _ _)

theorem loadIndForm_leavesMem (n : Nat) (rd rp : RegByte) : LeavesMem s (loadIndForm n rd rp s) :=
  attempt_leavesMem (.bind fun _ => .bind fun _ => .bind fun _ =>
    keepsMem_setReg (s.enter_mem _) _ _)

theorem jumpOneForm_leavesMem (taken : Word → Bool) (addr : Half) (ra : RegByte) :
    LeavesMem s (jumpOneForm taken addr ra s) :=
  attempt_leavesMem (.bind fun _ => keepsMem_branch (s.enter_mem _) _ _)

theorem jumpTwoForm_leavesMem (c : Cond) (addr : Half) (ra rb : RegByte) :
    LeavesMem s (jumpTwoForm c addr ra rb s) :=
  attempt_leavesMem (.bind fun _ => .bind fun _ => keepsMem_branch (s.enter_mem _) _ _)

/-! ### The remaining meanings that store nothing -/

theorem execPop_leavesMem (rd : RegByte) : LeavesMem s (execPop rd s) :=
  attempt_leavesMem (.bind fun _ => .bind_of fun _ hp =>
    keepsMem_setReg (congrArg State.mem (popWord_frame hp)) _ _)

theorem execPop2_leavesMem (rd1 rd2 : RegByte) : LeavesMem s (execPop2 rd1 rd2 s) := by
  refine attempt_leavesMem (.bind fun d1 => .bind fun _ => .bind_of fun (v1, _, t) hp => ?_)
  have ht : t.mem = s.mem := by rw [popTwo_frame hp, State.setReg_mem, State.enter_mem]
  exact keepsMem_setReg (w := t.setReg d1 v1) ht _ _

theorem execCall_leavesMem (addr : Half) : LeavesMem s (execCall addr s) :=
  attempt_leavesMem (keepsMem_jump (w := (s.enter .FH).setReg .ra _) (s.enter_mem .FH) _)

theorem execRet_leavesMem : LeavesMem s (execRet s) :=
  attempt_leavesMem (keepsMem_jump (s.enter_mem _) _)

theorem execJmp_leavesMem (addr : Half) : LeavesMem s (execJmp addr s) :=
  attempt_leavesMem (keepsMem_jump (s.enter_mem _) _)

theorem execJr_leavesMem (rs : RegByte) : LeavesMem s (execJr rs s) :=
  attempt_leavesMem (.bind fun _ => keepsMem_jump (s.enter_mem _) _)

theorem execS2i_leavesMem (addr : Half) (rd : RegByte) : LeavesMem s (execS2i addr rd s) :=
  attempt_leavesMem (.bind fun _ => .bind fun _ => keepsMem_setReg (s.enter_mem _) _ _)

end

/-- R47, R48: an instruction whose opcode is not among the storing ones and that calls no host leaves
the memory as it is. -/
theorem exec_leavesMem {i : Instr} (s : State) (hhost : ¬ Transacts i)
    (hop : opcodeOf i ∉ [0x07, 0x0A, 0x0D, 0x0E, 0x0F, 0x10, 0x11, 0x12, 0x19, 0x1A, 0x4E]) :
    LeavesMem s (exec i s) := by
  cases i with
  | nop => exact attempt_leavesMem (keepsMem_ok (s.enter_mem _))
  | halt => exact fun t ht => by cases ht; rfl
  | lcons | lconsw | lconsb => exact literalForm_leavesMem _ _ _
  | mov | i2f | f2i => exact moveForm_leavesMem _ _ _
  | pop => exact execPop_leavesMem _
  | pop2 => exact execPop2_leavesMem _ _
  | call => exact execCall_leavesMem _
  | ret => exact execRet_leavesMem
  | load | loadw | loadb => exact loadAbsForm_leavesMem _ _ _
  | loadP | loadwP | loadbP => exact loadIndForm_leavesMem _ _ _
  | inc | dec | finc | fdec | not | u2i | i2u =>
    simp only [exec, execInc, execDec, execFinc, execFdec, execNot, execU2i, execI2u]
    exact inPlaceForm_leavesMem _ _
  | add | mul | and | or | xor | imul | fadd | fmul => exact threeForm_leavesMem _ _ _ _
  | sub | div | mod | shl | shr | idiv | imod | ishr | fsub | fdiv =>
    simp only [exec, execSub, execDiv, execMod, execShl, execShr, execIdiv, execImod, execIshr,
      execFsub, execFdiv]
    exact accumulateForm_leavesMem _ _ _
  | jmp => exact execJmp_leavesMem _
  | jr => exact execJr_leavesMem _
  | jz | jnz =>
    simp only [exec, execJz, execJnz]
    exact jumpOneForm_leavesMem _ _ _
  | je | jne | ja | jg | jae | jge | jb | jl | jbe | jle => exact jumpTwoForm_leavesMem _ _ _ _
  | s2i => exact execS2i_leavesMem _ _
  | push | dup | stor | storw | storb | storP | storwP | storbP | memcpy | memcpyP | i2s =>
    exact absurd (by simp [opcodeOf, encode]) hop
  | int | print | printi | printf | printc | prints | read | readi | readf | readc | reads
  | dread | dwrite | aread | awrite | pinmode =>
    exact absurd (by simp [Transacts, opcodeOf, encode]) hhost

/-- Settles O19: the same memory reads alike everywhere. -/
theorem onlyStoringInstructionsChangeMemory : Obligations.OnlyStoringInstructionsChangeMemory := by
  intro i s t ht hhost hop a
  rw [exec_leavesMem s hhost hop t ht]

end Sys2Proof.Machine
end

section
/-! PROOFS. What a callback of the host can leave (O23). -/

namespace Sys2Proof.Machine

theorem State.access_memSize (s : State) (a : Accessor) : (s.access a).1.memSize = s.memSize := by
  rw [s.access_frame a]
  rfl

/-- R345: no accessor changes a byte outside the memory. -/
theorem State.access_read_outside (s : State) (a : Accessor) {x : Nat} (hx : s.memSize ≤ x) :
    (s.access a).1.mem.read x = s.mem.read x := by
  cases a with
  | getRegister | setRegister | readMemory | count => simp only [State.access]; split <;> rfl
  | writeMemory offset b =>
    simp only [State.access]
    split
    · rw [Memory.read_write, if_neg (by omega)]
    · rfl
  | push v =>
    rcases s.pushWord_cases v with ⟨_, e⟩ | ⟨_, _, e⟩ | ⟨_, _, e⟩ <;> simp only [State.access, e]
    rw [State.pushed_mem, Memory.read_writeBytes_outside _ _ _ _ (by simp; omega)]
  | pop =>
    rcases s.popWord_cases with ⟨_, e⟩ | ⟨_, _, _, e⟩ | ⟨_, _, e⟩ <;> simp only [State.access, e]
    rfl

/-- R331, U15: whatever the host does in a callback, `IP` stays. -/
theorem State.perform_ip (acts : List Accessor) (s : State) :
    (s.perform acts).reg .ip = s.reg .ip :=
  State.perform_induction (fun t => t.reg .ip = s.reg .ip) acts s
    (fun t a ha ht => (t.access_ip a ha).trans ht) rfl

/-- R54: whatever the host does in a callback, the bytes outside the memory stay. -/
theorem State.perform_read_outside (acts : List Accessor) (s : State) {x : Nat}
    (hx : s.memSize ≤ x) : (s.perform acts).mem.read x = s.mem.read x := by
  have h := State.perform_induction
    (fun t => t.memSize = s.memSize ∧ t.mem.read x = s.mem.read x) acts s ?_ ⟨rfl, rfl⟩
  · exact h.2
  · rintro t a _ ⟨hsize, hread⟩
    exact ⟨(t.access_memSize a).trans hsize, (t.access_read_outside a (hsize ▸ hx)).trans hread⟩

/-- R54: a callback in which the host uses no accessor leaves every register and every byte. -/
theorem afterCallback_of_no_acts {s : State} {x : Transaction} (h : (s.callback x).acts = []) :
    SameRegs s (afterCallback s x) ∧ SameMemory s (afterCallback s x) := by
  rw [afterCallback, State.transact, h]
  exact ⟨fun _ => rfl, fun _ => rfl⟩

/-- Settles O23: beside the trace and the script a callback is a sequence of accessors, which change
registers other than `IP` and bytes of the memory; with no accessor nothing is left to change. -/
theorem callbacksStayWithinTheAccessors : Obligations.CallbacksStayWithinTheAccessors := by
  intro s x
  have hframe := (s.transact_frame x).2
  have hphase : (afterCallback s x).phase = s.phase := by rw [afterCallback, hframe]
  have hreplies : (afterCallback s x).replies = s.replies := by rw [afterCallback, hframe]
  have hsame : SameInstance s (afterCallback s x) := by
    rw [afterCallback, hframe]
    exact ⟨rfl, rfl, rfl, rfl, rfl, rfl, rfl⟩
  exact ⟨congrArg State.trace hframe, congrArg State.script hframe, State.perform_ip _ _, hphase,
    hreplies, hsame, fun _ ha => State.perform_read_outside _ _ ha, afterCallback_of_no_acts⟩

end Sys2Proof.Machine
end

section
/-! PROOFS. The decoder and the encoder are inverse to each other (O1, O2), the faults of decoding
in their order (O3), words of the spec (O4), and the step on the bytes of an encoding (O5). -/

namespace Sys2Proof

/-! ### The encoder on what the decoder builds -/

/-- R75: a 16-bit field is written as the two bytes it was read from. -/
theorem bytes16_imm16 (b : Nat → Byte) (k : Nat) : bytes16 (imm16 b k) = [b k, b (k + 1)] := by
  have h0 := (b k).isLt
  have h1 := (b (k + 1)).isLt
  simp only [bytes16, imm16, leNat, leBytes, BitVec.toNat_ofNat, List.cons.injEq, and_true]
  refine ⟨?_, ?_⟩ <;> apply BitVec.eq_of_toNat_eq <;> rw [BitVec.toNat_ofNat] <;> omega

/-- R75: a 32-bit field is written as the four bytes it was read from. -/
theorem bytes32_imm32 (b : Nat → Byte) (k : Nat) :
    bytes32 (imm32 b k) = [b k, b (k + 1), b (k + 2), b (k + 3)] := by
  have h0 := (b k).isLt
  have h1 := (b (k + 1)).isLt
  have h2 := (b (k + 2)).isLt
  have h3 := (b (k + 3)).isLt
  simp only [bytes32, imm32, leNat, leBytes, BitVec.toNat_ofNat, List.cons.injEq, and_true]
  refine ⟨?_, ?_, ?_, ?_⟩ <;> apply BitVec.eq_of_toNat_eq <;> rw [BitVec.toNat_ofNat] <;> omega

/-- R70, R72: whatever the operands, the instructions of the shape are encoded as the opcode byte
and then the operands as the format orders them, none left out. -/
def Shape.EncodedWith (op : Byte) : Shape → Prop
  | .f0 mk => encode mk = [op]
  | .fr mk => ∀ r, encode (mk r) = [op, r]
  | .fb mk => ∀ c, encode (mk c) = [op, c]
  | .frr mk => ∀ r q, encode (mk r q) = [op, r, q]
  | .frrr mk => ∀ r q p, encode (mk r q p) = [op, r, q, p]
  | .frb mk => ∀ r c, encode (mk r c) = [op, r, c]
  | .frh mk => ∀ r h, encode (mk r h) = [op, r] ++ bytes16 h
  | .frd mk => ∀ r d, encode (mk r d) = [op, r] ++ bytes32 d
  | .fh mk => ∀ h, encode (mk h) = [op] ++ bytes16 h
  | .fhr mk => ∀ h r, encode (mk h r) = [op] ++ bytes16 h ++ [r]
  | .fhrr mk => ∀ h r q, encode (mk h r q) = [op] ++ bytes16 h ++ [r, q]
  | .fhb mk => ∀ h c, encode (mk h c) = [op] ++ bytes16 h ++ [c]
  | .fhh mk => ∀ h g, encode (mk h g) = [op] ++ bytes16 h ++ bytes16 g
  | .fhhh mk => ∀ h g f, encode (mk h g f) = [op] ++ bytes16 h ++ bytes16 g ++ bytes16 f

/-- R80, row by row of the opcode map. -/
theorem encodedWith_of_shapeOf {op : Byte} {sh : Shape} (h : shapeOf op = some sh) :
    sh.EncodedWith op := by
  rw [show op = BitVec.ofNat 8 op.toNat by simp]
  unfold shapeOf at h
  split at h
  case h_86 => cases h
  all_goals
    rename_i hop
    cases h
    simp only [hop, Shape.EncodedWith]
    intros
    rfl

/-- R72, R75: the instruction a shape builds from bytes is encoded as these bytes, as many as the
format has. -/
theorem encode_build {b : Nat → Byte} {sh : Shape} (h : sh.EncodedWith (b 0)) :
    encode (sh.build b) = (List.range sh.format.length).map b := by
  cases sh <;> simp only [Shape.EncodedWith] at h <;>
    simp [Shape.build, Shape.format, Format.length, List.range_succ, h, bytes16_imm16,
      bytes32_imm32]

theorem map_getD_range {bs : List Byte} {n : Nat} (h : n ≤ bs.length) :
    (List.range n).map (fun k => bs.getD k 0) = bs.take n := by
  apply List.ext_getElem
  · simpa using h
  · intro k _ hk
    have hk : k < bs.length := hk.trans_le (List.length_take_le' n bs)
    rw [List.getElem_map, List.getElem_range, List.getElem_take, List.getD_eq_getElem _ _ hk]

end Sys2Proof

namespace Sys2Proof.Machine

/-! ### What is encoded decodes -/

/-- Settles O1, by the agreement of the opcode map and the encoder on every instruction. -/
theorem decodeOfEncodeIsTheInstruction : Obligations.DecodeOfEncodeIsTheInstruction := by
  intro i rest hwf
  rw [decode_encode_append, if_pos hwf]

/-- Settles O4, from O1: each word is the encoding of a well-formed instruction, with no byte after
it. -/
theorem sampleWordsDecode : Obligations.SampleWordsDecode :=
  have decodes (i : Instr) (h : i.wellFormed = true) : decode (encode i ++ []) = .ok i :=
    decodeOfEncodeIsTheInstruction i [] h
  ⟨decodes (.int 3) rfl, decodes (.lcons 0 0x12345678) rfl, decodes (.pop2 2 3) rfl,
    decodes (.memcpy 0x30 0x20 4) rfl, decodes (.add 0 1 2) rfl, decodes (.fdiv 0 1) rfl,
    decodes (.jmp 4) rfl, decodes (.jnz 6 1) rfl, decodes (.reads 0x20 8) rfl⟩

/-! ### What decodes is its own encoding -/

/-- What the decoder read where it answers an instruction. -/
theorem exists_shape_of_decode_ok {bs : List Byte} {i : Instr} (h : decode bs = .ok i) :
    ∃ sh, shapeOf (bs.getD 0 0) = some sh ∧ sh.format.length ≤ bs.length ∧
      i = sh.build (fun k => bs.getD k 0) ∧ i.wellFormed = true := by
  cases bs with
  | nil => cases h
  | cons op bs =>
    cases hsh : shapeOf op with
    | none => rw [decode_unknown bs hsh] at h; cases h
    | some sh =>
      rcases Nat.lt_or_ge (op :: bs).length sh.format.length with hlen | hlen
      · rw [decode_truncated hsh hlen] at h; cases h
      · rw [decode_complete hsh hlen] at h
        split at h
        next hwf =>
          cases h
          exact ⟨sh, hsh, hlen, rfl, hwf⟩
        next => cases h

/-- Settles O2: the decoder builds the instruction from the bytes of its format, and the encoder
writes these bytes back. -/
theorem decodedBytesAreTheEncoding : Obligations.DecodedBytesAreTheEncoding := by
  intro bs i h
  obtain ⟨sh, hsh, hlen, hi, hwf⟩ := exists_shape_of_decode_ok h
  have hencode : encode i = bs.take sh.format.length :=
    calc encode i = (List.range sh.format.length).map fun k => bs.getD k 0 := by
          rw [hi, encode_build (encodedWith_of_shapeOf hsh)]
      _ = bs.take sh.format.length := map_getD_range hlen
  refine ⟨hwf, ?_⟩
  rw [hencode, List.length_take, Nat.min_eq_left hlen]

/-! ### The faults of decoding -/

/-- R74: an encoding that is cut short, whatever its register bytes (R79). -/
theorem decode_take_encode {i : Instr} {n : Nat} (hpos : 0 < n) (hn : n < (encode i).length) :
    decode ((encode i).take n) = .error .programOverrun := by
  obtain ⟨op, sh, hop, hsh, hlen, _⟩ := encoding_statement i
  obtain ⟨bs, hbs⟩ := List.head?_eq_some_iff.mp hop
  obtain ⟨m, rfl⟩ := Nat.exists_eq_add_one.mpr hpos
  have htake : (encode i).take (m + 1) = op :: bs.take m := by rw [hbs, List.take_succ_cons]
  have hcut : (op :: bs.take m).length < sh.format.length := by
    rw [← htake, List.length_take, ← hlen]
    omega
  rw [htake, decode_truncated hsh hcut]

/-- Settles O3: no byte at all, and a lemma about the decoder for each other fault. -/
theorem decodeFaultsInOrder : Obligations.DecodeFaultsInOrder := by
  refine ⟨rfl, fun op rest hop => ?_, fun i n hpos hn => ?_, fun i rest hwf => ?_⟩
  · exact decode_unknown rest (shapeOf_eq_none hop)
  · exact decode_take_encode hpos hn
  · rw [decode_encode_append, hwf]
    rfl

/-! ### The step -/

/-- R321: inside a run a step does what the fetched instruction does. -/
theorem step_of_fetch_ok {s : State} {budget icount : Word} {i : Instr}
    (hp : s.phase = .running budget icount) (h : s.fetch = .ok i) : step s = exec i s := by
  simp only [step, hp, State.dispatch, h]

/-- Settles O5: the fetch answers the instruction whose bytes lie at `IP`. -/
theorem stepRunsTheDecodedInstruction : Obligations.StepRunsTheDecodedInstruction := by
  intro s i budget icount hp hwf hlen hat
  have hfetch : s.fetch = .ok i := by rw [fetch_of_bytesAt hlen hat, if_pos hwf]
  exact step_of_fetch_ok hp hfetch

end Sys2Proof.Machine
end

section
/-! PROOFS. The system instructions `NOP` and `HALT` (O25) and `INT` (O26). -/

namespace Sys2Proof.Machine

/-! ### `NOP` and `HALT` -/

theorem exec_nop (s : State) : exec .nop s = .next (s.enter .F0).advance := attempt_ok rfl

theorem exec_halt (s : State) : exec .halt s = .next (s.endRun .finished) := rfl

/-- Settles O25: `NOP` falls through, and `HALT` ends the run where it stands. -/
theorem nopAdvancesAndHaltFinishes : Obligations.NopAdvancesAndHaltFinishes := fun s =>
  ⟨rfl, ⟨_, exec_nop s, jumpsTo_enter s .F0 rfl⟩,
    rfl, ⟨_, exec_halt s, endsUnchanged_endRun s .finished⟩⟩

/-! ### `INT` -/

theorem exec_int (code : Byte) (s : State) : exec (.int code) s = execInt code s := rfl

theorem afterCallback_ip (s : State) (x : Transaction) :
    (afterCallback s x).reg .ip = s.reg .ip := State.perform_ip _ _

/-- R102: the hook answers that the run goes on, at `a + 2` since no callback moves `IP`. -/
theorem int_completes_of_continues {s : State} {code : Byte} {h : Nat} (hh : s.hook = some h)
    (hc : (s.callback (.interrupt h code)).continues = true) :
    Completes (.int code) s (JumpsTo (afterCallback s (.interrupt h code)) (s.reg .ip + 2)) := by
  refine ⟨_, (exec_int code s).trans (execInt_continues code hh hc), ?_⟩
  rw [← afterCallback_ip s (.interrupt h code)]
  exact jumpsTo_enter _ .FB rfl

/-- R102, R316: the hook answers that the run stops. -/
theorem int_completes_of_stops {s : State} {code : Byte} {h : Nat} (hh : s.hook = some h)
    (hc : (s.callback (.interrupt h code)).continues = false) :
    Completes (.int code) s (EndsUnchanged (afterCallback s (.interrupt h code)) .finished) :=
  ⟨_, (exec_int code s).trans (execInt_stops code hh hc), endsUnchanged_endRun _ .finished⟩

/-- Settles O26, by the hook slot and the hook's answer; what the hook can leave is O23. -/
theorem intCallsTheHook : Obligations.IntCallsTheHook := by
  intro s code
  refine ⟨rfl, fun hnone => ?_, fun h hsome => ⟨?_, ?_, ?_⟩⟩
  · exact faults_of ((exec_int code s).trans (execInt_empty code hnone))
  · exact callbacksStayWithinTheAccessors s (.interrupt h code)
  · exact int_completes_of_continues hsome
  · exact int_completes_of_stops hsome

end Sys2Proof.Machine
end

section
/-! PROOFS. Data movement: the literal loads (O27); `MOV`, `U2I` and `I2U` (O28). -/

namespace Sys2Proof.Machine

/-! ### The literal loads -/

/-- R110 to R112: a meaning that is `literalForm` writes its literal. -/
theorem completes_literalForm {i : Instr} {s : State} {f : Format} {v : Word} {rd : Reg} {L : Nat}
    (hi : exec i s = literalForm f v (regByte rd) s) (hL : L = f.length) :
    Completes i s (Writes s L rd v) :=
  ⟨_, hi.trans (literalForm_next f v rd s), writes_advance s f hL rd v⟩

theorem exec_lcons (rd : RegByte) (d : Word) (s : State) :
    exec (.lcons rd d) s = literalForm .FRD d rd s := rfl

/-- R111: zero extension keeps the number the literal spells. -/
theorem exec_lconsw (rd : RegByte) (h : Half) (s : State) :
    exec (.lconsw rd h) s = literalForm .FRH (BitVec.ofNat 32 h.toNat) rd s := by
  rw [← zext16_eq]; rfl

/-- R112: zero extension keeps the number the literal spells. -/
theorem exec_lconsb (rd : RegByte) (b : Byte) (s : State) :
    exec (.lconsb rd b) s = literalForm .FRB (BitVec.ofNat 32 b.toNat) rd s := by
  rw [← zext8_eq]; rfl

/-- Settles O27: each load is `literalForm` on the zero-extended literal, and its operand bytes are
those of the literal, the least significant first. -/
theorem literalLoadsWriteTheZeroExtendedLiteral :
    Obligations.LiteralLoadsWriteTheZeroExtendedLiteral := by
  intro s rd d h b
  refine ⟨?_, ?_, ?_, ?_, rfl, ?_⟩
  · exact congrArg ([0x03, regByte rd] ++ ·) (bytes32_eq d)
  · exact completes_literalForm (exec_lcons (regByte rd) d s) rfl
  · exact congrArg ([0x04, regByte rd] ++ ·) (bytes16_eq h)
  · exact completes_literalForm (exec_lconsw (regByte rd) h s) rfl
  · exact completes_literalForm (exec_lconsb (regByte rd) b s) rfl

/-! ### `MOV`, `U2I` and `I2U` -/

/-- A register written with the value it holds: the state is as it was. -/
@[simp] theorem State.setReg_reg_self (s : State) (r : Reg) : s.setReg r (s.reg r) = s := by
  have hregs : (s.setReg r (s.reg r)).regs = s.regs := by
    refine State.regs_ext fun q => ?_
    rw [State.reg_setReg]
    split
    next hq => rw [hq]
    next => rfl
  calc s.setReg r (s.reg r) = { s with regs := (s.setReg r (s.reg r)).regs } := rfl
    _ = s := by rw [hregs]

theorem exec_mov (rd rs : RegByte) (s : State) : exec (.mov rd rs) s = moveForm id rd rs s := rfl

theorem exec_u2i (rd : RegByte) (s : State) : exec (.u2i rd) s = inPlaceForm id rd s := rfl

theorem exec_i2u (rd : RegByte) (s : State) : exec (.i2u rd) s = inPlaceForm id rd s := rfl

/-- R113: the source as it reads in the working state (R14), all 32 bits. -/
theorem completes_mov (s : State) (rd rs : Reg) :
    Completes (.mov (regByte rd) (regByte rs)) s (Writes s 3 rd (operand s 3 rs)) := by
  refine ⟨_, (exec_mov _ _ s).trans (moveForm_next id rd rs s), ?_⟩
  rw [id, reg_enter_operand s .FRR (L := 3) rfl]
  exact writes_advance s .FRR rfl rd _

/-- R188, R189: a meaning that writes back the register it read falls through; `IP` reads as the
instruction's last byte (R14), so writing it back moves nothing either. -/
theorem completes_inPlaceForm_id {i : Instr} {s : State} {rd : Reg}
    (hi : exec i s = inPlaceForm id (regByte rd) s) :
    Completes i s (JumpsTo s (s.reg .ip + 2)) := by
  refine ⟨_, hi.trans (inPlaceForm_next id rd s), ?_⟩
  rw [id, State.setReg_reg_self]
  exact jumpsTo_enter s .FR rfl

/-- Settles O28: `MOV` writes the source's bits, and `U2I` and `I2U` are one meaning, which writes
back what it read. -/
theorem movesCopyAllBits : Obligations.MovesCopyAllBits := fun s rd rs =>
  ⟨rfl, completes_mov s rd rs,
    rfl, completes_inPlaceForm_id (exec_u2i (regByte rd) s),
    rfl, completes_inPlaceForm_id (exec_i2u (regByte rd) s)⟩

end Sys2Proof.Machine
end

section
/-! PROOFS. The stack: what is pushed is popped (O33), and `PUSH` (O29), `POP` (O30), `POP2` (O31) and
`DUP` (O32) each on its own; call and return (O34). -/

namespace Sys2Proof.Machine

/-! ### The stack operations, by the condition on `SP` -/

/-- R14: the working state of an instruction has the `SP` it started with. -/
@[simp] theorem State.sp_enter (s : State) (f : Format) : (s.enter f).reg .sp = s.reg .sp := by
  rw [State.reg_enter, if_neg Reg.sp_ne_ip]

theorem State.pushWord_ok {s : State} (v : Word) (hlo : s.progLen + 4 < (s.reg .sp).toNat)
    (hhi : (s.reg .sp).toNat ≤ s.memSize) : s.pushWord v = .ok (s.pushed v) := by
  rcases s.pushWord_cases v with ⟨h, _⟩ | ⟨_, h, _⟩ | ⟨_, _, e⟩
  · omega
  · omega
  · exact e

theorem State.pushWord_overflow {s : State} (v : Word) (h : (s.reg .sp).toNat ≤ s.progLen + 4) :
    s.pushWord v = .error .stackOverflow := by
  rcases s.pushWord_cases v with ⟨_, e⟩ | ⟨h', _, _⟩ | ⟨h', _, _⟩
  · exact e
  · omega
  · omega

theorem State.pushWord_outside {s : State} (v : Word) (hlo : s.progLen + 4 < (s.reg .sp).toNat)
    (hhi : s.memSize < (s.reg .sp).toNat) : s.pushWord v = .error .invalidAddress := by
  rcases s.pushWord_cases v with ⟨h, _⟩ | ⟨_, _, e⟩ | ⟨_, h, _⟩
  · omega
  · exact e
  · omega

theorem State.topWord_ok {s : State} (hlo : s.progLen ≤ (s.reg .sp).toNat)
    (hhi : (s.reg .sp).toNat + 4 ≤ s.memSize) :
    s.topWord = .ok (BitVec.ofNat 32 (littleEndian s.mem (s.reg .sp).toNat 4)) := by
  rcases s.topWord_cases with ⟨h, _⟩ | ⟨_, _, h, _⟩ | ⟨_, _, e⟩
  · omega
  · omega
  · exact e

theorem State.topWord_underflow {s : State}
    (h : s.memSize ≤ (s.reg .sp).toNat ∨ (s.reg .sp).toNat < s.progLen) :
    s.topWord = .error .stackUnderflow := by
  rcases s.topWord_cases with ⟨_, e⟩ | ⟨_, _, _, _⟩ | ⟨_, _, _⟩
  · exact e
  · omega
  · omega

theorem State.topWord_outside {s : State} (hlo : s.progLen ≤ (s.reg .sp).toNat)
    (hin : (s.reg .sp).toNat < s.memSize) (hhi : s.memSize < (s.reg .sp).toNat + 4) :
    s.topWord = .error .invalidAddress := by
  rcases s.topWord_cases with ⟨h, _⟩ | ⟨_, _, _, e⟩ | ⟨_, h, _⟩
  · omega
  · exact e
  · omega

/-- The top is read off `SP` and memory, which entering an instruction leaves. -/
@[simp] theorem State.topWord_enter (s : State) (f : Format) :
    (s.enter f).topWord = s.topWord := by
  simp [State.topWord, State.memRead]

/-- R122: a pop answers what reading the top answers, and raises `SP`. -/
theorem State.popWord_enter_ok {s : State} (f : Format) {v : Word} (h : s.topWord = .ok v) :
    (s.enter f).popWord = .ok (v, (s.enter f).setReg .sp (s.reg .sp + 4)) := by
  simp [State.popWord, h]

theorem State.popWord_enter_error {s : State} (f : Format) {e : ExecResult}
    (h : s.topWord = .error e) : (s.enter f).popWord = .error e := by
  simp [State.popWord, h]

theorem State.popTwo_enter_ok {s : State} (f : Format) (hm : s.memSize < 2 ^ 32)
    (hlo : s.progLen ≤ (s.reg .sp).toNat) (hhi : (s.reg .sp).toNat + 8 ≤ s.memSize) :
    (s.enter f).popTwo = .ok (BitVec.ofNat 32 (littleEndian s.mem (s.reg .sp).toNat 4),
      BitVec.ofNat 32 (littleEndian s.mem ((s.reg .sp).toNat + 4) 4),
      (s.enter f).setReg .sp (s.reg .sp + 8)) := by
  have hcases := (s.enter f).popTwo_cases hm
  simp only [State.sp_enter, State.enter_mem, State.enter_memSize, State.enter_progLen] at hcases
  rcases hcases with ⟨h, _⟩ | ⟨_, _, h, _⟩ | ⟨_, _, e⟩
  · omega
  · omega
  · exact e

/-- R125: the check of either pop; it is on `SP` itself, so no address wraps before it. -/
theorem State.popTwo_underflow {s : State}
    (h : s.memSize ≤ (s.reg .sp).toNat + 4 ∨ (s.reg .sp).toNat < s.progLen) :
    s.popTwo = .error .stackUnderflow := by
  unfold State.popTwo
  split
  · rfl
  · rw [if_pos (by omega)]

theorem State.popTwo_outside {s : State} (hlo : s.progLen ≤ (s.reg .sp).toNat)
    (hin : (s.reg .sp).toNat + 4 < s.memSize) (hhi : s.memSize < (s.reg .sp).toNat + 8) :
    s.popTwo = .error .invalidAddress := by
  rw [State.popTwo, if_neg (by omega), if_neg (by omega), if_pos hhi]

/-! ### `PUSH` and `DUP` -/

/-- An instruction of length `L` completed and pushed `v`, and changed nothing else. -/
def Pushes (s : State) (L : Nat) (v : Word) (t : State) : Prop :=
  RegsAfterWrite s L .sp (s.reg .sp - 4) t ∧ MemoryAfterStore s ((s.reg .sp).toNat - 4) 4 v t ∧
    SameInstance s t ∧ NoTransaction s t ∧ Counted s t

theorem pushes_advance (s : State) (f : Format) {L : Nat} (hL : L = f.length) (v : Word) :
    Pushes s L v ((s.enter f).pushed v).advance := by
  refine ⟨fun r => ?_, memoryAfterStore_writeBytes _ _ _ _ _ (by simp),
    ⟨by simp, by simp, by simp, by simp, by simp⟩, ⟨by simp, by simp⟩, counted_advance rfl rfl⟩
  rw [State.reg_advance, State.reg_pushed, if_neg Reg.ip_ne_sp, enter_ip_succ s f hL]
  by_cases hr : r = .ip <;> simp [hr]

/-- R121: what a push stored is the word at the `SP` it left (R42, R44, R45). -/
theorem topWord_of_pushed {s : State} (f : Format) (v : Word)
    (hlo : s.progLen + 4 < (s.reg .sp).toNat) (hhi : (s.reg .sp).toNat ≤ s.memSize) :
    ((s.enter f).pushed v).advance.topWord = .ok v := by
  have hsp : (((s.enter f).pushed v).advance.reg .sp).toNat = (s.reg .sp).toNat - 4 := by
    rw [← toNat_sub_four (sp := s.reg .sp) (by omega)]
    simp
  have hmem : ((s.enter f).pushed v).advance.mem =
      s.mem.writeBytes ((s.reg .sp).toNat - 4) (leBytes 4 v.toNat) := by simp
  rw [State.topWord_ok, hsp, hmem, littleEndian_writeBytes,
    Nat.mod_eq_of_lt (show v.toNat < 256 ^ 4 from v.isLt), BitVec.ofNat_toNat, BitVec.setWidth_eq]
  · rw [hsp, State.advance_progLen, State.pushed_progLen, State.enter_progLen]
    omega
  · rw [hsp, State.advance_memSize, State.pushed_memSize, State.enter_memSize]
    omega

theorem exec_push (rs : RegByte) (s : State) : exec (.push rs) s = execPush rs s := rfl

theorem exec_dup (s : State) : exec .dup s = execDup s := rfl

/-- R123: the operand is read before the push lowers `SP`. -/
theorem exec_push_next {s : State} (rs : Reg) (hlo : s.progLen + 4 < (s.reg .sp).toNat)
    (hhi : (s.reg .sp).toNat ≤ s.memSize) :
    exec (.push (regByte rs)) s = .next ((s.enter .FR).pushed (operand s 2 rs)).advance := by
  rw [exec_push, ← reg_enter_operand s .FR (L := 2) rfl rs]
  exact execPush_next rs (State.pushWord_ok _ (by simpa using hlo) (by simpa using hhi))

/-- Settles O29, by the answers of the push. -/
theorem pushStoresAndLowersSp : Obligations.PushStoresAndLowersSp := by
  intro s rs
  refine ⟨rfl, fun hlo hhi => ?_, fun h => ?_, fun hlo hhi => ?_⟩
  · exact ⟨_, exec_push_next rs hlo hhi, pushes_advance s .FR rfl _⟩
  · exact faults_of (execPush_raise rs (State.pushWord_overflow _ (by simpa using h)))
  · exact faults_of (execPush_raise rs
      (State.pushWord_outside _ (by simpa using hlo) (by simpa using hhi)))

/-- Settles O32, by the answers of the read of the top and then of the push. -/
theorem dupPushesTheTop : Obligations.DupPushesTheTop := by
  intro s
  have htop := s.topWord_enter .F0
  refine ⟨rfl, fun hlo hhi => ?_, fun h => ?_, fun hlo hin hhi => ?_, fun hlo hhi h => ?_⟩
  · have hpush := State.pushWord_ok (s := s.enter .F0)
      (BitVec.ofNat 32 (littleEndian s.mem (s.reg .sp).toNat 4))
      (by simpa using hlo) (by rw [State.sp_enter, State.enter_memSize]; omega)
    have hread := htop.trans (State.topWord_ok (by omega) hhi)
    exact ⟨_, (exec_dup s).trans (execDup_next hread hpush), pushes_advance s .F0 rfl _⟩
  · exact faults_of (execDup_raise_top (htop.trans (State.topWord_underflow h)))
  · exact faults_of (execDup_raise_top (htop.trans (State.topWord_outside hlo hin hhi)))
  · exact faults_of (execDup_raise_push (htop.trans (State.topWord_ok hlo hhi))
      (State.pushWord_overflow _ (by simpa using h)))

/-! ### `POP` and `POP2` -/

/-- A working state that differs in registers only, then the advance. -/
theorem frame_advance {s w : State} (hw : w = { s with regs := w.regs }) :
    SameMemory s w.advance ∧ SameInstance s w.advance ∧ NoTransaction s w.advance ∧
      Counted s w.advance := by
  refine ⟨fun a => by rw [State.advance_mem, hw], ?_, ?_, counted_advance (by rw [hw]) (by rw [hw])⟩
  · rw [hw]; exact ⟨by simp, by simp, by simp, by simp, by simp⟩
  · rw [hw]; exact ⟨by simp, by simp⟩

/-- R15: where execution continues after a register was written last. -/
theorem setReg_ip_succ (w : State) (d : Reg) (v : Word) :
    (w.setReg d v).reg .ip + 1 = if d = .ip then v + 1 else w.reg .ip + 1 := by
  rw [State.reg_setReg, apply_ite (· + 1)]
  simp only [eq_comm]

theorem exec_pop (rd : RegByte) (s : State) : exec (.pop rd) s = execPop rd s := rfl

theorem exec_pop2 (rd1 rd2 : RegByte) (s : State) :
    exec (.pop2 rd1 rd2) s = execPop2 rd1 rd2 s := rfl

theorem exec_pop_next {s : State} (rd : Reg) {v : Word} (h : s.topWord = .ok v) :
    exec (.pop (regByte rd)) s =
      .next (((s.enter .FR).setReg .sp (s.reg .sp + 4)).setReg rd v).advance :=
  execPop_next rd (State.popWord_enter_ok .FR h)

/-- R122, R124: the registers after a pop, the write of `SP` before the write of `rd`. -/
theorem reg_after_pop (s : State) (rd : Reg) (v : Word) (r : Reg) :
    (((s.enter .FR).setReg .sp (s.reg .sp + 4)).setReg rd v).advance.reg r =
      if r = .ip then (if rd = .ip then v + 1 else s.reg .ip + 2)
      else if r = rd then v
      else if r = .sp then s.reg .sp + 4 else s.reg r := by
  rw [State.reg_advance, setReg_ip_succ, setReg_ip_succ, if_neg Reg.sp_ne_ip,
    enter_ip_succ s .FR (L := 2) rfl]
  by_cases hr : r = .ip <;> simp [hr]

/-- R125: the registers after a double pop, the second write last. -/
theorem reg_after_pop2 (s : State) (rd1 rd2 : Reg) (v1 v2 : Word) (r : Reg) :
    ((((s.enter .FRR).setReg .sp (s.reg .sp + 8)).setReg rd1 v1).setReg rd2 v2).advance.reg r =
      if r = .ip then
        (if rd2 = .ip then v2 + 1 else if rd1 = .ip then v1 + 1 else s.reg .ip + 3)
      else if r = rd2 then v2
      else if r = rd1 then v1
      else if r = .sp then s.reg .sp + 8 else s.reg r := by
  rw [State.reg_advance, setReg_ip_succ, setReg_ip_succ, setReg_ip_succ, if_neg Reg.sp_ne_ip,
    enter_ip_succ s .FRR (L := 3) rfl]
  by_cases hr : r = .ip <;> simp [hr]

/-- Settles O30, by the answers of the read of the top. -/
theorem popLoadsAndRaisesSp : Obligations.PopLoadsAndRaisesSp := by
  intro s rd v
  refine ⟨rfl, fun hlo hhi hv => ?_, fun h => ?_, fun hlo hin hhi => ?_⟩
  · subst hv
    exact ⟨_, exec_pop_next rd (State.topWord_ok hlo hhi), reg_after_pop s rd _, frame_advance rfl⟩
  · exact faults_of (execPop_raise rd (State.popWord_enter_error .FR (State.topWord_underflow h)))
  · exact faults_of (execPop_raise rd
      (State.popWord_enter_error .FR (State.topWord_outside hlo hin hhi)))

/-- Settles O31, by the answers of the double pop. -/
theorem pop2LoadsTwoWords : Obligations.Pop2LoadsTwoWords := by
  intro s rd1 rd2 v1 v2
  refine ⟨rfl, fun hm hlo hhi hv1 hv2 => ?_, fun h => ?_, fun hlo hin hhi => ?_⟩
  · subst hv1 hv2
    have hpop := execPop2_next rd1 rd2 (State.popTwo_enter_ok .FRR hm hlo hhi)
    exact ⟨_, (exec_pop2 _ _ s).trans hpop, reg_after_pop2 s rd1 rd2 _ _, frame_advance rfl⟩
  · exact faults_of (execPop2_raise rd1 rd2 (State.popTwo_underflow (by simpa using h)))
  · exact faults_of (execPop2_raise rd1 rd2 (State.popTwo_outside (by simpa using hlo)
      (by simpa using hin) (by simpa using hhi)))

/-! ### `PUSH` then `POP` -/

/-- Settles O33: the pop finds at the lowered `SP` the word the push left there, and raises `SP` by
what the push lowered it. -/
theorem pushThenPopIsExact : Obligations.PushThenPopIsExact := by
  intro s rs rd _ hlo hhi hrdip hrdsp
  obtain ⟨hregs, -, -, -, -⟩ := pushes_advance s .FR rfl (operand s 2 rs)
  have htop := topWord_of_pushed .FR (operand s 2 rs) hlo hhi
  refine ⟨_, _, exec_push_next rs hlo hhi, exec_pop_next rd htop, ?_, ?_, fun r hip hsp' hrd => ?_⟩
  · rw [reg_after_pop, if_neg hrdip, if_pos rfl]
  · rw [reg_after_pop, if_neg Reg.sp_ne_ip, if_neg hrdsp.symm, if_pos rfl, hregs .sp,
      if_neg Reg.sp_ne_ip, if_pos rfl, BitVec.sub_add_cancel]
  · rw [reg_after_pop, if_neg hip, if_neg hrd, if_neg hsp', hregs r, if_neg hip, if_neg hsp']

/-! ### `CALL` and `RET` -/

theorem exec_call (addr : Half) (s : State) : exec (.call addr) s = execCall addr s := rfl

theorem exec_ret (s : State) : exec .ret s = execRet s := rfl

/-- R127: the registers after a call. -/
theorem reg_after_call (s : State) (target : Word) (r : Reg) :
    (((s.enter .FH).setReg .ra (s.reg .ip + 3)).jump target).advance.reg r =
      if r = .ip then target else if r = .ra then s.reg .ip + 3 else s.reg r := by
  by_cases hr : r = .ip <;> simp [hr]

/-- Settles O34: a call writes `RA` and jumps; a return only jumps. -/
theorem callAndReturn : Obligations.CallAndReturn := by
  intro s addr
  refine ⟨?_, ?_, rfl, ?_⟩
  · exact congrArg ([0x0B] ++ ·) (bytes16_eq addr)
  · rw [← zext16_eq]
    exact ⟨_, (exec_call addr s).trans (execCall_next s addr), reg_after_call s _, frame_advance rfl⟩
  · exact ⟨_, (exec_ret s).trans (execRet_next s), jumpsTo_jump s .F0 _⟩

end Sys2Proof.Machine
end

section
/-! PROOFS. Stores (O35, O36), loads (O37, O38), a store then a load (O39), and block copy (O40). -/

namespace Sys2Proof.Machine

/-- R72, R75: the operand bytes of the absolute forms. -/
theorem absolute_bytes (op r : Byte) (addr : Half) :
    [op, r] ++ bytes16 addr = [op, r, addr.extractLsb' 0 8, addr.extractLsb' 8 8] :=
  congrArg ([op, r] ++ ·) (bytes16_eq addr)

/-! ### Stores -/

/-- R45, R141 to R146: a store of `n` bytes of `v` at `a`, by whether the range lies in memory. -/
def StoresOrFaults (i : Instr) (s : State) (L a n : Nat) (v : Word) : Prop :=
  (a + n ≤ s.memSize → Completes i s (Stores s L a n v)) ∧
    (s.memSize < a + n → Faults i s .invalidAddress)

/-- An instruction that is one `MemWrite` on its working state. -/
theorem storesOrFaults_of_memWrite {i : Instr} {s : State} {f : Format} {L n : Nat} {a v : Word}
    {body : State → Except ExecResult State} (hi : exec i s = attempt f s body)
    (hL : L = f.length) (hbody : body (s.enter f) = (s.enter f).memWrite a n v) :
    StoresOrFaults i s L a.toNat n v :=
  ⟨fun hin => ⟨_, hi.trans (attempt_ok (hbody.trans (State.memWrite_ok v hin))),
      stores_advance s f hL a.toNat n v⟩,
    fun hout => faults_of (hi.trans (attempt_error (hbody.trans (State.memWrite_error v hout))))⟩

theorem storesOrFaults_storeAbsForm {i : Instr} {s : State} {n : Nat} {r : Reg} {addr : Half}
    (hi : exec i s = storeAbsForm n (regByte r) addr s) :
    StoresOrFaults i s 4 addr.toNat n (operand s 4 r) := by
  rw [← zext16_toNat addr, ← reg_enter_operand s .FRH (L := 4) rfl r]
  exact storesOrFaults_of_memWrite hi rfl (by simp only [regOperand_regByte, ok_bind])

theorem storesOrFaults_storeIndForm {i : Instr} {s : State} {n : Nat} {r p : Reg}
    (hi : exec i s = storeIndForm n (regByte r) (regByte p) s) :
    StoresOrFaults i s 3 (operand s 3 p).toNat n (operand s 3 r) := by
  rw [← reg_enter_operand s .FRR (L := 3) rfl r, ← reg_enter_operand s .FRR (L := 3) rfl p]
  exact storesOrFaults_of_memWrite hi rfl (by simp only [regOperand_regByte, ok_bind])

section
variable (rs rp : RegByte) (addr : Half) (s : State)

theorem exec_stor : exec (.stor rs addr) s = storeAbsForm 4 rs addr s := rfl
theorem exec_storw : exec (.storw rs addr) s = storeAbsForm 2 rs addr s := rfl
theorem exec_storb : exec (.storb rs addr) s = storeAbsForm 1 rs addr s := rfl
theorem exec_storP : exec (.storP rs rp) s = storeIndForm 4 rs rp s := rfl
theorem exec_storwP : exec (.storwP rs rp) s = storeIndForm 2 rs rp s := rfl
theorem exec_storbP : exec (.storbP rs rp) s = storeIndForm 1 rs rp s := rfl

end

/-- Settles O35: each is `storeAbsForm` at its width. -/
theorem absoluteStoresWriteTheirBytes : Obligations.AbsoluteStoresWriteTheirBytes := by
  intro s rs addr
  obtain ⟨hword, hwordOut⟩ := storesOrFaults_storeAbsForm (exec_stor (regByte rs) addr s)
  obtain ⟨hhalf, hhalfOut⟩ := storesOrFaults_storeAbsForm (exec_storw (regByte rs) addr s)
  obtain ⟨hbyte, hbyteOut⟩ := storesOrFaults_storeAbsForm (exec_storb (regByte rs) addr s)
  exact ⟨absolute_bytes _ _ _, hword, hwordOut, absolute_bytes _ _ _, hhalf, hhalfOut,
    absolute_bytes _ _ _, hbyte, hbyteOut⟩

/-- Settles O36: each is `storeIndForm` at its width. -/
theorem indirectStoresWriteTheirBytes : Obligations.IndirectStoresWriteTheirBytes := by
  intro s rs rp
  obtain ⟨hword, hwordOut⟩ := storesOrFaults_storeIndForm (exec_storP (regByte rs) (regByte rp) s)
  obtain ⟨hhalf, hhalfOut⟩ := storesOrFaults_storeIndForm (exec_storwP (regByte rs) (regByte rp) s)
  obtain ⟨hbyte, hbyteOut⟩ := storesOrFaults_storeIndForm (exec_storbP (regByte rs) (regByte rp) s)
  exact ⟨rfl, hword, hwordOut, rfl, hhalf, hhalfOut, rfl, hbyte, hbyteOut⟩

/-! ### Loads -/

/-- R44, R147 to R152: a load of `n` bytes at `a` to `d`, by whether the range lies in memory. -/
def LoadsOrFaults (i : Instr) (s : State) (L : Nat) (d : Reg) (a n : Nat) : Prop :=
  (a + n ≤ s.memSize → Completes i s (Writes s L d (BitVec.ofNat 32 (littleEndian s.mem a n)))) ∧
    (s.memSize < a + n → Faults i s .invalidAddress)

/-- An instruction that writes what one `MemRead` on its working state answers; the address is found
before the write. -/
theorem loadsOrFaults_of_memRead {i : Instr} {s : State} {f : Format} {L n : Nat} {a : Word}
    {d : Reg} {body : State → Except ExecResult State} (hi : exec i s = attempt f s body)
    (hL : L = f.length)
    (hbody : body (s.enter f) = do
      let v ← (s.enter f).memRead a n
      return (s.enter f).setReg d v) :
    LoadsOrFaults i s L d a.toNat n := by
  refine ⟨fun hin => ?_, fun hout => ?_⟩
  · rw [State.memRead_ok (s := s.enter f) hin, ok_bind] at hbody
    exact ⟨_, hi.trans (attempt_ok hbody), writes_advance s f hL d _⟩
  · rw [State.memRead_error (s := s.enter f) hout, error_bind] at hbody
    exact faults_of (hi.trans (attempt_error hbody))

theorem loadsOrFaults_loadAbsForm {i : Instr} {s : State} {n : Nat} {d : Reg} {addr : Half}
    (hi : exec i s = loadAbsForm n (regByte d) addr s) :
    LoadsOrFaults i s 4 d addr.toNat n := by
  rw [← zext16_toNat addr]
  exact loadsOrFaults_of_memRead hi rfl (by simp only [regOperand_regByte, ok_bind])

theorem loadsOrFaults_loadIndForm {i : Instr} {s : State} {n : Nat} {d p : Reg}
    (hi : exec i s = loadIndForm n (regByte d) (regByte p) s) :
    LoadsOrFaults i s 3 d (operand s 3 p).toNat n := by
  rw [← reg_enter_operand s .FRR (L := 3) rfl p]
  exact loadsOrFaults_of_memRead hi rfl (by simp only [regOperand_regByte, ok_bind])

/-- A group of one byte spells that byte. -/
theorem littleEndian_one (m : Memory) (a : Nat) : littleEndian m a 1 = (m.read a).toNat := rfl

section
variable (rd rp : RegByte) (addr : Half) (s : State)

theorem exec_load : exec (.load rd addr) s = loadAbsForm 4 rd addr s := rfl
theorem exec_loadw : exec (.loadw rd addr) s = loadAbsForm 2 rd addr s := rfl
theorem exec_loadb : exec (.loadb rd addr) s = loadAbsForm 1 rd addr s := rfl
theorem exec_loadP : exec (.loadP rd rp) s = loadIndForm 4 rd rp s := rfl
theorem exec_loadwP : exec (.loadwP rd rp) s = loadIndForm 2 rd rp s := rfl
theorem exec_loadbP : exec (.loadbP rd rp) s = loadIndForm 1 rd rp s := rfl

end

/-- Settles O37: each is `loadAbsForm` at its width. -/
theorem absoluteLoadsZeroExtend : Obligations.AbsoluteLoadsZeroExtend := by
  intro s rd addr
  obtain ⟨hword, hwordOut⟩ := loadsOrFaults_loadAbsForm (exec_load (regByte rd) addr s)
  obtain ⟨hhalf, hhalfOut⟩ := loadsOrFaults_loadAbsForm (exec_loadw (regByte rd) addr s)
  obtain ⟨hbyte, hbyteOut⟩ := loadsOrFaults_loadAbsForm (exec_loadb (regByte rd) addr s)
  rw [littleEndian_one] at hbyte
  exact ⟨absolute_bytes _ _ _, hword, hwordOut, absolute_bytes _ _ _, hhalf, hhalfOut,
    absolute_bytes _ _ _, hbyte, hbyteOut⟩

/-- Settles O38: each is `loadIndForm` at its width. -/
theorem indirectLoadsZeroExtend : Obligations.IndirectLoadsZeroExtend := by
  intro s rd rp
  obtain ⟨hword, hwordOut⟩ := loadsOrFaults_loadIndForm (exec_loadP (regByte rd) (regByte rp) s)
  obtain ⟨hhalf, hhalfOut⟩ := loadsOrFaults_loadIndForm (exec_loadwP (regByte rd) (regByte rp) s)
  obtain ⟨hbyte, hbyteOut⟩ := loadsOrFaults_loadIndForm (exec_loadbP (regByte rd) (regByte rp) s)
  rw [littleEndian_one] at hbyte
  exact ⟨rfl, hword, hwordOut, rfl, hhalf, hhalfOut, rfl, hbyte, hbyteOut⟩

/-! ### A store then a load -/

/-- R42, R44, R45: the bytes a store left spell the low `n` bytes of what it stored. -/
theorem MemoryAfterStore.littleEndian_eq {s t : State} {a n : Nat} {v : Word}
    (h : MemoryAfterStore s a n v t) : littleEndian t.mem a n = v.toNat % 256 ^ n := by
  obtain ⟨hbytes, -⟩ := h
  obtain ⟨hwritten, -⟩ := memoryAfterStore_writeBytes s
    { s with mem := s.mem.writeBytes a (leBytes n v.toNat) } a n v rfl
  rw [← littleEndian_writeBytes n v.toNat s.mem a]
  refine littleEndian_congr n _ _ a fun x hlo hhi => ?_
  obtain ⟨k, rfl⟩ := Nat.exists_eq_add_of_le hlo
  rw [hbytes k (by omega), hwritten k (by omega)]

theorem SameInstance.memSize_eq {s t : State} (h : SameInstance s t) : t.memSize = s.memSize := by
  obtain ⟨-, hprog, hcap, -⟩ := h
  rw [State.memSize, State.memSize, hprog, hcap]

/-- The low `n` bytes of a word, zero-extended. -/
theorem ofNat_mod_eq_setWidth_extractLsb' (v : Word) (n : Nat) :
    BitVec.ofNat 32 (v.toNat % 256 ^ n) = (v.extractLsb' 0 (8 * n)).setWidth 32 := by
  apply BitVec.eq_of_toNat_eq
  simp [pow_mul]

/-- What an absolute store of `n` bytes leaves, the load of `n` bytes at its address reads. -/
theorem storeAbsForm_then_loadAbsForm {i j : Instr} {s : State} {n : Nat} {rs rd : Reg}
    {addr : Half} (hi : exec i s = storeAbsForm n (regByte rs) addr s)
    (hj : ∀ t, exec j t = loadAbsForm n (regByte rd) addr t) (hrd : rd ≠ .ip)
    (hin : addr.toNat + n ≤ s.memSize) :
    ∃ t u, exec i s = .next t ∧ exec j t = .next u ∧
      u.reg rd = ((operand s 4 rs).extractLsb' 0 (8 * n)).setWidth 32 := by
  obtain ⟨hstore, -⟩ := storesOrFaults_storeAbsForm hi
  obtain ⟨t, ht, -, hmem, hinst, -⟩ := hstore hin
  obtain ⟨hload, -⟩ := loadsOrFaults_loadAbsForm (hj t)
  obtain ⟨u, hu, hregs, -⟩ := hload (hinst.memSize_eq ▸ hin)
  refine ⟨t, u, ht, hu, ?_⟩
  rw [hregs rd, if_neg hrd, if_pos rfl, hmem.littleEndian_eq, ofNat_mod_eq_setWidth_extractLsb']

/-- Settles O39, at the three widths; the low four bytes of a word are the word. -/
theorem storeThenLoadRoundTrips : Obligations.StoreThenLoadRoundTrips := by
  intro s rs rd addr hrd
  refine ⟨fun hin => ?_, fun hin => ?_, fun hin => ?_⟩
  · have hword : ((operand s 4 rs).extractLsb' 0 (8 * 4)).setWidth 32 = operand s 4 rs := by simp
    rw [← hword]
    exact storeAbsForm_then_loadAbsForm (exec_stor _ addr s) (exec_load _ addr) hrd hin
  · exact storeAbsForm_then_loadAbsForm (exec_storw _ addr s) (exec_loadw _ addr) hrd hin
  · exact storeAbsForm_then_loadAbsForm (exec_storb _ addr s) (exec_loadb _ addr) hrd hin

/-! ### Block copy -/

/-- R155: an instruction of length `L` completed, copied `n` bytes forward from `r` to `d`, and
changed nothing else. -/
def Copies (s : State) (L d r n : Nat) (t : State) : Prop :=
  RegsAfter s L t ∧
    ((∀ k, k < n →
        t.mem.read (d + k) = s.mem.read (r + if r < d then k % (d - r) else k)) ∧
      ∀ x, x < d ∨ d + n ≤ x → t.mem.read x = s.mem.read x) ∧
    SameInstance s t ∧ NoTransaction s t ∧ Counted s t

/-- R153 to R155: a block copy, by whether both ranges lie in memory. -/
def CopiesOrFaults (i : Instr) (s : State) (L d r n : Nat) : Prop :=
  (r + n ≤ s.memSize → d + n ≤ s.memSize → Completes i s (Copies s L d r n)) ∧
    (s.memSize < r + n ∨ s.memSize < d + n → Faults i s .invalidAddress)

/-- A forward copy in the working state, then the advance. -/
theorem copies_advance (s : State) (f : Format) {L : Nat} (hL : L = f.length) (d r n : Nat) :
    Copies s L d r n (State.advance { s.enter f with mem := s.mem.copyForward d r n }) := by
  obtain ⟨hregs, hinst, htrace, hcount⟩ := regsAfter_advance s f hL (s.mem.copyForward d r n)
  refine ⟨hregs, ⟨fun k hk => ?_, fun x hx => ?_⟩, hinst, htrace, hcount⟩
  · rw [State.advance_mem, Memory.read_copyForward n s.mem d r k hk]
  · rw [State.advance_mem, Memory.read_copyForward_outside n s.mem d r x hx]

/-- An instruction that is one `BlockCopy` on its working state. -/
theorem copiesOrFaults_of_blockCopy {i : Instr} {s : State} {f : Format} {L : Nat} {d r n : Word}
    {body : State → Except ExecResult State} (hi : exec i s = attempt f s body)
    (hL : L = f.length) (hbody : body (s.enter f) = (s.enter f).blockCopy d r n) :
    CopiesOrFaults i s L d.toNat r.toNat n.toNat := by
  have hcases := (s.enter f).blockCopy_cases d r n
  rw [State.enter_memSize, ← hbody] at hcases
  rcases hcases with ⟨hsrc, hdst, hok⟩ | ⟨hout, herr⟩
  · exact ⟨fun _ _ => ⟨_, hi.trans (attempt_ok hok), copies_advance s f hL _ _ _⟩,
      fun hout => by omega⟩
  · exact ⟨fun hsrc hdst => by omega, fun _ => faults_of (hi.trans (attempt_error herr))⟩

theorem copiesOrFaults_memcpy (s : State) (dst src len : Half) :
    CopiesOrFaults (.memcpy dst src len) s 7 dst.toNat src.toNat len.toNat := by
  rw [← zext16_toNat dst, ← zext16_toNat src, ← zext16_toNat len]
  have hi : exec (.memcpy dst src len) s = execMemcpy dst src len s := rfl
  exact copiesOrFaults_of_blockCopy hi rfl rfl

theorem copiesOrFaults_memcpyP (s : State) (rdst rsrc rlen : Reg) :
    CopiesOrFaults (.memcpyP (regByte rdst) (regByte rsrc) (regByte rlen)) s 4
      (operand s 4 rdst).toNat (operand s 4 rsrc).toNat (operand s 4 rlen).toNat := by
  rw [← reg_enter_operand s .FRRR (L := 4) rfl rdst, ← reg_enter_operand s .FRRR (L := 4) rfl rsrc,
    ← reg_enter_operand s .FRRR (L := 4) rfl rlen]
  have hi : exec (.memcpyP (regByte rdst) (regByte rsrc) (regByte rlen)) s =
    execMemcpyP (regByte rdst) (regByte rsrc) (regByte rlen) s := rfl
  exact copiesOrFaults_of_blockCopy hi rfl (by simp only [regOperand_regByte, ok_bind])

theorem encode_memcpy (dst src len : Half) :
    encode (.memcpy dst src len) =
      [0x19, dst.extractLsb' 0 8, dst.extractLsb' 8 8, src.extractLsb' 0 8, src.extractLsb' 8 8,
        len.extractLsb' 0 8, len.extractLsb' 8 8] := by
  simp [encode, bytes16_eq]

/-- Settles O40: both are one block copy, at literal operands or at register operands. -/
theorem blockCopiesForwardOrFaults : Obligations.BlockCopiesForwardOrFaults := by
  intro s dst src len rdst rsrc rlen copied
  obtain ⟨habs, habsOut⟩ := copiesOrFaults_memcpy s dst src len
  obtain ⟨hind, hindOut⟩ := copiesOrFaults_memcpyP s rdst rsrc rlen
  exact ⟨encode_memcpy dst src len, habs, habsOut, rfl, hind, hindOut⟩

end Sys2Proof.Machine
end

section
/-! PROOFS. The integer ALU: the three-operand and the one-operand results (O41, O42), subtraction and
shifts (O43), unsigned and signed division (O44, O45). -/

namespace Sys2Proof.Machine

/-! ### The forms, by what the operation gives on the operands -/

/-- R170: a meaning that is `inPlaceForm` writes what its operation gives. -/
theorem completes_inPlaceForm {i : Instr} {s : State} {op : Word → Word} {rd : Reg} {v : Word}
    (hi : exec i s = inPlaceForm op (regByte rd) s) (hv : op (operand s 2 rd) = v) :
    Completes i s (Writes s 2 rd v) := by
  refine ⟨_, hi.trans (inPlaceForm_next op rd s), ?_⟩
  rw [reg_enter_operand s .FR (L := 2) rfl, hv]
  exact writes_advance s .FR rfl rd v

/-- R170: a meaning that is `threeForm` writes what its operation gives. -/
theorem completes_threeForm {i : Instr} {s : State} {op : Word → Word → Word} {rd ra rb : Reg}
    {v : Word} (hi : exec i s = threeForm op (regByte rd) (regByte ra) (regByte rb) s)
    (hv : op (operand s 4 ra) (operand s 4 rb) = v) : Completes i s (Writes s 4 rd v) := by
  refine ⟨_, hi.trans (threeForm_next op rd ra rb s), ?_⟩
  rw [reg_enter_operand s .FRRR (L := 4) rfl, reg_enter_operand s .FRRR (L := 4) rfl, hv]
  exact writes_advance s .FRRR rfl rd v

section
variable {i : Instr} {s : State} {op : Word → Word → Except ExecResult Word} {rd rs : Reg}

/-- R170: a meaning that is `accumulateForm` writes what its operation gives. -/
theorem completes_accumulateForm {v : Word}
    (hi : exec i s = accumulateForm op (regByte rd) (regByte rs) s)
    (hv : op (operand s 3 rd) (operand s 3 rs) = .ok v) : Completes i s (Writes s 3 rd v) := by
  rw [← reg_enter_operand s .FRR (L := 3) rfl, ← reg_enter_operand s .FRR (L := 3) rfl] at hv
  exact ⟨_, hi.trans (accumulateForm_next op rd rs s hv), writes_advance s .FRR rfl rd v⟩

/-- R170, R313: a meaning that is `accumulateForm` raises what its operation raises. -/
theorem faults_accumulateForm {e : ExecResult}
    (hi : exec i s = accumulateForm op (regByte rd) (regByte rs) s)
    (he : op (operand s 3 rd) (operand s 3 rs) = .error e) : Faults i s e := by
  rw [← reg_enter_operand s .FRR (L := 3) rfl, ← reg_enter_operand s .FRR (L := 3) rfl] at he
  exact faults_of (hi.trans (accumulateForm_raise op rd rs s he))

end

/-! ### The form of each instruction -/

section
variable (rd ra rb rs : RegByte) (s : State)

theorem exec_inc : exec (.inc rd) s = inPlaceForm (· + 1) rd s := rfl
theorem exec_dec : exec (.dec rd) s = inPlaceForm (· - 1) rd s := rfl
theorem exec_not : exec (.not rd) s = inPlaceForm (~~~ ·) rd s := rfl
theorem exec_add : exec (.add rd ra rb) s = threeForm (· + ·) rd ra rb s := rfl
theorem exec_mul : exec (.mul rd ra rb) s = threeForm (· * ·) rd ra rb s := rfl
theorem exec_and : exec (.and rd ra rb) s = threeForm (· &&& ·) rd ra rb s := rfl
theorem exec_or : exec (.or rd ra rb) s = threeForm (· ||| ·) rd ra rb s := rfl
theorem exec_xor : exec (.xor rd ra rb) s = threeForm (· ^^^ ·) rd ra rb s := rfl
theorem exec_imul : exec (.imul rd ra rb) s = threeForm mulS rd ra rb s := rfl
theorem exec_sub : exec (.sub rd rs) s = accumulateForm (fun a b => .ok (a - b)) rd rs s := rfl
theorem exec_shl :
    exec (.shl rd rs) s = accumulateForm (fun a b => .ok (shiftLeft a b)) rd rs s := rfl
theorem exec_shr :
    exec (.shr rd rs) s = accumulateForm (fun a b => .ok (shiftRight a b)) rd rs s := rfl
theorem exec_ishr :
    exec (.ishr rd rs) s = accumulateForm (fun a b => .ok (shiftRightS a b)) rd rs s := rfl
theorem exec_div : exec (.div rd rs) s = accumulateForm divU rd rs s := rfl
theorem exec_mod : exec (.mod rd rs) s = accumulateForm modU rd rs s := rfl
theorem exec_idiv : exec (.idiv rd rs) s = accumulateForm divS rd rs s := rfl
theorem exec_imod : exec (.imod rd rs) s = accumulateForm modS rd rs s := rfl

end

/-! ### Sums, differences, products and the complement in integers -/

section
variable (a b : Word)

/-- R171. -/
theorem add_one_eq_ofNat : a + 1 = BitVec.ofNat 32 (a.toNat + 1) := BitVec.add_def a 1

/-- R174. -/
theorem sub_eq_ofInt : a - b = BitVec.ofInt 32 ((a.toNat : Int) - b.toNat) := by
  rw [BitVec.sub_eq_add_neg, sub_eq_add_neg, BitVec.ofInt_add, BitVec.ofInt_neg,
    BitVec.ofInt_natCast, BitVec.ofInt_natCast, BitVec.ofNat_toNat, BitVec.ofNat_toNat,
    BitVec.setWidth_eq, BitVec.setWidth_eq]

/-- R175. -/
theorem mul_eq_ofNat : a * b = BitVec.ofNat 32 (a.toNat * b.toNat) := by
  apply BitVec.eq_of_toNat_eq
  rw [BitVec.toNat_mul, BitVec.toNat_ofNat]

/-- R184: modulo 2^32 the signed product is the unsigned one. -/
theorem mulS_eq_mul : mulS a b = a * b := by
  rw [mulS, BitVec.ofInt_mul, BitVec.ofInt_toInt, BitVec.ofInt_toInt]

/-- R183. -/
theorem not_eq_ofNat : ~~~a = BitVec.ofNat 32 (2 ^ 32 - 1 - a.toNat) := by
  apply BitVec.eq_of_toNat_eq
  rw [BitVec.toNat_not, BitVec.toNat_ofNat, Nat.mod_eq_of_lt (by omega)]

/-! ### Shifts in integers -/

theorem shiftAmount_eq : shiftAmount b = b.toNat % 32 := by
  simp [shiftAmount]

/-- R178. -/
theorem shiftLeft_eq_ofNat : shiftLeft a b = BitVec.ofNat 32 (a.toNat * 2 ^ (b.toNat % 32)) := by
  apply BitVec.eq_of_toNat_eq
  rw [shiftLeft, shiftAmount_eq, BitVec.toNat_shiftLeft, Nat.shiftLeft_eq, BitVec.toNat_ofNat]

/-- R179. -/
theorem shiftRight_eq_ofNat : shiftRight a b = BitVec.ofNat 32 (a.toNat / 2 ^ (b.toNat % 32)) := by
  apply BitVec.eq_of_toNat_eq
  rw [shiftRight, shiftAmount_eq, BitVec.toNat_ushiftRight, Nat.shiftRight_eq_div_pow,
    BitVec.toNat_ofNat, Nat.mod_eq_of_lt (lt_of_le_of_lt (Nat.div_le_self _ _) a.isLt)]

/-- R187: copies of bit 31 make the shift a division rounded down. -/
theorem shiftRightS_eq_ofInt :
    shiftRightS a b = BitVec.ofInt 32 (a.toInt / 2 ^ (b.toNat % 32)) := by
  have hfloor : (shiftRightS a b).toInt = a.toInt / 2 ^ (b.toNat % 32) := by
    rw [shiftRightS, shiftAmount_eq, BitVec.toInt_sshiftRight, Int.shiftRight_eq_div_pow]
    norm_cast
  rw [← hfloor, BitVec.ofInt_toInt]

end

/-! ### Division -/

section
variable (a : Word) {b : Word}

theorem divU_of_eq_zero (hb : b = 0) : divU a b = .error .divisionByZero := if_pos hb
theorem modU_of_eq_zero (hb : b = 0) : modU a b = .error .divisionByZero := if_pos hb
theorem divS_of_eq_zero (hb : b = 0) : divS a b = .error .divisionByZero := if_pos hb
theorem modS_of_eq_zero (hb : b = 0) : modS a b = .error .divisionByZero := if_pos hb

/-- R176. -/
theorem divU_of_ne_zero (hb : b ≠ 0) : divU a b = .ok (a / b) := by
  rw [divU, if_neg hb, BitVec.udiv_def]

/-- R177. -/
theorem modU_of_ne_zero (hb : b ≠ 0) : modU a b = .ok (a % b) := by
  rw [modU, if_neg hb, BitVec.umod_def]

/-- R185: the model's quotient is the library's signed division. -/
theorem divS_of_ne_zero (hb : b ≠ 0) : divS a b = .ok (a.sdiv b) := by
  have hq : BitVec.ofInt 32 (a.toInt.tdiv b.toInt) = a.sdiv b := by
    rw [← BitVec.toInt_inj, BitVec.toInt_ofInt, BitVec.toInt_sdiv]
  rw [divS, if_neg hb, hq]

/-- R186: the model's remainder is the library's signed remainder. -/
theorem modS_of_ne_zero (hb : b ≠ 0) : modS a b = .ok (a.srem b) := by
  rw [modS, if_neg hb, ← Int.tmod_def, ← BitVec.toInt_srem, BitVec.ofInt_toInt]

/-- R176, R177: the law of division, which fixes quotient and remainder. -/
theorem unsigned_division_law (hb : b ≠ 0) :
    a.toNat = (a / b).toNat * b.toNat + (a % b).toNat ∧ (a % b).toNat < b.toNat := by
  have hpos : 0 < b.toNat := Nat.pos_of_ne_zero fun h => hb (BitVec.eq_of_toNat_eq h)
  rw [BitVec.toNat_udiv, BitVec.toNat_umod]
  exact ⟨(Nat.div_add_mod' _ _).symm, Nat.mod_lt _ hpos⟩

/-- R186: a truncated remainder is smaller than the divisor and has the sign of the dividend. -/
theorem tmod_bounds (x : Int) {y : Int} (hy : y ≠ 0) :
    |x.tmod y| < |y| ∧ (0 ≤ x → 0 ≤ x.tmod y) ∧ (x ≤ 0 → x.tmod y ≤ 0) := by
  refine ⟨?_, Int.tmod_nonneg y, fun hx => ?_⟩
  · rw [Int.abs_eq_natAbs, Int.abs_eq_natAbs, Int.natAbs_tmod]
    exact_mod_cast Nat.mod_lt _ (Int.natAbs_pos.mpr hy)
  · have hneg : 0 ≤ (-x).tmod y := Int.tmod_nonneg y (by omega)
    rw [Int.neg_tmod] at hneg
    omega

/-- R185, R186: the one quotient beyond 32 bits is that of −2^31 by −1; every other is exact. -/
theorem signed_division_law (hb : b ≠ 0) :
    if a = 0x80000000 ∧ b = 0xFFFFFFFF then a.sdiv b = 0x80000000 ∧ a.srem b = 0
    else a.toInt = (a.sdiv b).toInt * b.toInt + (a.srem b).toInt ∧
      |(a.srem b).toInt| < |b.toInt| ∧
      (0 ≤ a.toInt → 0 ≤ (a.srem b).toInt) ∧ (a.toInt ≤ 0 → (a.srem b).toInt ≤ 0) := by
  split
  case isTrue hoverflow =>
    obtain ⟨rfl, rfl⟩ := hoverflow
    decide
  case isFalse hexact =>
    have hdivisor : b.toInt ≠ 0 := fun h => hb (BitVec.eq_of_toInt_eq h)
    rw [BitVec.toInt_sdiv_of_ne_or_ne a b (not_and_or.mp hexact), BitVec.toInt_srem]
    exact ⟨(Int.tdiv_mul_add_tmod _ _).symm, tmod_bounds a.toInt hdivisor⟩

end

/-! ### The statements -/

/-- Settles O41: each is `threeForm` at its operation; `IMUL` is so at an operation equal to that of
`MUL`. -/
theorem threeOperandIntegerResults : Obligations.ThreeOperandIntegerResults := by
  rintro s rd ra rb A B rfl rfl
  refine ⟨rfl, ?add, rfl, ?mul, rfl, ?and, rfl, ?or, rfl, ?xor, rfl, ?imul, ?same⟩
  case add => exact completes_threeForm (exec_add _ _ _ s) (BitVec.add_def _ _)
  case mul => exact completes_threeForm (exec_mul _ _ _ s) (mul_eq_ofNat _ _)
  case and => exact completes_threeForm (exec_and _ _ _ s) rfl
  case or => exact completes_threeForm (exec_or _ _ _ s) rfl
  case xor => exact completes_threeForm (exec_xor _ _ _ s) rfl
  case imul => exact completes_threeForm (exec_imul _ _ _ s) rfl
  case same => rw [exec_imul, exec_mul, funext₂ mulS_eq_mul]

/-- Settles O42: each is `inPlaceForm` at its operation. -/
theorem oneOperandIntegerResults : Obligations.OneOperandIntegerResults := by
  rintro s rd A rfl
  refine ⟨rfl, ?inc, rfl, ?dec, rfl, ?not⟩
  case inc => exact completes_inPlaceForm (exec_inc _ s) (add_one_eq_ofNat _)
  case dec => exact completes_inPlaceForm (exec_dec _ s) (sub_eq_ofInt _ 1)
  case not => exact completes_inPlaceForm (exec_not _ s) (not_eq_ofNat _)

/-- Settles O43: each is `accumulateForm` at an operation that raises nothing. -/
theorem subtractionAndShiftResults : Obligations.SubtractionAndShiftResults := by
  rintro s rd rs A B rfl rfl
  refine ⟨rfl, ?sub, rfl, ?shl, rfl, ?shr, rfl, ?ishr⟩
  case sub => exact completes_accumulateForm (exec_sub _ _ s) (congrArg _ (sub_eq_ofInt _ _))
  case shl => exact completes_accumulateForm (exec_shl _ _ s) (congrArg _ (shiftLeft_eq_ofNat _ _))
  case shr => exact completes_accumulateForm (exec_shr _ _ s) (congrArg _ (shiftRight_eq_ofNat _ _))
  case ishr =>
    exact completes_accumulateForm (exec_ishr _ _ s) (congrArg _ (shiftRightS_eq_ofInt _ _))

/-- Settles O44: the quotient and the remainder are `A / B` and `A % B`. -/
theorem unsignedDivisionLaw : Obligations.UnsignedDivisionLaw := by
  rintro s rd rs A B rfl rfl
  refine ⟨rfl, rfl, fun hne => ⟨_, _, ?div, ?mod, unsigned_division_law _ hne⟩, fun hzero => ?zero⟩
  case div => exact completes_accumulateForm (exec_div _ _ s) (divU_of_ne_zero _ hne)
  case mod => exact completes_accumulateForm (exec_mod _ _ s) (modU_of_ne_zero _ hne)
  case zero =>
    exact ⟨faults_accumulateForm (exec_div _ _ s) (divU_of_eq_zero _ hzero),
      faults_accumulateForm (exec_mod _ _ s) (modU_of_eq_zero _ hzero)⟩

/-- Settles O45: the quotient and the remainder are the signed division and remainder of `A` and `B`,
the overflow of the first included. -/
theorem signedDivisionLaw : Obligations.SignedDivisionLaw := by
  rintro s rd rs A B rfl rfl
  refine ⟨rfl, rfl, fun hne => ⟨_, _, ?idiv, ?imod, signed_division_law _ hne⟩, fun hzero => ?zero⟩
  case idiv => exact completes_accumulateForm (exec_idiv _ _ s) (divS_of_ne_zero _ hne)
  case imod => exact completes_accumulateForm (exec_imod _ _ s) (modS_of_ne_zero _ hne)
  case zero =>
    exact ⟨faults_accumulateForm (exec_idiv _ _ s) (divS_of_eq_zero _ hzero),
      faults_accumulateForm (exec_imod _ _ s) (modS_of_eq_zero _ hzero)⟩

end Sys2Proof.Machine
end

section
/-! PROOFS. The floating-point ALU: correctly rounded sums (O46), products and quotients (O47), and the
conversions `I2F` (O48) and `F2I` (O49). -/

namespace Sys2Proof.Machine

/-! ### Patterns and the data they stand for -/

/-- R7: a finite pattern is its sign bit and a number of units of 2^-149. -/
theorem f32_of_finiteValue {v : Word} {x : ℚ} (h : finiteValue v = some x) :
    ∃ m, f32 v = .fin v.msb m ∧ x = ((signed v.msb m : Int) : ℚ) / 2 ^ 149 := by
  obtain ⟨neg, p, hp, rfl, rfl⟩ := finiteValue_some h
  have hmsb : (withSign neg p).msb = neg := withSign_msb neg (by omega)
  rw [hmsb]
  exact ⟨magOf p, f32_withSign neg hp, rfl⟩

/-- R216: inverting bit 31 inverts the sign of the datum, an infinity's and a zero's included. -/
theorem f32_invert_sign (v : Word) : f32 (v ^^^ 0x80000000) = negate (f32 v) := by
  have hmsb : (v ^^^ 0x80000000).msb = !v.msb := by
    rw [BitVec.msb_xor, show (0x80000000 : Word).msb = true by decide, Bool.xor_true]
  have hexp : (v ^^^ 0x80000000).extractLsb' 23 8 = v.extractLsb' 23 8 := by
    rw [BitVec.extractLsb'_xor, show (0x80000000 : Word).extractLsb' 23 8 = 0 by decide,
      BitVec.ofNat_eq_ofNat, BitVec.xor_zero]
  have hfrac : (v ^^^ 0x80000000).extractLsb' 0 23 = v.extractLsb' 0 23 := by
    rw [BitVec.extractLsb'_xor, show (0x80000000 : Word).extractLsb' 0 23 = 0 by decide,
      BitVec.ofNat_eq_ofNat, BitVec.xor_zero]
  simp only [f32, hmsb, hexp, hfrac]
  split
  · split <;> rfl
  · split <;> rfl

/-! ### Signs and magnitudes -/

theorem signed_natAbs (z : Int) : signed (decide (z < 0)) z.natAbs = z := by
  unfold signed
  simp only [decide_eq_true_eq]
  split <;> omega

theorem signed_eq_zero {neg : Bool} {m : Nat} : signed neg m = 0 ↔ m = 0 := by
  cases neg <;> simp [signed]

theorem signed_mul_signed (na nb : Bool) (ma mb : Nat) :
    signed na ma * signed nb mb = signed (na ^^ nb) (ma * mb) := by
  cases na <;> cases nb <;> simp [signed]

/-- A whole number as units of 2^-149. -/
theorem units_of_whole (neg : Bool) (m : Nat) :
    ((signed neg (m * 2 ^ 149) : Int) : ℚ) / 2 ^ 149 = (signed neg m : Int) := by
  have hcancel : ((m * 2 ^ 149 : Nat) : ℚ) / 2 ^ 149 = m := by
    rw [Nat.cast_mul, Nat.cast_pow, Nat.cast_ofNat, mul_div_cancel_right₀ _ (by positivity)]
  cases neg with
  | false => exact hcancel
  | true =>
    simp only [signed, if_true, Int.cast_neg, Int.cast_natCast, neg_div, hcancel]

/-- A number of units is zero exactly when its magnitude is. -/
theorem units_eq_zero {neg : Bool} {m : Nat} :
    ((signed neg m : Int) : ℚ) / 2 ^ 149 = 0 ↔ m = 0 := by
  rw [div_eq_zero_iff, Int.cast_eq_zero, signed_eq_zero, or_iff_left (by positivity)]

theorem units_mul_units (na nb : Bool) (ma mb : Nat) :
    ((signed na ma : Int) : ℚ) / 2 ^ 149 * (((signed nb mb : Int) : ℚ) / 2 ^ 149) =
      ((signed (na ^^ nb) (ma * mb) : Int) : ℚ) / ((2 ^ 149 : Nat) : ℚ) / 2 ^ 149 := by
  rw [← signed_mul_signed]
  push_cast
  ring

theorem units_div_units (na nb : Bool) (ma mb : Nat) :
    ((signed na ma : Int) : ℚ) / 2 ^ 149 / (((signed nb mb : Int) : ℚ) / 2 ^ 149) =
      ((signed (na ^^ nb) (ma * 2 ^ 149) : Int) : ℚ) / (mb : ℚ) / 2 ^ 149 := by
  have hunit : (2 : ℚ) ^ 149 ≠ 0 := by positivity
  rw [div_div_div_cancel_right₀ hunit, div_right_comm, units_of_whole]
  cases na <;> cases nb <;> simp [signed, neg_div, div_neg]

/-! ### Sums -/

/-- R211: the exact sum of two finite data, not zero, is rounded once. -/
theorem roundsTo_sum {z : Int} (hz : z ≠ 0) :
    RoundsTo ((z : ℚ) / 2 ^ 149) (withSign (decide (z < 0)) (roundMag z.natAbs 1)) := by
  have h := roundsTo_withSign (decide (z < 0)) z.natAbs 1 one_pos (Int.natAbs_pos.mpr hz)
  rwa [signed_natAbs, Nat.cast_one, div_one] at h

/-- R211, R212, R221: the sum of two data, where it is none a NaN, is the IEEE-754 sum. -/
theorem isSum_addData (a b : Word) {nan : Word} (hnan : IsNaN nan) :
    IsSum a b ((addData (f32 a) (f32 b)).getD nan) := by
  refine ⟨?finite, ?infFinite, ?finiteInf, ?infSame, ?infOpposite, ?nan⟩
  case finite =>
    intro x y hx hy
    obtain ⟨ma, hfa, rfl⟩ := f32_of_finiteValue hx
    obtain ⟨mb, hfb, rfl⟩ := f32_of_finiteValue hy
    rw [← add_div, ← Int.cast_add, hfa, hfb]
    set z := signed a.msb ma + signed b.msb mb with hz
    have hzero : (z : ℚ) / 2 ^ 149 = 0 ↔ z = 0 := by simp
    refine ⟨fun h => ?_, fun h => ?_⟩
    · have hz0 : z ≠ 0 := mt hzero.mpr h
      simpa [addData, ← hz, hz0] using roundsTo_sum hz0
    · have hz0 : z = 0 := hzero.mp h
      simp [addData, ← hz, hz0, roundMag_zero, withSign_zero]
  case infFinite =>
    rintro n y rfl hy
    obtain ⟨mb, hfb, -⟩ := f32_of_finiteValue hy
    rw [f32_infinityBits, hfb]
    exact infinity_eq n
  case finiteInf =>
    rintro n x hx rfl
    obtain ⟨ma, hfa, -⟩ := f32_of_finiteValue hx
    rw [f32_infinityBits, hfa]
    exact infinity_eq n
  case infSame =>
    rintro n rfl rfl
    simp [f32_infinityBits, addData, infinity_eq]
  case infOpposite =>
    rintro n rfl rfl
    simpa [f32_infinityBits, addData] using hnan
  case nan =>
    rintro (ha | hb)
    · rw [f32_nan ha]; exact hnan
    · rw [f32_nan hb]; cases f32 a <;> exact hnan

theorem isSum_fadd (op : FloatOp) (a b : Word) : IsSum a b (fadd op a b) :=
  isSum_addData a b (isNaN_nanResult op a b)

/-- R216: the difference is the sum with the sign of the second inverted. -/
theorem isSum_fsub (op : FloatOp) (a b : Word) : IsSum a (b ^^^ 0x80000000) (fsub op a b) := by
  rw [fsub, ← f32_invert_sign]
  exact isSum_addData a _ (isNaN_nanResult op a b)

/-! ### Products and quotients -/

/-- R217, R221: the IEEE-754 product. -/
theorem isProduct_fmul (a b : Word) : IsProduct a b (fmul a b) := by
  have hnan := isNaN_nanResult .fmul a b
  refine ⟨?finite, ?infFinite, ?finiteInf, ?infInf, ?nan⟩
  case finite =>
    intro x y hx hy
    obtain ⟨ma, hfa, rfl⟩ := f32_of_finiteValue hx
    obtain ⟨mb, hfb, rfl⟩ := f32_of_finiteValue hy
    have hv : fmul a b = withSign (a.msb ^^ b.msb) (roundMag (ma * mb) (2 ^ 149)) := by
      rw [fmul, hfa, hfb]; rfl
    rw [hv]
    refine ⟨fun h => ?_, fun h => ?_⟩
    · obtain ⟨ha, hb⟩ := mul_ne_zero_iff.mp h
      rw [units_mul_units]
      exact roundsTo_withSign _ _ _ (by positivity)
        (Nat.mul_pos (Nat.pos_of_ne_zero (mt units_eq_zero.mpr ha))
          (Nat.pos_of_ne_zero (mt units_eq_zero.mpr hb)))
    · have hm : ma * mb = 0 := by
        simpa only [mul_eq_zero, units_eq_zero] using h
      rw [hm, roundMag_zero, withSign_zero]
  case infFinite =>
    rintro n y rfl hy
    obtain ⟨mb, hfb, rfl⟩ := f32_of_finiteValue hy
    rw [Ne, units_eq_zero, fmul, f32_infinityBits, hfb]
    refine ⟨fun h => ?_, fun h => ?_⟩
    · simp [mulData, h, infinity_eq]
    · simpa [mulData, h] using hnan
  case finiteInf =>
    rintro n x hx rfl
    obtain ⟨ma, hfa, rfl⟩ := f32_of_finiteValue hx
    rw [Ne, units_eq_zero, fmul, f32_infinityBits, hfa]
    refine ⟨fun h => ?_, fun h => ?_⟩
    · simp [mulData, h, infinity_eq]
    · simpa [mulData, h] using hnan
  case infInf =>
    rintro n k rfl rfl
    rw [fmul, f32_infinityBits, f32_infinityBits]
    exact infinity_eq _
  case nan =>
    rintro (ha | hb)
    · rw [fmul, f32_nan ha]; exact hnan
    · rw [fmul, f32_nan hb]; cases f32 a <;> exact hnan

/-- R218, R221: the IEEE-754 quotient; a zero divisor gives an infinity or a NaN. -/
theorem isQuotient_fdiv (a b : Word) : IsQuotient a b (fdiv a b) := by
  have hnan := isNaN_nanResult .fdiv a b
  refine ⟨?finite, ?infFinite, ?finiteInf, ?infInf, ?nan⟩
  case finite =>
    intro x y hx hy
    obtain ⟨ma, hfa, rfl⟩ := f32_of_finiteValue hx
    obtain ⟨mb, hfb, rfl⟩ := f32_of_finiteValue hy
    rw [units_div_units]
    simp only [Ne, units_eq_zero, fdiv, hfa, hfb]
    refine ⟨fun ha hb => ?_, fun ha hb => ?_, fun ha hb => ?_, fun ha hb => ?_⟩
    · have hnum : 0 < ma * 2 ^ 149 := Nat.mul_pos (Nat.pos_of_ne_zero ha) (by positivity)
      simpa [divData, hb] using roundsTo_withSign _ _ _ (Nat.pos_of_ne_zero hb) hnum
    · simp [divData, ha, hb, roundMag_zero, withSign_zero]
    · simp [divData, ha, hb, infinity_eq]
    · simpa [divData, ha, hb] using hnan
  case infFinite =>
    rintro n y rfl hy
    obtain ⟨mb, hfb, -⟩ := f32_of_finiteValue hy
    rw [fdiv, f32_infinityBits, hfb]
    exact infinity_eq _
  case finiteInf =>
    rintro n x hx rfl
    obtain ⟨ma, hfa, -⟩ := f32_of_finiteValue hx
    rw [fdiv, f32_infinityBits, hfa]
    exact withSign_zero _
  case infInf =>
    rintro n k rfl rfl
    rw [fdiv, f32_infinityBits, f32_infinityBits]
    exact hnan
  case nan =>
    rintro (ha | hb)
    · rw [fdiv, f32_nan ha]; exact hnan
    · rw [fdiv, f32_nan hb]; cases f32 a <;> exact hnan

/-! ### Conversions -/

/-- R219: 0 gives +0. -/
theorem i2f_zero : i2f 0 = 0 := by
  simp [i2f, roundMag_zero, withSign_zero, zeroBits]

/-- R219: the signed integer is a whole number of units, rounded once. -/
theorem roundsTo_i2f {a : Word} (ha : a ≠ 0) : RoundsTo (a.toInt : ℚ) (i2f a) := by
  have hint : a.toInt ≠ 0 := fun h => ha (BitVec.eq_of_toInt_eq h)
  have hnum : 0 < a.toInt.natAbs * 2 ^ 149 :=
    Nat.mul_pos (Int.natAbs_pos.mpr hint) (by positivity)
  have h := roundsTo_withSign (decide (a.toInt < 0)) _ 1 one_pos hnum
  rwa [Nat.cast_one, div_one, units_of_whole, signed_natAbs] at h

/-- R220: the whole units of 1 in a magnitude, with the sign, are the number truncated toward zero. -/
theorem truncate_units (neg : Bool) (m : Nat) (x : ℚ)
    (hx : x = ((signed neg m : Int) : ℚ) / 2 ^ 149) :
    (if 0 ≤ x then ⌊x⌋ else ⌈x⌉) = signed neg (m / 2 ^ 149) := by
  have hfloor : ⌊(m : ℚ) / 2 ^ 149⌋ = ((m / 2 ^ 149 : Nat) : Int) := by
    exact_mod_cast Rat.floor_natCast_div_natCast m (2 ^ 149)
  have hnonneg : (0 : ℚ) ≤ m / 2 ^ 149 := by positivity
  cases neg with
  | false =>
    have hx' : x = m / 2 ^ 149 := by simpa [signed] using hx
    rw [hx', if_pos hnonneg, hfloor]
    rfl
  | true =>
    have hx' : x = -(m / 2 ^ 149) := by simpa [signed, neg_div] using hx
    have hceil : ⌈x⌉ = signed true (m / 2 ^ 149) := by
      rw [hx', Int.ceil_neg, hfloor]
      rfl
    split
    next h =>
      have hzero : x = 0 := by linarith
      rw [← hceil, hzero, Int.floor_zero, Int.ceil_zero]
    next => exact hceil

theorem f2i_of_finite {a : Word} {x : ℚ} {n : Int} (h : finiteValue a = some x)
    (hn : n = if 0 ≤ x then ⌊x⌋ else ⌈x⌉) :
    f2i a = if -(2 ^ 31) ≤ n ∧ n ≤ 2 ^ 31 - 1 then BitVec.ofInt 32 n else Config.f2iInvalid a := by
  obtain ⟨m, hfa, hx⟩ := f32_of_finiteValue h
  obtain rfl : n = signed a.msb (m / 2 ^ 149) := hn.trans (truncate_units _ _ _ hx)
  simp only [f2i, hfa, ← not_le, ← not_and_or, ite_not]

theorem f2i_of_not_finite {a : Word} (h : finiteValue a = none) : f2i a = Config.f2iInvalid a := by
  unfold finiteValue at h
  unfold f2i
  cases ha : f32 a with
  | nan => rfl
  | inf neg => rfl
  | fin neg m => rw [ha] at h; simp at h

/-! ### The form of each instruction -/

/-- A meaning that is `moveForm` writes what its operation gives. -/
theorem completes_moveForm {i : Instr} {s : State} {op : Word → Word} {rd rs : Reg} {v : Word}
    (hi : exec i s = moveForm op (regByte rd) (regByte rs) s) (hv : op (operand s 3 rs) = v) :
    Completes i s (Writes s 3 rd v) := by
  refine ⟨_, hi.trans (moveForm_next op rd rs s), ?_⟩
  rw [reg_enter_operand s .FRR (L := 3) rfl, hv]
  exact writes_advance s .FRR rfl rd v

section
variable (rd ra rb rs : RegByte) (s : State)

theorem exec_finc : exec (.finc rd) s = inPlaceForm (fun a => fadd .finc a oneBits) rd s := rfl
theorem exec_fdec : exec (.fdec rd) s = inPlaceForm (fun a => fsub .fdec a oneBits) rd s := rfl
theorem exec_fadd : exec (.fadd rd ra rb) s = threeForm (fadd .fadd) rd ra rb s := rfl
theorem exec_fsub :
    exec (.fsub rd rs) s = accumulateForm (fun a b => .ok (fsub .fsub a b)) rd rs s := rfl
theorem exec_fmul : exec (.fmul rd ra rb) s = threeForm fmul rd ra rb s := rfl
theorem exec_fdiv :
    exec (.fdiv rd rs) s = accumulateForm (fun a b => .ok (fdiv a b)) rd rs s := rfl
theorem exec_i2f : exec (.i2f rd rs) s = moveForm i2f rd rs s := rfl
theorem exec_f2i : exec (.f2i rd rs) s = moveForm f2i rd rs s := rfl

end

/-! ### The statements -/

/-- Settles O46: each writes `fadd` or `fsub` of its sources; −1.0 is 1.0 with the sign inverted. -/
theorem floatSumsAreCorrectlyRounded : Obligations.FloatSumsAreCorrectlyRounded := by
  intro s rd ra rb
  refine ⟨rfl, ⟨_, ?fadd, isSum_fadd .fadd _ _⟩, rfl, ⟨_, ?fsub, isSum_fsub .fsub _ _⟩,
    rfl, ⟨_, ?finc, isSum_fadd .finc _ oneBits⟩, rfl, ⟨_, ?fdec, isSum_fsub .fdec _ oneBits⟩⟩
  case fadd => exact completes_threeForm (exec_fadd _ _ _ s) rfl
  case fsub => exact completes_accumulateForm (exec_fsub _ _ s) rfl
  case finc => exact completes_inPlaceForm (exec_finc _ s) rfl
  case fdec => exact completes_inPlaceForm (exec_fdec _ s) rfl

/-- Settles O47: `FMUL` writes `fmul` of its sources and `FDIV` `fdiv`, which raises nothing. -/
theorem floatProductsAndQuotientsAreCorrectlyRounded :
    Obligations.FloatProductsAndQuotientsAreCorrectlyRounded := by
  intro s rd ra rb
  refine ⟨rfl, ⟨_, ?fmul, isProduct_fmul _ _⟩, rfl, ⟨_, ?fdiv, isQuotient_fdiv _ _⟩⟩
  case fmul => exact completes_threeForm (exec_fmul _ _ _ s) rfl
  case fdiv => exact completes_accumulateForm (exec_fdiv _ _ s) rfl

/-- Settles O48: `I2F` writes `i2f` of its source. -/
theorem intToFloatRounds : Obligations.IntToFloatRounds := by
  intro s rd rs
  refine ⟨rfl, _, completes_moveForm (exec_i2f _ _ s) rfl, fun hzero => ?_, roundsTo_i2f⟩
  rw [hzero, i2f_zero]

/-- Settles O49: `F2I` writes `f2i` of its source, which says both cases. -/
theorem floatToIntTruncates : Obligations.FloatToIntTruncates := by
  intro s rd rs
  refine ⟨rfl, fun x n hx hn => ?finite, fun hnone => ?notFinite⟩
  case finite => exact completes_moveForm (exec_f2i _ _ s) (f2i_of_finite hx hn)
  case notFinite => exact completes_moveForm (exec_f2i _ _ s) (f2i_of_not_finite hnone)

end Sys2Proof.Machine
end

section
/-! PROOFS. The jumps: unconditional (O50), on one register being zero or not (O51), and on a
comparison of two registers (O52). -/

namespace Sys2Proof.Machine

/-! ### The encoding -/

/-- R72, R75: the bytes of a jump with a target and register operands. -/
theorem jump_bytes (op : Byte) (addr : Half) (rs : List Byte) :
    [op] ++ bytes16 addr ++ rs = op :: addr.extractLsb' 0 8 :: addr.extractLsb' 8 8 :: rs :=
  congrArg ([op] ++ · ++ rs) (bytes16_eq addr)

/-! ### The jump forms, by what their condition says of the operands -/

section
variable {P : Prop} [Decidable P]

/-- R240: taken or not, the one change is where execution continues. -/
theorem jumpsTo_branch (s : State) (f : Format) {L : Nat} (hL : L = f.length) {taken : Bool}
    (hP : taken = true ↔ P) (target : Word) :
    JumpsTo s (if P then target else s.reg .ip + BitVec.ofNat 32 L)
      (if taken then (s.enter f).jump target else s.enter f).advance := by
  by_cases h : P
  · rw [if_pos h, if_pos (hP.mpr h)]
    exact jumpsTo_jump s f target
  · rw [if_neg h, if_neg (mt hP.mp h)]
    exact jumpsTo_enter s f hL

variable {i : Instr} {s : State}

/-- R243, R244: a meaning that is `jumpOneForm` is taken when its condition holds of the operand. -/
theorem completes_jumpOneForm {taken : Word → Bool} {addr : Half} {ra : Reg}
    (hi : exec i s = jumpOneForm taken addr (regByte ra) s)
    (hP : taken (operand s 4 ra) = true ↔ P) :
    Completes i s (JumpsTo s (if P then BitVec.ofNat 32 addr.toNat else s.reg .ip + 4)) := by
  refine ⟨_, hi.trans (jumpOneForm_next taken addr ra s), ?_⟩
  rw [reg_enter_operand s .FHR (L := 4) rfl, ← zext16_eq]
  exact jumpsTo_branch s .FHR rfl hP _

/-- R245 to R254: a meaning that is `jumpTwoForm` is taken when its comparison holds of the
operands, the first on the left. -/
theorem completes_jumpTwoForm {c : Cond} {addr : Half} {ra rb : Reg}
    (hi : exec i s = jumpTwoForm c addr (regByte ra) (regByte rb) s)
    (hP : condHolds c (operand s 5 ra) (operand s 5 rb) = true ↔ P) :
    Completes i s (JumpsTo s (if P then BitVec.ofNat 32 addr.toNat else s.reg .ip + 5)) := by
  refine ⟨_, hi.trans (jumpTwoForm_next c addr ra rb s), ?_⟩
  rw [reg_enter_operand s .FHRR (L := 5) rfl, reg_enter_operand s .FHRR (L := 5) rfl, ← zext16_eq]
  exact jumpsTo_branch s .FHRR rfl hP _

end

/-! ### The conditions as facts about numbers (R255) -/

section
variable (a b : Word)

/-- R243. -/
theorem beq_zero_iff : (a == 0) = true ↔ a.toNat = 0 := by
  rw [beq_iff_eq, ← BitVec.toNat_inj]; rfl

/-- R244. -/
theorem bne_zero_iff : (a != 0) = true ↔ a.toNat ≠ 0 := by
  rw [bne_iff_ne, ne_eq, ← BitVec.toNat_inj]; rfl

theorem condHolds_eq : condHolds .eq a b = true ↔ a.toNat = b.toNat :=
  beq_iff_eq.trans BitVec.toNat_inj.symm

theorem condHolds_ne : condHolds .ne a b = true ↔ a.toNat ≠ b.toNat :=
  bne_iff_ne.trans (not_congr BitVec.toNat_inj.symm)

theorem condHolds_ltu : condHolds .ltu a b = true ↔ a.toNat < b.toNat := BitVec.ult_iff_toNat_lt
theorem condHolds_leu : condHolds .leu a b = true ↔ a.toNat ≤ b.toNat := BitVec.ule_iff_toNat_le
theorem condHolds_lts : condHolds .lts a b = true ↔ a.toInt < b.toInt := BitVec.slt_iff_toInt_lt
theorem condHolds_les : condHolds .les a b = true ↔ a.toInt ≤ b.toInt := BitVec.sle_iff_toInt_le
theorem condHolds_gtu : condHolds .gtu a b = true ↔ a.toNat > b.toNat := condHolds_ltu b a
theorem condHolds_geu : condHolds .geu a b = true ↔ a.toNat ≥ b.toNat := condHolds_leu b a
theorem condHolds_gts : condHolds .gts a b = true ↔ a.toInt > b.toInt := condHolds_lts b a
theorem condHolds_ges : condHolds .ges a b = true ↔ a.toInt ≥ b.toInt := condHolds_les b a

end

/-! ### The form of each instruction -/

section
variable (addr : Half) (ra rb rs : RegByte) (s : State)

theorem exec_jmp : exec (.jmp addr) s = execJmp addr s := rfl
theorem exec_jr : exec (.jr rs) s = execJr rs s := rfl
theorem exec_jz : exec (.jz addr ra) s = jumpOneForm (· == 0) addr ra s := rfl
theorem exec_jnz : exec (.jnz addr ra) s = jumpOneForm (· != 0) addr ra s := rfl
theorem exec_je : exec (.je addr ra rb) s = jumpTwoForm .eq addr ra rb s := rfl
theorem exec_jne : exec (.jne addr ra rb) s = jumpTwoForm .ne addr ra rb s := rfl
theorem exec_ja : exec (.ja addr ra rb) s = jumpTwoForm .gtu addr ra rb s := rfl
theorem exec_jg : exec (.jg addr ra rb) s = jumpTwoForm .gts addr ra rb s := rfl
theorem exec_jae : exec (.jae addr ra rb) s = jumpTwoForm .geu addr ra rb s := rfl
theorem exec_jge : exec (.jge addr ra rb) s = jumpTwoForm .ges addr ra rb s := rfl
theorem exec_jb : exec (.jb addr ra rb) s = jumpTwoForm .ltu addr ra rb s := rfl
theorem exec_jl : exec (.jl addr ra rb) s = jumpTwoForm .lts addr ra rb s := rfl
theorem exec_jbe : exec (.jbe addr ra rb) s = jumpTwoForm .leu addr ra rb s := rfl
theorem exec_jle : exec (.jle addr ra rb) s = jumpTwoForm .les addr ra rb s := rfl

end

/-! ### The statements -/

/-- Settles O50: neither form has a condition, and no target is looked at. -/
theorem unconditionalJumps : Obligations.UnconditionalJumps := by
  intro s addr rs
  refine ⟨jump_bytes _ _ [], ?jmp, rfl, ?jr⟩
  case jmp =>
    rw [← zext16_eq]
    exact ⟨_, (exec_jmp addr s).trans (execJmp_next s addr), jumpsTo_jump s .FH _⟩
  case jr =>
    rw [← reg_enter_operand s .FR (L := 2) rfl]
    exact ⟨_, (exec_jr _ s).trans (execJr_next s rs), jumpsTo_jump s .FR _⟩

/-- Settles O51: each is `jumpOneForm` at its condition. -/
theorem jumpsOnZero : Obligations.JumpsOnZero := by
  intro s addr ra
  refine ⟨jump_bytes _ _ _, ?jz, jump_bytes _ _ _, ?jnz⟩
  case jz => exact completes_jumpOneForm (exec_jz _ _ s) (beq_zero_iff _)
  case jnz => exact completes_jumpOneForm (exec_jnz _ _ s) (bne_zero_iff _)

/-- Settles O52: each is `jumpTwoForm` at its comparison. -/
theorem jumpsOnComparison : Obligations.JumpsOnComparison := by
  rintro s addr ra rb A B rfl rfl
  refine ⟨jump_bytes _ _ _, ?je, jump_bytes _ _ _, ?jne, jump_bytes _ _ _, ?ja,
    jump_bytes _ _ _, ?jg, jump_bytes _ _ _, ?jae, jump_bytes _ _ _, ?jge,
    jump_bytes _ _ _, ?jb, jump_bytes _ _ _, ?jl, jump_bytes _ _ _, ?jbe,
    jump_bytes _ _ _, ?jle⟩
  case je => exact completes_jumpTwoForm (exec_je _ _ _ s) (condHolds_eq _ _)
  case jne => exact completes_jumpTwoForm (exec_jne _ _ _ s) (condHolds_ne _ _)
  case ja => exact completes_jumpTwoForm (exec_ja _ _ _ s) (condHolds_gtu _ _)
  case jg => exact completes_jumpTwoForm (exec_jg _ _ _ s) (condHolds_gts _ _)
  case jae => exact completes_jumpTwoForm (exec_jae _ _ _ s) (condHolds_geu _ _)
  case jge => exact completes_jumpTwoForm (exec_jge _ _ _ s) (condHolds_ges _ _)
  case jb => exact completes_jumpTwoForm (exec_jb _ _ _ s) (condHolds_ltu _ _)
  case jl => exact completes_jumpTwoForm (exec_jl _ _ _ s) (condHolds_lts _ _)
  case jbe => exact completes_jumpTwoForm (exec_jbe _ _ _ s) (condHolds_leu _ _)
  case jle => exact completes_jumpTwoForm (exec_jle _ _ _ s) (condHolds_les _ _)

end Sys2Proof.Machine
end

section
/-! PROOFS. How every instruction and every step ends (O8, O9, O10), what the trace of the ports may
hold (O12), a fault taken again (O17), and a run resumed (O16). -/

namespace Sys2Proof.Machine

/-! ### Every end is a next state -/

theorem Ends.exists_next {s : State} {x : Result} (h : Ends s x) : ∃ t, x = .next t := by
  cases h with
  | completes w _ => exact ⟨_, rfl⟩
  | faults e _ => exact ⟨_, rfl⟩
  | stops t _ _ => exact ⟨_, rfl⟩

theorem step_exists_next (s : State) : ∃ t, step s = .next t := by
  rcases s.phase.idle_or_running with hp | ⟨budget, icount, hp⟩
  · rcases step_eq_of_idle hp with ⟨_, e⟩ | ⟨_, _, _, e⟩
    · exact ⟨_, e⟩
    · exact ⟨_, e⟩
  · exact (step_ends_of_running hp).exists_next

/-- Settles O8: no way an instruction can end is a stop of the machine, and the idle unit only
serves the host. -/
theorem everyInstructionAndStepAnswersNext : Obligations.EveryInstructionAndStepAnswersNext :=
  ⟨fun i s => (exec_ends i s).1.exists_next, step_exists_next⟩

/-! ### It counts, or it ends the run -/

/-- R313, R316: the run has ended with a result that is not `Paused`, `IP` still at the instruction;
if that is a fault, nothing else changed. -/
structure EndsRun (s : State) (r : ExecResult) (t : State) : Prop where
  ne_paused : r ≠ .paused
  phase : t.phase = .idle
  replies : t.replies = .result r :: s.replies
  ip : t.reg .ip = s.reg .ip
  fault : r.isFault = true → t = s.endRun r

theorem ne_paused_of_isFault {r : ExecResult} (h : r.isFault = true) : r ≠ .paused := by
  rintro rfl
  cases h

theorem endsRun_endRun (s : State) {e : ExecResult} (h : e.isFault = true) :
    EndsRun s e (s.endRun e) :=
  ⟨ne_paused_of_isFault h, rfl, rfl, rfl, fun _ => rfl⟩

theorem Worked.endsRun_finished {s w : State} (h : Worked s w) (hip : w.reg .ip = s.reg .ip) :
    EndsRun s .finished (w.endRun .finished) :=
  ⟨nofun, rfl, congrArg (_ :: ·) h.replies, hip, nofun⟩

/-- R313, R316, R321: what the run sees of how an instruction ends. -/
theorem Ends.counted_or_endsRun {s t : State} (h : Ends s (.next t)) :
    Counted s t ∨ ∃ r, EndsRun s r t := by
  cases h with
  | completes w hw => exact .inl (counted_advance hw.phase hw.replies)
  | faults e he => exact .inr ⟨e, endsRun_endRun s he⟩
  | stops w hw hip => exact .inr ⟨.finished, hw.endsRun_finished hip⟩

/-- An instruction whose end gives the host another result than `Paused` ended the run with it. -/
theorem Ends.endsRun_of_replies {s t : State} (h : Ends s (.next t)) {r : ExecResult}
    (hr : r ≠ .paused) (hrep : t.replies = .result r :: s.replies) : EndsRun s r t := by
  rcases h.counted_or_endsRun with hcounted | ⟨e, hend⟩
  · exact absurd hrep (hcounted.replies_ne hr)
  · obtain rfl : e = r := by simpa using hend.replies.symm.trans hrep
    exact hend

/-- Settles O9: the one end that gives the host a fault is the fault taken before every change. -/
theorem faultsArePrecise : Obligations.FaultsArePrecise := by
  intro i s t r ht hrep hfault
  have hends : Ends s (.next t) := ht ▸ (exec_ends i s).1
  have hend := hends.endsRun_of_replies (ne_paused_of_isFault hfault) hrep
  rw [hend.fault hfault]
  exact endsUnchanged_endRun s r

/-- R321 to R323: what counting does inside a run, by whether the budget is used up. -/
theorem Counted.of_running {s t : State} {budget icount : Word} (h : Counted s t)
    (hp : s.phase = .running budget icount) :
    (budget ≠ 0 ∧ budget.toNat ≤ (icount + 1).toNat) ∧
        t.phase = .idle ∧ t.replies = .result .paused :: s.replies ∨
      (budget = 0 ∨ (icount + 1).toNat < budget.toNat) ∧
        t.phase = .running budget (icount + 1) ∧ t.replies = s.replies := by
  simp only [Counted, hp] at h
  split at h
  case isTrue hused => exact .inl ⟨hused, h⟩
  case isFalse hleft =>
    refine .inr ⟨?_, h⟩
    rwa [not_and_or, not_not, not_le] at hleft

/-- Settles O10: a counted instruction goes on or pauses, any other end leaves `IP` alone. -/
theorem instructionsCountOrEndTheRun : Obligations.InstructionsCountOrEndTheRun := by
  intro i s t budget icount hp ht
  have hends : Ends s (.next t) := ht ▸ (exec_ends i s).1
  rcases hends.counted_or_endsRun with hcounted | ⟨r, hend⟩
  · rcases hcounted.of_running hp with ⟨hused, hidle, hrep⟩ | ⟨hleft, hrun, hrep⟩
    · exact .inr ⟨hidle, .paused, hrep, fun _ => hused, fun hne => absurd rfl hne⟩
    · exact .inl ⟨hrun, hrep, hleft⟩
  · exact .inr ⟨hend.phase, r, hend.replies, fun he => absurd he hend.ne_paused,
      fun _ => hend.ip⟩

/-! ### The trace of the ports -/

theorem State.portInv_iff (s : State) : s.PortInv ↔ ∀ x ∈ s.trace, Allowed s x := by
  refine forall₂_congr fun x _ => ?_
  cases x with
  | request q => cases q <;> exact Iff.rfl
  | interrupt => exact Iff.rfl

/-- R270, R330: what may start a transaction is the host's capability and the hook slot, once
filled always filled. -/
theorem Allowed.mono {s t : State} {x : Transaction} (h : Allowed s x)
    (hkinds : t.hostKinds = s.hostKinds) (hhook : s.hook ≠ none → t.hook ≠ none) :
    Allowed t x := by
  cases x with
  | request q =>
    obtain ⟨hk, hstr⟩ := h
    exact ⟨hkinds ▸ hk, hstr⟩
  | interrupt => exact hhook h

theorem Worked.allowed {s w : State} (hw : Worked s w) (hs : ∀ x ∈ s.trace, Allowed s x) :
    ∀ x ∈ w.trace, Allowed s x := by
  rcases hw.trace with ⟨htrace, _⟩ | ⟨y, hy, htrace, _⟩ <;> rw [htrace]
  · exact hs
  · exact List.forall_mem_cons.mpr ⟨hy, hs⟩

/-- However an instruction ends, it has traced nothing but what was allowed where it began. -/
theorem Ends.allowed {s t : State} (h : Ends s (.next t)) (hs : ∀ x ∈ s.trace, Allowed s x) :
    ∀ x ∈ t.trace, Allowed s x := by
  cases h with
  | completes w hw => rw [State.advance_trace]; exact hw.allowed hs
  | faults e _ => exact hs
  | stops w hw _ => exact hw.allowed hs

/-- R347: a call on the idle unit is no transaction of the datapath. -/
theorem State.hostCall_trace (s : State) (c : HostCall) : (s.hostCall c).trace = s.trace := by
  cases c with
  | access a =>
    have htrace : (s.access a).1.trace = s.trace := by rw [s.access_frame a]
    exact htrace
  | run | reset | onInterrupt => rfl

theorem step_allowed {s t : State} (h : step s = .next t) (hs : ∀ x ∈ s.trace, Allowed s x) :
    ∀ x ∈ t.trace, Allowed s x := by
  rcases step_cases h with ⟨_, hends⟩ | ⟨_, rfl | ⟨c, rest, rfl⟩⟩
  · exact hends.allowed hs
  · exact hs
  · rw [State.hostCall_trace]
    exact hs

/-- Settles O12: a step traces only what is allowed, and what was allowed stays so, since no step
takes a request kind or the hook away. -/
theorem stepKeepsThePortInvariant : Obligations.StepKeepsThePortInvariant := by
  intro s t hs h
  obtain ⟨_, _, hkinds, _, _, _, hhook⟩ := stepsKeepTheInstance s t h
  rw [State.portInv_iff] at hs ⊢
  exact fun x hx => (step_allowed h hs x hx).mono hkinds hhook

/-! ### A fault taken again -/

theorem sameButRun_startRun (s : State) (budget : Word) : SameButRun s (s.startRun budget) :=
  sameButRun_inRun s (s.phase, s.replies) (.running budget 0, s.replies)

theorem SameButRun.trans {s t u : State} (hst : SameButRun s t) (htu : SameButRun t u) :
    SameButRun s u := by
  rw [hst.eq_inRun] at htu
  rw [htu.eq_inRun]
  exact sameButRun_inRun s (s.phase, s.replies) _

theorem SameButRun.symm {s t : State} (h : SameButRun s t) : SameButRun t s := by
  rw [h.eq_inRun]
  exact sameButRun_inRun s _ (s.phase, s.replies)

theorem SameButRun.inbox_eq {s t : State} (h : SameButRun s t) : t.inbox = s.inbox := by
  rw [h.eq_inRun]
  rfl

/-- Settles O17: the fault left everything but the run, which an instruction does not see, so it is
taken again; and a fault leaves everything once more. -/
theorem faultsRepeatUntilTheHostActs : Obligations.FaultsRepeatUntilTheHostActs := by
  intro s t budget icount budget' r hp ht hrep hfault
  have hne := ne_paused_of_isFault hfault
  have hends : Ends s (.next t) := ht ▸ step_ends_of_running hp
  obtain rfl := (hends.endsRun_of_replies hne hrep).fault hfault
  have hsame : SameButRun s ((s.endRun r).startRun budget') := sameButRun_startRun s budget'
  obtain ⟨u, hu, _, hresult⟩ :=
    budgetAndCountAreInvisible s _ _ budget icount budget' 0 hsame hp rfl ht
  have hends' : Ends ((s.endRun r).startRun budget') (.next u) := hu ▸ step_ends_of_running rfl
  have hend := hends'.endsRun_of_replies hne (hresult r hne hrep)
  refine ⟨u, hu, ?_⟩
  rw [hend.fault hfault]
  exact endsUnchanged_endRun ((s.endRun r).startRun budget') r

/-! ### Two runs from one state, step by step -/

/-- R322: two states alike but for the run step to such states, and either both count or both end
with the same result. -/
theorem step_sameButRun {s t s' : State} {budget icount budget' icount' : Word}
    (h : SameButRun s t) (hs : s.phase = .running budget icount)
    (ht : t.phase = .running budget' icount') (hstep : step s = .next s') :
    ∃ t', step t = .next t' ∧ SameButRun s' t' ∧
      (Counted s s' ∧ Counted t t' ∨ ∃ r, EndsRun s r s' ∧ EndsRun t r t') := by
  obtain ⟨t', hstep', h', hresult⟩ :=
    budgetAndCountAreInvisible s t s' budget icount budget' icount' h hs ht hstep
  obtain ⟨s'', hstep'', _, hresult'⟩ :=
    budgetAndCountAreInvisible t s t' budget' icount' budget icount h.symm ht hs hstep'
  obtain rfl : s' = s'' := by simpa using hstep.symm.trans hstep''
  have hends : Ends s (.next s') := hstep ▸ step_ends_of_running hs
  have hends' : Ends t (.next t') := hstep' ▸ step_ends_of_running ht
  refine ⟨t', hstep', h', ?_⟩
  rcases hends.counted_or_endsRun with hcounted | ⟨r, hend⟩
  · rcases hends'.counted_or_endsRun with hcounted' | ⟨r, hend⟩
    · exact .inl ⟨hcounted, hcounted'⟩
    · exact absurd (hresult' r hend.ne_paused hend.replies) (hcounted.replies_ne hend.ne_paused)
  · exact .inr ⟨r, hend,
      hends'.endsRun_of_replies hend.ne_paused (hresult r hend.ne_paused hend.replies)⟩

/-- R321, R323: a run with `given` the replies before it has `n` instructions of its budget left, or
with none left it has ended with `Paused`. -/
def State.BudgetOf (given : List HostReply) (s : State) : Nat → Prop
  | 0 => s.phase = .idle ∧ s.replies = .result .paused :: given
  | n + 1 => ∃ budget icount, s.phase = .running budget icount ∧
      icount.toNat + (n + 1) = budget.toNat ∧ s.replies = given

theorem State.budgetOf_startRun (s : State) {n : Nat} (hpos : 0 < n) (hlt : n < 2 ^ 32) :
    (s.startRun (BitVec.ofNat 32 n)).BudgetOf s.replies n := by
  obtain ⟨n, rfl⟩ := Nat.exists_eq_succ_of_ne_zero hpos.ne'
  refine ⟨BitVec.ofNat 32 (n + 1), 0, rfl, ?_, rfl⟩
  rw [BitVec.toNat_ofNat, Nat.mod_eq_of_lt hlt]
  exact Nat.zero_add _

/-- An instruction that counts uses up one of what is left. -/
theorem Counted.budgetOf {given : List HostReply} {s t : State} {n : Nat} (h : Counted s t)
    (hs : s.BudgetOf given (n + 1)) : t.BudgetOf given n := by
  obtain ⟨budget, icount, hp, hleft, rfl⟩ := hs
  have hbudget := budget.isLt
  have hsucc : (icount + 1).toNat = icount.toNat + 1 := toNat_add_of_lt (n := 1) (by omega)
  have hzero : budget ≠ 0 := fun e => by rw [e] at hleft; simp at hleft
  rcases h.of_running hp with ⟨⟨_, hused⟩, hend⟩ | ⟨hmore, hrun, hrep⟩
  · obtain rfl : n = 0 := by omega
    exact hend
  · have hmore := hmore.resolve_left hzero
    obtain ⟨n, rfl⟩ := Nat.exists_eq_succ_of_ne_zero (show n ≠ 0 by omega)
    exact ⟨budget, icount + 1, hrun, by omega, hrep⟩

/-! ### Several steps -/

theorem steps_succ {s t : State} (h : step s = .next t) (n : Nat) :
    steps (n + 1) s = steps n t := by
  rw [steps, h]

theorem steps_add (n m : Nat) (s : State) : steps (n + m) s = steps m (steps n s) := by
  induction n generalizing s with
  | zero => rw [Nat.zero_add]; rfl
  | succ n ih =>
    obtain ⟨t, ht⟩ := step_exists_next s
    rw [Nat.add_right_comm, steps_succ ht, steps_succ ht, ih]

/-- R326: nothing wakes the idle unit but the host. -/
theorem step_of_no_call {s : State} (hp : s.phase = .idle) (hnone : s.inbox = []) :
    step s = .next s := by
  rcases step_eq_of_idle hp with ⟨_, e⟩ | ⟨c, rest, hcall, _⟩
  · exact e
  · rw [hnone] at hcall
    cases hcall

/-- So it stays as it is for any number of steps. -/
theorem steps_of_idle {s : State} (hp : s.phase = .idle) (hnone : s.inbox = []) (n : Nat) :
    steps n s = s := by
  induction n with
  | zero => rfl
  | succ n ih => rw [steps_succ (step_of_no_call hp hnone), ih]

theorem step_inbox_of_running {s t : State} {budget icount : Word}
    (hp : s.phase = .running budget icount) (h : step s = .next t) : t.inbox = s.inbox := by
  have hends : Ends s (.next t) := h ▸ step_ends_of_running hp
  obtain ⟨_, _, _, _, _, _, hinbox⟩ := hends.sameInstance
  exact hinbox

/-- Two runs have ended, each with the same result, not `Paused`. -/
def BothEnded (given given' : List HostReply) (s t : State) : Prop :=
  ∃ r, r ≠ .paused ∧ (s.phase = .idle ∧ s.replies = .result r :: given) ∧
    t.phase = .idle ∧ t.replies = .result r :: given'

/-- R322, R323: a run with a budget of `n` left beside a run of the same state with `d` more: after
`n` steps the first has paused and the second has `d` left, or both have ended alike. -/
theorem steps_sameButRun {given given' : List HostReply} {s t : State} {n d : Nat}
    (h : SameButRun s t) (hbox : s.inbox = []) (hs : s.BudgetOf given n)
    (ht : t.BudgetOf given' (n + d)) :
    SameButRun (steps n s) (steps n t) ∧ (steps n s).inbox = [] ∧
      ((steps n s).BudgetOf given 0 ∧ (steps n t).BudgetOf given' d ∨
        BothEnded given given' (steps n s) (steps n t)) := by
  induction n generalizing s t with
  | zero => exact ⟨h, hbox, .inl ⟨hs, Nat.zero_add d ▸ ht⟩⟩
  | succ n ih =>
    rw [Nat.add_right_comm] at ht
    have ⟨budget, icount, hp, _, hrep⟩ := hs
    have ⟨budget', icount', hp', _, hrep'⟩ := ht
    obtain ⟨s', hstep⟩ := step_exists_next s
    obtain ⟨t', hstep', h', hends⟩ := step_sameButRun h hp hp' hstep
    have hbox' : s'.inbox = [] := (step_inbox_of_running hp hstep).trans hbox
    rw [steps_succ hstep, steps_succ hstep']
    rcases hends with ⟨hcounted, hcounted'⟩ | ⟨r, hend, hend'⟩
    · exact ih h' hbox' (hcounted.budgetOf hs) (hcounted'.budgetOf ht)
    · rw [steps_of_idle hend.phase hbox', steps_of_idle hend'.phase (h'.inbox_eq.trans hbox')]
      exact ⟨h', hbox', .inr ⟨r, hend.ne_paused, ⟨hend.phase, hrep ▸ hend.replies⟩,
        hend'.phase, hrep' ▸ hend'.replies⟩⟩

/-- Settles O16: for `n` steps the paused run and the long one go side by side, and then the resumed
run and what is left of the long one. -/
theorem resumedRunsEqualOneRun : Obligations.ResumedRunsEqualOneRun := by
  intro s n m hn hm hlt hbox hpaused resumed once
  set first := steps n (s.startRun (BitVec.ofNat 32 n))
  set rest := steps n (s.startRun (BitVec.ofNat 32 (n + m)))
  have honce : once = steps m rest := steps_add n m _
  obtain ⟨hsame, hbox', hends⟩ := steps_sameButRun (d := m)
    ((sameButRun_startRun s _).symm.trans (sameButRun_startRun s _))
    hbox (s.budgetOf_startRun hn (by omega)) (s.budgetOf_startRun (by omega) hlt)
  have hleft : rest.BudgetOf s.replies m := by
    rcases hends with ⟨_, hleft⟩ | ⟨r, hr, ⟨_, hrep⟩, _⟩
    · exact hleft
    · obtain rfl : .paused = r := by simpa using hpaused.symm.trans hrep
      exact absurd rfl hr
  obtain ⟨hsame', _, hends'⟩ := steps_sameButRun (d := 0)
    ((sameButRun_startRun first _).symm.trans hsame) hbox'
    (first.budgetOf_startRun hm (by omega)) hleft
  rw [honce]
  refine ⟨hsame', ?_⟩
  rcases hends' with ⟨⟨hidle, hrep⟩, hidle', hrep'⟩ | ⟨r, _, ⟨hidle, hrep⟩, hidle', hrep'⟩
  · exact ⟨hidle, hidle', by rw [hrep, hrep']; rfl⟩
  · exact ⟨hidle, hidle', by rw [hrep, hrep']; rfl⟩

end Sys2Proof.Machine
end

section
/-! PROOFS. The instructions that call the host: which may start a transaction (O20), and what each
request does, answered (O53 to O56, O59) or not supported (O60). -/

namespace Sys2Proof.Machine

/-! ### Bodies that start no transaction -/

/-- Where the answer is a state, no transaction has been started since `s`. -/
def Quiet (s : State) (x : Except ExecResult State) : Prop := ∀ w, x = .ok w → NoTransaction s w

section
variable {s w : State}

theorem quiet_ok (h : NoTransaction s w) : Quiet s (.ok w) := by
  intro t ht
  cases ht
  exact h

theorem quiet_error (e : ExecResult) : Quiet s (.error e) := nofun

theorem Quiet.bind_of {α : Type} {x : Except ExecResult α} {k : α → Except ExecResult State}
    (hk : ∀ a, x = .ok a → Quiet s (k a)) : Quiet s (x >>= k) := by
  cases x with
  | ok a => exact hk a rfl
  | error e => exact quiet_error e

theorem Quiet.bind {α : Type} {x : Except ExecResult α} {k : α → Except ExecResult State}
    (hk : ∀ a, Quiet s (k a)) : Quiet s (x >>= k) := .bind_of fun a _ => hk a

theorem quiet_branch (taken : Bool) (target : Word) (h : NoTransaction s w) :
    Quiet s (.ok (if taken then w.jump target else w)) := by
  cases taken with
  | true => exact quiet_ok (w := w.jump target) h
  | false => exact quiet_ok h

theorem quiet_memWrite (a : Word) (n : Nat) (v : Word) (h : NoTransaction s w) :
    Quiet s (w.memWrite a n v) := by
  rcases w.memWrite_cases a n v with ⟨_, e⟩ | ⟨_, e⟩ <;> rw [e]
  · exact quiet_ok h
  · exact quiet_error _

theorem quiet_blockCopy (d r n : Word) (h : NoTransaction s w) : Quiet s (w.blockCopy d r n) := by
  rcases w.blockCopy_cases d r n with ⟨_, _, e⟩ | ⟨_, e⟩ <;> rw [e]
  · exact quiet_ok h
  · exact quiet_error _

theorem quiet_pushWord (v : Word) (h : NoTransaction s w) : Quiet s (w.pushWord v) := by
  rcases w.pushWord_cases v with ⟨_, e⟩ | ⟨_, _, e⟩ | ⟨_, _, e⟩ <;> rw [e]
  · exact quiet_error _
  · exact quiet_error _
  · exact quiet_ok h

end

theorem noTransaction_enter (s : State) (f : Format) : NoTransaction s (s.enter f) := ⟨rfl, rfl⟩

/-- Where the result is a next state, no transaction has been started. -/
def QuietResult (s : State) (x : Result) : Prop := ∀ t, x = .next t → NoTransaction s t

/-- Neither the advance nor a fault starts a transaction. -/
theorem attempt_quiet {f : Format} {s : State} {body : State → Except ExecResult State}
    (h : Quiet s (body (s.enter f))) : QuietResult s (attempt f s body) := by
  intro t ht
  rcases attempt_cases f s body with ⟨w, hw, e⟩ | ⟨_, _, e⟩ <;> rw [ht] at e <;> cases e
  · obtain ⟨htrace, hscript⟩ := h w hw
    exact ⟨w.advance_trace.trans htrace, w.advance_script.trans hscript⟩
  · exact ⟨rfl, rfl⟩

/-! ### The forms that call no host -/

section
variable (s : State)

theorem quiet_setReg (f : Format) (d : Reg) (v : Word) : Quiet s (.ok ((s.enter f).setReg d v)) :=
  quiet_ok (noTransaction_enter s f)

theorem quiet_jump (f : Format) (target : Word) : Quiet s (.ok ((s.enter f).jump target)) :=
  quiet_ok (noTransaction_enter s f)

theorem literalForm_quiet (f : Format) (v : Word) (rd : RegByte) :
    QuietResult s (literalForm f v rd s) :=
  attempt_quiet (.bind fun _ => quiet_setReg s _ _ _)

theorem inPlaceForm_quiet (op : Word → Word) (rd : RegByte) :
    QuietResult s (inPlaceForm op rd s) :=
  attempt_quiet (.bind fun _ => quiet_setReg s _ _ _)

theorem moveForm_quiet (op : Word → Word) (rd rs : RegByte) :
    QuietResult s (moveForm op rd rs s) :=
  attempt_quiet (.bind fun _ => .bind fun _ => quiet_setReg s _ _ _)

theorem accumulateForm_quiet (op : Word → Word → Except ExecResult Word) (rd rs : RegByte) :
    QuietResult s (accumulateForm op rd rs s) :=
  attempt_quiet (.bind fun _ => .bind fun _ => .bind fun _ => quiet_setReg s _ _ _)

theorem threeForm_quiet (op : Word → Word → Word) (rd ra rb : RegByte) :
    QuietResult s (threeForm op rd ra rb s) :=
  attempt_quiet (.bind fun _ => .bind fun _ => .bind fun _ => quiet_setReg s _ _ _)

theorem loadAbsForm_quiet (n : Nat) (rd : RegByte) (addr : Half) :
    QuietResult s (loadAbsForm n rd addr s) :=
  attempt_quiet (.bind fun _ => .bind fun _ => quiet_setReg s _ _ _)

theorem loadIndForm_quiet (n : Nat) (rd rp : RegByte) : QuietResult s (loadIndForm n rd rp s) :=
  attempt_quiet (.bind fun _ => .bind fun _ => .bind fun _ => quiet_setReg s _ _ _)

theorem storeAbsForm_quiet (n : Nat) (rs : RegByte) (addr : Half) :
    QuietResult s (storeAbsForm n rs addr s) :=
  attempt_quiet (.bind fun _ => quiet_memWrite _ _ _ (noTransaction_enter s _))

theorem storeIndForm_quiet (n : Nat) (rs rp : RegByte) : QuietResult s (storeIndForm n rs rp s) :=
  attempt_quiet (.bind fun _ => .bind fun _ => quiet_memWrite _ _ _ (noTransaction_enter s _))

theorem jumpOneForm_quiet (taken : Word → Bool) (addr : Half) (ra : RegByte) :
    QuietResult s (jumpOneForm taken addr ra s) :=
  attempt_quiet (.bind fun _ => quiet_branch _ _ (noTransaction_enter s _))

theorem jumpTwoForm_quiet (c : Cond) (addr : Half) (ra rb : RegByte) :
    QuietResult s (jumpTwoForm c addr ra rb s) :=
  attempt_quiet (.bind fun _ => .bind fun _ => quiet_branch _ _ (noTransaction_enter s _))

/-! ### The remaining meanings that call no host -/

theorem execPush_quiet (rs : RegByte) : QuietResult s (execPush rs s) :=
  attempt_quiet (.bind fun _ => quiet_pushWord _ (noTransaction_enter s _))

theorem execDup_quiet : QuietResult s (execDup s) :=
  attempt_quiet (.bind fun _ => quiet_pushWord _ (noTransaction_enter s _))

theorem execPop_quiet (rd : RegByte) : QuietResult s (execPop rd s) := by
  refine attempt_quiet (.bind fun d => .bind_of fun (v, w) hw => ?_)
  obtain rfl := popWord_frame hw
  exact quiet_ok (w := State.setReg _ d v) (noTransaction_enter s .FR)

theorem execPop2_quiet (rd1 rd2 : RegByte) : QuietResult s (execPop2 rd1 rd2 s) := by
  refine attempt_quiet (.bind fun d1 => .bind fun d2 => .bind_of fun (v1, v2, w) hw => ?_)
  obtain rfl := popTwo_frame hw
  exact quiet_ok (w := State.setReg (State.setReg _ d1 v1) d2 v2) (noTransaction_enter s .FRR)

theorem execCall_quiet (addr : Half) : QuietResult s (execCall addr s) :=
  attempt_quiet (quiet_ok (w := ((s.enter .FH).setReg .ra _).jump _) (noTransaction_enter s .FH))

theorem execRet_quiet : QuietResult s (execRet s) := attempt_quiet (quiet_jump s _ _)

theorem execJmp_quiet (addr : Half) : QuietResult s (execJmp addr s) :=
  attempt_quiet (quiet_jump s _ _)

theorem execJr_quiet (rs : RegByte) : QuietResult s (execJr rs s) :=
  attempt_quiet (.bind fun _ => quiet_jump s _ _)

theorem execMemcpy_quiet (dst src len : Half) : QuietResult s (execMemcpy dst src len s) :=
  attempt_quiet (quiet_blockCopy _ _ _ (noTransaction_enter s _))

theorem execMemcpyP_quiet (rdst rsrc rlen : RegByte) :
    QuietResult s (execMemcpyP rdst rsrc rlen s) :=
  attempt_quiet (.bind fun _ => .bind fun _ => .bind fun _ =>
    quiet_blockCopy _ _ _ (noTransaction_enter s _))

theorem execI2s_quiet (addr : Half) (rs : RegByte) : QuietResult s (execI2s addr rs s) := by
  refine attempt_quiet (.bind fun r => ?_)
  dsimp only
  split
  · exact quiet_error _
  · exact quiet_ok (noTransaction_enter s .FHR)

theorem execS2i_quiet (addr : Half) (rd : RegByte) : QuietResult s (execS2i addr rd s) :=
  attempt_quiet (.bind fun _ => .bind fun _ => quiet_setReg s _ _ _)

end

/-- R270, R331: outside the instructions that call the host, no body makes a request. -/
theorem exec_quiet {i : Instr} (s : State) (h : ¬ Transacts i) : QuietResult s (exec i s) := by
  cases i with
  | nop => exact attempt_quiet (quiet_ok (noTransaction_enter s _))
  | halt => exact fun t ht => by cases ht; exact ⟨rfl, rfl⟩
  | lcons | lconsw | lconsb => exact literalForm_quiet s _ _ _
  | mov | i2f | f2i => exact moveForm_quiet s _ _ _
  | push => exact execPush_quiet s _
  | pop => exact execPop_quiet s _
  | pop2 => exact execPop2_quiet s _ _
  | dup => exact execDup_quiet s
  | call => exact execCall_quiet s _
  | ret => exact execRet_quiet s
  | stor | storw | storb => exact storeAbsForm_quiet s _ _ _
  | storP | storwP | storbP => exact storeIndForm_quiet s _ _ _
  | load | loadw | loadb => exact loadAbsForm_quiet s _ _ _
  | loadP | loadwP | loadbP => exact loadIndForm_quiet s _ _ _
  | memcpy => exact execMemcpy_quiet s _ _ _
  | memcpyP => exact execMemcpyP_quiet s _ _ _
  | inc | dec | finc | fdec | not | u2i | i2u =>
    simp only [exec, execInc, execDec, execFinc, execFdec, execNot, execU2i, execI2u]
    exact inPlaceForm_quiet s _ _
  | add | mul | and | or | xor | imul | fadd | fmul => exact threeForm_quiet s _ _ _ _
  | sub | div | mod | shl | shr | idiv | imod | ishr | fsub | fdiv =>
    simp only [exec, execSub, execDiv, execMod, execShl, execShr, execIdiv, execImod, execIshr,
      execFsub, execFdiv]
    exact accumulateForm_quiet s _ _ _
  | jmp => exact execJmp_quiet s _
  | jr => exact execJr_quiet s _
  | jz | jnz =>
    simp only [exec, execJz, execJnz]
    exact jumpOneForm_quiet s _ _ _
  | je | jne | ja | jg | jae | jge | jb | jl | jbe | jle => exact jumpTwoForm_quiet s _ _ _ _
  | i2s => exact execI2s_quiet s _ _
  | s2i => exact execS2i_quiet s _ _
  | int | print | printi | printf | printc | prints | read | readi | readf | readc | reads
  | dread | dwrite | aread | awrite | pinmode =>
    exact absurd (by simp [Transacts, opcodeOf, encode]) h

/-- R270, R347: however an instruction ends, it has started one transaction at most. -/
theorem Ends.transactions {s t : State} (h : Ends s (.next t)) :
    NoTransaction s t ∨ ∃ x, t.trace = x :: s.trace ∧ t.script = s.script.tail := by
  have of_worked {w : State} (hw : Worked s w) :
      NoTransaction s w ∨ ∃ x, w.trace = x :: s.trace ∧ w.script = s.script.tail := by
    rcases hw.trace with hquiet | ⟨x, _, hx⟩
    · exact .inl hquiet
    · exact .inr ⟨x, hx⟩
  cases h with
  | completes w hw => simpa [NoTransaction] using of_worked hw
  | faults e _ => exact .inl ⟨rfl, rfl⟩
  | stops w hw _ => simpa [NoTransaction] using of_worked hw

/-- Settles O20: at most one by how any instruction ends, and none but by the instructions that call
the host. -/
theorem atMostOneTransactionPerInstruction : Obligations.AtMostOneTransactionPerInstruction := by
  intro i s t ht
  have hends : Ends s (.next t) := ht ▸ (exec_ends i s).1
  by_cases hhost : Transacts i
  · exact hends.transactions.imp id fun hx => ⟨hhost, hx⟩
  · exact .inl (exec_quiet s hhost t ht)

/-! ### Requests answered -/

/-- A transaction that is allowed to be made: what the callback can leave, and what the instruction
does then. -/
def Issues (i : Instr) (s : State) (x : Transaction) (P : State → Prop) : Prop :=
  CallbackLeft s x (afterCallback s x) ∧ Completes i s P

/-- An instruction that only falls through from the state the host left (R14, R331). -/
theorem issues_jumpsTo {i : Instr} {s : State} {x : Transaction} {f : Format} {L : Nat}
    (hi : exec i s = .next ((afterCallback s x).enter f).advance) (hL : L = f.length) :
    Issues i s x (JumpsTo (afterCallback s x) (s.reg .ip + BitVec.ofNat 32 L)) := by
  refine ⟨callbacksStayWithinTheAccessors s x, _, hi, ?_⟩
  rw [← afterCallback_ip s x]
  exact jumpsTo_enter _ f hL

/-- An instruction that writes one register of the state the host left. -/
theorem issues_writes {i : Instr} {s : State} {x : Transaction} {f : Format} {L : Nat} {d : Reg}
    {v : Word} (hi : exec i s = .next (((afterCallback s x).enter f).setReg d v).advance)
    (hL : L = f.length) : Issues i s x (Writes (afterCallback s x) L d v) :=
  ⟨callbacksStayWithinTheAccessors s x, _, hi, writes_advance _ f hL d v⟩

theorem newline_eq (nl : Byte) : newline nl = decide (nl.toNat ≠ 0) := by
  rw [Bool.eq_iff_iff, decide_eq_true_iff, newline, bne_iff_ne, ne_eq, ne_eq,
    ← BitVec.toNat_inj]
  rfl

theorem setWidth_eight (v : Word) : v.setWidth 8 = v.extractLsb' 0 8 := by
  apply BitVec.eq_of_toNat_eq
  simp

section
variable {i : Instr} {s : State} {r : Request}

theorem issues_outputForm {q : Word → Bool → Request} {rs : Reg} {nl : Byte}
    (hi : exec i s = outputForm q (regByte rs) nl s)
    (hr : q (operand s 3 rs) (decide (nl.toNat ≠ 0)) = r) (hk : r.kind ∈ s.hostKinds) :
    Issues i s (.request r) (JumpsTo (afterCallback s (.request r)) (s.reg .ip + 3)) := by
  subst hr
  rw [← newline_eq, ← reg_enter_operand s .FRB (L := 3) rfl] at hk ⊢
  exact issues_jumpsTo (hi.trans (outputForm_next q rs nl s hk)) rfl

theorem issues_pinWriteForm {q : Word → Word → Request} {rpin rval : Reg}
    (hi : exec i s = pinWriteForm q (regByte rpin) (regByte rval) s)
    (hr : q (operand s 3 rpin) (operand s 3 rval) = r) (hk : r.kind ∈ s.hostKinds) :
    Issues i s (.request r) (JumpsTo (afterCallback s (.request r)) (s.reg .ip + 3)) := by
  subst hr
  rw [← reg_enter_operand s .FRR (L := 3) rfl, ← reg_enter_operand s .FRR (L := 3) rfl] at hk ⊢
  exact issues_jumpsTo (hi.trans (pinWriteForm_next q rpin rval s hk)) rfl

theorem issues_inputForm {value : Callback → Word} {rd : Reg}
    (hi : exec i s = inputForm r value (regByte rd) s) (hk : r.kind ∈ s.hostKinds) :
    Issues i s (.request r)
      (Writes (afterCallback s (.request r)) 2 rd (value (s.callback (.request r)))) :=
  issues_writes (hi.trans (inputForm_next r value rd s hk)) rfl

theorem issues_pinReadForm {q : Word → Request} {rd rpin : Reg}
    (hi : exec i s = pinReadForm q (regByte rd) (regByte rpin) s)
    (hr : q (operand s 3 rpin) = r) (hk : r.kind ∈ s.hostKinds) :
    Issues i s (.request r)
      (Writes (afterCallback s (.request r)) 3 rd (s.callback (.request r)).value) := by
  subst hr
  rw [← reg_enter_operand s .FRR (L := 3) rfl] at hk ⊢
  exact issues_writes (hi.trans (pinReadForm_next q rd rpin s hk)) rfl

end

/-! ### The form of each instruction -/

section
variable (s : State) (rd rs rpin rval : RegByte) (nl : Byte)

theorem exec_print : exec (.print rs nl) s = outputForm .outU32 rs nl s := rfl
theorem exec_printi : exec (.printi rs nl) s = outputForm .outI32 rs nl s := rfl
theorem exec_printf : exec (.printf rs nl) s = outputForm .outF32 rs nl s := rfl
theorem exec_printc :
    exec (.printc rs nl) s = outputForm (fun v => .outChar (v.setWidth 8)) rs nl s := rfl
theorem exec_read : exec (.read rd) s = inputForm .inU32 (·.value) rd s := rfl
theorem exec_readi : exec (.readi rd) s = inputForm .inI32 (·.value) rd s := rfl
theorem exec_readf : exec (.readf rd) s = inputForm .inF32 (·.value) rd s := rfl
theorem exec_readc :
    exec (.readc rd) s = inputForm .inChar (fun c => zext8 (c.value.setWidth 8)) rd s := rfl
theorem exec_dread : exec (.dread rd rpin) s = pinReadForm .dRead rd rpin s := rfl
theorem exec_aread : exec (.aread rd rpin) s = pinReadForm .aRead rd rpin s := rfl
theorem exec_dwrite : exec (.dwrite rpin rval) s = pinWriteForm .dWrite rpin rval s := rfl
theorem exec_awrite : exec (.awrite rpin rval) s = pinWriteForm .aWrite rpin rval s := rfl
theorem exec_pinmode : exec (.pinmode rpin rval) s = pinWriteForm .pinMode rpin rval s := rfl
theorem exec_prints (addr : Half) : exec (.prints addr nl) s = execPrints addr nl s := rfl
theorem exec_reads (addr len : Half) : exec (.reads addr len) s = execReads addr len s := rfl

end

/-- Settles O53: each is `outputForm` at its request. -/
theorem registerOutputsIssueOneRequest : Obligations.RegisterOutputsIssueOneRequest := by
  intro s rs nl v line issues
  refine ⟨rfl, ?print, rfl, ?printi, rfl, ?printf, rfl, ?printc⟩
  case print => exact issues_outputForm (exec_print s _ nl) rfl
  case printi => exact issues_outputForm (exec_printi s _ nl) rfl
  case printf => exact issues_outputForm (exec_printf s _ nl) rfl
  case printc =>
    exact issues_outputForm (exec_printc s _ nl)
      (congrArg (Request.outChar · line) (setWidth_eight v))

/-- Settles O59: each is `pinWriteForm` at its request. -/
theorem pinWritesIssueOneRequest : Obligations.PinWritesIssueOneRequest := by
  intro s rpin rval issues
  refine ⟨rfl, ?dwrite, rfl, ?awrite, rfl, ?pinmode⟩
  case dwrite => exact issues_pinWriteForm (exec_dwrite s _ _) rfl
  case awrite => exact issues_pinWriteForm (exec_awrite s _ _) rfl
  case pinmode => exact issues_pinWriteForm (exec_pinmode s _ _) rfl

/-- Settles O55: each is `inputForm` or `pinReadForm` at its request. -/
theorem inputsWriteTheHostsValue : Obligations.InputsWriteTheHostsValue := by
  intro s rd rpin issues
  refine ⟨rfl, ?read, rfl, ?readi, rfl, ?readf, rfl, ?readc, rfl, ?dread, rfl, ?aread⟩
  case read => exact issues_inputForm (exec_read s _)
  case readi => exact issues_inputForm (exec_readi s _)
  case readf => exact issues_inputForm (exec_readf s _)
  case readc =>
    intro hk
    have h := issues_inputForm (exec_readc s (regByte rd)) hk
    rwa [setWidth_eight] at h
  case dread => exact issues_pinReadForm (exec_dread s _ _) rfl
  case aread => exact issues_pinReadForm (exec_aread s _ _) rfl

/-! ### `PRINTS` -/

theorem State.readString_ok {s : State} {p : Word} {str : List Byte} (hstr : (0 : Byte) ∉ str)
    (hat : BytesAt s.mem p.toNat (str ++ [0])) (hlt : p.toNat + str.length < s.memSize) :
    s.readString p = .ok str := by
  rw [State.readString, Memory.scanString_of_bytesAt _ _ _ str hstr hat (by omega)]

theorem State.readString_error {s : State} {p : Word}
    (h : ∀ x, p.toNat ≤ x → x < s.memSize → s.mem.read x ≠ 0) :
    s.readString p = .error .invalidAddress := by
  rw [State.readString, Memory.scanString_none _ _ _ fun x h1 h2 => h x h1 (by omega)]

theorem State.readString_isOk {s : State} {p : Word} {x : Nat} (hlo : p.toNat ≤ x)
    (hhi : x < s.memSize) (hx : s.mem.read x = 0) : ∃ str, s.readString p = .ok str := by
  obtain ⟨str, hstr⟩ :=
    s.mem.scanString_isSome p.toNat (s.memSize - p.toNat) x hlo (by omega) hx
  exact ⟨str, by rw [State.readString, hstr]⟩

theorem encode_prints (addr : Half) (nl : Byte) :
    encode (.prints addr nl) = [0x48, addr.extractLsb' 0 8, addr.extractLsb' 8 8, nl] :=
  jump_bytes 0x48 addr [nl]

/-- Settles O54, by what the scan of the string answers. -/
theorem stringOutputScansToTheZero : Obligations.StringOutputScansToTheZero := by
  intro s addr nl
  rw [← zext16_toNat, ← newline_eq]
  refine ⟨encode_prints addr nl, fun str hstr hat hlt hk => ?_, fun hnone => ?_⟩
  · have hread := State.readString_ok hstr hat hlt
    exact (issues_jumpsTo ((exec_prints s nl addr).trans (execPrints_next nl hread hk)) rfl).2
  · exact faults_of ((exec_prints s nl addr).trans
      (execPrints_raise nl (State.readString_error hnone)))

/-! ### `READS` -/

theorem zero_not_mem_lineAnswer (c : Callback) (max : Nat) : (0 : Byte) ∉ lineAnswer c max := by
  intro h
  simpa using List.mem_of_mem_take h

/-- R270: a line that keeps the promise is taken as it is. -/
theorem lineAnswer_eq {c : Callback} {max : Nat} (hlen : c.line.length ≤ max)
    (hzero : (0 : Byte) ∉ c.line) : lineAnswer c max = c.line := by
  have hfilter : c.line.filter (· != 0) = c.line :=
    List.filter_eq_self.mpr fun b hb => by
      rw [bne_iff_ne]
      rintro rfl
      exact hzero hb
  rw [lineAnswer, hfilter, List.take_of_length_le hlen]

theorem encode_reads (addr len : Half) :
    encode (.reads addr len) =
      [0x4D, addr.extractLsb' 0 8, addr.extractLsb' 8 8, len.extractLsb' 0 8,
        len.extractLsb' 8 8] := by
  simp [encode, bytes16_eq]

/-- Settles O56: the range check, then the length, then the line the host gives. -/
theorem lineInputFillsTheBuffer : Obligations.LineInputFillsTheBuffer := by
  intro s addr len
  refine ⟨encode_reads addr len, fun hout => ?_, fun hin => ⟨?_, fun hlen hk => ?_⟩⟩
  · exact faults_of ((exec_reads s addr len).trans (execReads_raise hout))
  · rintro rfl
    exact ⟨_, (exec_reads s addr 0).trans (execReads_empty hin), jumpsTo_enter s .FHH rfl⟩
  · let x : Transaction := .request (.inLine (len.toNat - 1))
    let line := lineAnswer (s.callback x) (len.toNat - 1)
    obtain ⟨hregs, hsame, hquiet, hcounted⟩ := regsAfter_advance (afterCallback s x) .FHH
      (L := 5) rfl ((afterCallback s x).mem.writeBytes addr.toNat (line ++ [0]))
    refine ⟨_, (exec_reads s addr len).trans (execReads_next hin hlen hk), afterCallback s x,
      (s.callback x).line, line, rfl, rfl, length_lineAnswer _ _, zero_not_mem_lineAnswer _ _,
      lineAnswer_eq, ?_, fun a ha => ?_, ?_, hsame, hquiet, hcounted⟩
    · rw [State.advance_mem]
      exact bytesAt_writeBytes _ _ _
    · rw [State.advance_mem]
      exact Memory.read_writeBytes_outside _ _ _ _ (by simpa [Nat.add_assoc] using ha)
    · rw [← afterCallback_ip s x]
      exact hregs

/-! ### Requests not supported -/

section
variable {i : Instr} {s : State}

/-- R270, R313: a body whose request the host does not support raises `UnsupportedOpcode`. -/
theorem faults_of_unsupported {f : Format} {q : Request} {body : State → Except ExecResult State}
    {k : Callback × State → Except ExecResult State} (hi : exec i s = attempt f s body)
    (hbody : body (s.enter f) = requestAt f s q >>= k) (hk : q.kind ∉ s.hostKinds) :
    Faults i s .unsupportedOpcode :=
  faults_of (hi.trans (attempt_error (by rw [hbody, requestAt_error f hk, error_bind])))

theorem faults_outputForm {q : Word → Bool → Request} {rs : Reg} {nl : Byte} {kind : RequestKind}
    (hi : exec i s = outputForm q (regByte rs) nl s) (hq : ∀ v b, (q v b).kind = kind)
    (hk : kind ∉ s.hostKinds) : Faults i s .unsupportedOpcode :=
  faults_of_unsupported hi (by rw [regOperand_regByte, ok_bind]) (by rwa [hq])

theorem faults_inputForm {q : Request} {value : Callback → Word} {rd : Reg}
    (hi : exec i s = inputForm q value (regByte rd) s) (hk : q.kind ∉ s.hostKinds) :
    Faults i s .unsupportedOpcode :=
  faults_of_unsupported hi (by rw [regOperand_regByte, ok_bind]) hk

theorem faults_pinReadForm {q : Word → Request} {rd rpin : Reg} {kind : RequestKind}
    (hi : exec i s = pinReadForm q (regByte rd) (regByte rpin) s) (hq : ∀ v, (q v).kind = kind)
    (hk : kind ∉ s.hostKinds) : Faults i s .unsupportedOpcode :=
  faults_of_unsupported hi (by rw [regOperand_regByte, ok_bind, regOperand_regByte, ok_bind])
    (by rwa [hq])

theorem faults_pinWriteForm {q : Word → Word → Request} {rpin rval : Reg} {kind : RequestKind}
    (hi : exec i s = pinWriteForm q (regByte rpin) (regByte rval) s)
    (hq : ∀ v u, (q v u).kind = kind) (hk : kind ∉ s.hostKinds) :
    Faults i s .unsupportedOpcode :=
  faults_of_unsupported hi (by rw [regOperand_regByte, ok_bind, regOperand_regByte, ok_bind])
    (by rwa [hq])

end

/-- Settles O60: each form at its request kind; `PRINTS` and `READS` after their own checks. -/
theorem unsupportedRequestsFault : Obligations.UnsupportedRequestsFault := by
  intro s r q nl addr len
  refine ⟨?print, ?printi, ?printf, ?printc, ?prints, ?read, ?readi, ?readf, ?readc, ?reads,
    ?dread, ?dwrite, ?aread, ?awrite, ?pinmode⟩
  case print => exact faults_outputForm (exec_print s _ nl) fun _ _ => rfl
  case printi => exact faults_outputForm (exec_printi s _ nl) fun _ _ => rfl
  case printf => exact faults_outputForm (exec_printf s _ nl) fun _ _ => rfl
  case printc => exact faults_outputForm (exec_printc s _ nl) fun _ _ => rfl
  case prints =>
    rintro hk ⟨x, hlo, hhi, hx⟩
    obtain ⟨str, hread⟩ := State.readString_isOk ((zext16_toNat addr).symm ▸ hlo) hhi hx
    exact faults_of ((exec_prints s nl addr).trans (execPrints_unsupported nl hread hk))
  case read => exact faults_inputForm (exec_read s _)
  case readi => exact faults_inputForm (exec_readi s _)
  case readf => exact faults_inputForm (exec_readf s _)
  case readc => exact faults_inputForm (exec_readc s _)
  case reads =>
    intro hk hlen hin
    exact faults_of ((exec_reads s addr len).trans (execReads_unsupported hin hlen hk))
  case dread => exact faults_pinReadForm (exec_dread s _ _) fun _ => rfl
  case aread => exact faults_pinReadForm (exec_aread s _ _) fun _ => rfl
  case dwrite => exact faults_pinWriteForm (exec_dwrite s _ _) fun _ _ => rfl
  case awrite => exact faults_pinWriteForm (exec_awrite s _ _) fun _ _ => rfl
  case pinmode => exact faults_pinWriteForm (exec_pinmode s _ _) fun _ _ => rfl

end Sys2Proof.Machine
end

section
/-! PROOFS. What the idle unit does for each call of the host (O21), and each introspection accessor
(O22). -/

namespace Sys2Proof.Machine

/-! ### The calls -/

/-- R326, R347: the idle unit serves the host's next call. -/
theorem step_of_call {s : State} {c : HostCall} {rest : List HostCall} (hp : s.phase = .idle)
    (hcall : s.inbox = c :: rest) :
    step s = .next (State.hostCall { s with inbox := rest } c) := by
  rcases step_eq_of_idle hp with ⟨hnone, _⟩ | ⟨c', rest', hcall', e⟩
  · rw [hcall] at hnone
    cases hnone
  · rw [hcall] at hcall'
    cases hcall'
    exact e

/-- Settles O21, call by call. -/
theorem idleUnitServesTheHost : Obligations.IdleUnitServesTheHost := by
  intro s rest hp
  refine ⟨step_of_no_call hp, fun budget => step_of_call hp, fun h => step_of_call hp,
    fun hcall => ⟨_, step_of_call hp hcall, ?_, rfl⟩⟩
  exact getElem_set_sp_replicate _

/-! ### The accessors -/

/-- R345: an accessor the host calls on the idle unit: its effect, and its reply. -/
theorem step_of_access {s t : State} {a : Accessor} {r : HostReply} {rest : List HostCall}
    (hp : s.phase = .idle) (hcall : s.inbox = .access a :: rest)
    (h : State.access { s with inbox := rest } a = (t, r)) : step s = .next (t.reply r) := by
  rw [step_of_call hp hcall, State.hostCall, h]

theorem regOfIndex_val (r : Reg) : regOfIndex r.val = some r := dif_pos r.isLt

theorem regOfIndex_eq_none {i : Nat} (h : 16 ≤ i) : regOfIndex i = none :=
  dif_neg (Nat.not_lt.mpr h)

section
variable (s : State)

theorem State.access_getRegister (r : Reg) :
    s.access (.getRegister r.val) = (s, .word (s.reg r)) := by
  simp only [State.access, regOfIndex_val]

theorem State.access_setRegister (r : Reg) (v : Word) :
    s.access (.setRegister r.val v) = (s.setReg r v, .done) := by
  simp only [State.access, regOfIndex_val]

variable {s}

theorem State.access_getRegister_refused {i : Nat} (h : 16 ≤ i) :
    s.access (.getRegister i) = (s, .refused) := by
  simp only [State.access, regOfIndex_eq_none h]

theorem State.access_setRegister_refused {i : Nat} (h : 16 ≤ i) (v : Word) :
    s.access (.setRegister i v) = (s, .refused) := by
  simp only [State.access, regOfIndex_eq_none h]

theorem State.access_readMemory {offset : Nat} (h : offset < s.memSize) :
    s.access (.readMemory offset) = (s, .byte (s.mem.read offset)) := if_pos h

theorem State.access_writeMemory {offset : Nat} (h : offset < s.memSize) (b : Byte) :
    s.access (.writeMemory offset b) = ({ s with mem := s.mem.write offset b }, .done) := if_pos h

theorem State.access_readMemory_refused {offset : Nat} (h : s.memSize ≤ offset) :
    s.access (.readMemory offset) = (s, .refused) := if_neg (Nat.not_lt.mpr h)

theorem State.access_writeMemory_refused {offset : Nat} (h : s.memSize ≤ offset) (b : Byte) :
    s.access (.writeMemory offset b) = (s, .refused) := if_neg (Nat.not_lt.mpr h)

theorem State.access_push_ok {v : Word} {t : State} (h : s.pushWord v = .ok t) :
    s.access (.push v) = (t, .done) := by
  simp only [State.access, h]

theorem State.access_push_error {v : Word} {e : ExecResult} (h : s.pushWord v = .error e) :
    s.access (.push v) = (s, .failed e) := by
  simp only [State.access, h]

theorem State.access_pop_ok {v : Word} (h : s.topWord = .ok v) :
    s.access .pop = (s.setReg .sp (s.reg .sp + 4), .word v) := by
  simp only [State.access, State.popWord, h, ok_bind, pure_eq_ok]

theorem State.access_pop_error {e : ExecResult} (h : s.topWord = .error e) :
    s.access .pop = (s, .failed e) := by
  simp only [State.access, State.popWord, h, error_bind]

/-- R345: the count changes nothing, and is the number of words in use where `SP` is in its range
(log entry 6). -/
theorem State.access_count (s : State) :
    ∃ n, s.access .count = (s, .count n) ∧
      (s.progLen ≤ (s.reg .sp).toNat → (s.reg .sp).toNat ≤ s.memSize →
        n = (s.memSize - (s.reg .sp).toNat) / 4) := by
  by_cases h : s.progLen ≤ (s.reg .sp).toNat ∧ (s.reg .sp).toNat ≤ s.memSize
  · exact ⟨_, if_pos h, fun _ _ => rfl⟩
  · exact ⟨_, if_neg h, fun hlo hhi => absurd ⟨hlo, hhi⟩ h⟩

end

/-- Settles O22, accessor by accessor; push and pop by the answers of the stack operations. -/
theorem introspectionAccessors : Obligations.IntrospectionAccessors := by
  intro s rest hp
  refine ⟨?getRegister, ?setRegister, ?badRegister, ?readMemory, ?writeMemory, ?badOffset, ?push,
    ?pop, ?count⟩
  case getRegister => exact fun r hcall => step_of_access hp hcall (State.access_getRegister _ r)
  case setRegister =>
    exact fun r v hcall => ⟨_, step_of_access hp hcall (State.access_setRegister _ r v),
      fun q => s.reg_setReg r q v, rfl⟩
  case badRegister =>
    rintro i v hi (hcall | hcall)
    · exact step_of_access hp hcall (State.access_getRegister_refused hi)
    · exact step_of_access hp hcall (State.access_setRegister_refused hi v)
  case readMemory =>
    exact fun offset hcall hin => step_of_access hp hcall (State.access_readMemory hin)
  case writeMemory =>
    intro offset b hcall hin
    have hwrite := State.access_writeMemory (s := { s with inbox := rest }) hin b
    exact ⟨_, step_of_access hp hcall hwrite, Memory.read_write s.mem offset b, rfl⟩
  case badOffset =>
    rintro offset b hout (hcall | hcall)
    · exact step_of_access hp hcall (State.access_readMemory_refused hout)
    · have hwrite := State.access_writeMemory_refused (s := { s with inbox := rest }) hout b
      exact step_of_access hp hcall hwrite
  case push =>
    intro v hcall
    split_ifs with hlo hhi
    · exact step_of_access hp hcall (State.access_push_error (State.pushWord_overflow v hlo))
    · exact step_of_access hp hcall
        (State.access_push_error (State.pushWord_outside v (Nat.lt_of_not_le hlo) hhi))
    · have hpush := State.pushWord_ok (s := { s with inbox := rest }) v (Nat.lt_of_not_le hlo)
        (Nat.le_of_not_lt hhi)
      exact ⟨_, step_of_access hp hcall (State.access_push_ok hpush), s.reg_pushed v,
        memoryAfterStore_writeBytes _ _ _ _ _ rfl, rfl⟩
  case pop =>
    intro hcall
    split_ifs with hempty hcut
    · exact step_of_access hp hcall (State.access_pop_error (State.topWord_underflow hempty))
    · rw [not_or, not_le, not_lt] at hempty
      obtain ⟨hin, hlo⟩ := hempty
      exact step_of_access hp hcall (State.access_pop_error (State.topWord_outside hlo hin hcut))
    · rw [not_or, not_le, not_lt] at hempty
      obtain ⟨_, hlo⟩ := hempty
      have htop := State.topWord_ok (s := { s with inbox := rest }) hlo (Nat.le_of_not_lt hcut)
      exact ⟨_, step_of_access hp hcall (State.access_pop_ok htop),
        fun q => s.reg_setReg .sp q _, rfl⟩
  case count =>
    intro hcall
    obtain ⟨n, hcount, hn⟩ := State.access_count { s with inbox := rest }
    exact ⟨n, step_of_access hp hcall hcount, hn⟩

end Sys2Proof.Machine
end
